-- ==== Sys2Proof/Word.lean ====
section
/-! DEFINITION. The word types of the hardware (rules R8, R12, R20 of spec/): a register of the window is 32 bits,
a pixel, a stream byte and a probability 8, a coefficient 16, a frame-memory address ADDR_W = 32. -/

namespace Sys2Proof

/-- A register of the window, a command word, an operand (R20, R21, R80). -/
abbrev Word := BitVec 32

/-- One byte: the unit of every frame-memory access (R62). -/
abbrev Byte := BitVec 8

/-- A coefficient, s16 (R41). -/
abbrev Half := BitVec 16

/-- A frame-memory address, reduced modulo 2^ADDR_W with ADDR_W = 32 (R7, R12). -/
abbrev Addr := BitVec 32

end Sys2Proof
end

