-- ==== Sys2Proof/Config.lean ====
section
/-! DEFINITION. What is fixed for the machine: the constants of rule R7 (00_scope.md), the three open or
selectable parameters of R7 (VS, ADMIT, MMIO_BASE) as plain data, and the one free value of the model.

DESIGN CHOICE (logs 2, 3, 4): R7 says "the model takes these parameters as arguments"; they are a record that State
carries and no step writes, so a statement about every state holds for every value of the parameters. -/

namespace Sys2Proof

/-- VS, the width in bits of BD_VALUE: 64 by decision D3, 32 also allowed (R7, I10). -/
inductive ValueSize where
  /-- VS = 32. -/
  | bits32
  /-- VS = 64. -/
  | bits64
  deriving DecidableEq, Repr

/-- A range of admitted frame-memory addresses: base, base + 1, ..., base + size - 1 (as integers). -/
structure Region where
  base : Nat
  size : Nat
  deriving DecidableEq, Repr

/-- The parameters of R7 that the spec leaves OPEN or selectable. -/
structure Params where
  /-- VS (R7, D3). -/
  vs : ValueSize
  /-- ADMIT (R7, R64, D5: OPEN): an address is admitted when some region holds it. Any predicate on the 2^32
  addresses is such a list. -/
  admitted : List Region
  /-- MMIO_BASE (R7, R68, D6: OPEN): where the register window lies in the host's address space. -/
  mmioBase : Nat
  deriving DecidableEq, Repr

namespace Config

/-- LOTS_OF_BITS, the end-of-buffer sentinel (R7, G2). -/
def lotsOfBits : Int := 0x40000000

/-- 2^ADDR_W with ADDR_W = 32 (R7): the size of frame memory in bytes. -/
def addrSpace : Nat := 2 ^ 32

/-- MAX_TREE_STEPS (R7). -/
def maxTreeSteps : Nat := 16

/-- What ID reads (R24). -/
def idValue : Word := 0x56503801#32

/-- The size in bytes of the register window (R20). -/
def windowSize : Nat := 4096

/-- What a frame-memory byte that memory does not list reads as. DESIGN CHOICE (log 5), unsafe: the spec leaves
frame-memory contents at power-on unspecified (R290, I20). -/
def unlistedByte : Byte := 0#8

/-- The free value a register read while BUSY = 1 returns ("an unspecified value", R301, I16), one for each value of
the counter State.freeCount (log 7). It has no body: nothing can be proved about it. -/
opaque busyRead : Nat → BitVec 32

end Config
end Sys2Proof
end

