-- ==== Sys2Proof/Syntax.lean ====
section
/-! DEFINITION. The command set (rules R80 to R90 of 30_encoding.md): one constructor of Instr per row of
spec/opcode_table.json, with the fields of its format (R81) at their widths; the names of the field values that
the family files name; and the codes a command can fail with (R261). -/

namespace Sys2Proof

/-- The commands. A field is the field of the command word, zero-extended by whoever reads it (R82); one-bit fields
are Bools. A field may hold a reserved value: the command then fails as its rule says. -/
inductive Instr where
  /-- NOP (R275). -/
  | nop
  /-- BD_INIT (R101). -/
  | bdInit
  /-- BD_BOOL (R103): PROB = CMD[15:8]. -/
  | bdBool (prob : BitVec 8)
  /-- BD_LITERAL (R104): NBITS = CMD[12:8]. -/
  | bdLiteral (nbits : BitVec 5)
  /-- TREE_READ (R121): TREE = CMD[11:8], START = CMD[16:12]. -/
  | treeRead (tree : BitVec 4) (start : BitVec 5)
  /-- DEQUANT (R142): BLK = CMD[12:8]. -/
  | dequant (blk : BitVec 5)
  /-- IWHT (R143). -/
  | iwht
  /-- IWHT_DC (R144). -/
  | iwhtDc
  /-- IWHT_AUTO (R145). -/
  | iwhtAuto
  /-- IDCT_ADD (R147): BLK = CMD[12:8]. -/
  | idctAdd (blk : BitVec 5)
  /-- IDCT_DC_ADD (R148): BLK = CMD[12:8]. -/
  | idctDcAdd (blk : BitVec 5)
  /-- IDCT_AUTO_ADD (R149): BLK = CMD[12:8]. -/
  | idctAutoAdd (blk : BitVec 5)
  /-- COEF_CLEAR (R150). -/
  | coefClear
  /-- INTRA_B4 (R182): MODE = CMD[11:8]. -/
  | intraB4 (mode : BitVec 4)
  /-- INTRA_Y16 (R183): MODE = CMD[11:8], UP = CMD[12], LEFT = CMD[13]. -/
  | intraY16 (mode : BitVec 4) (up left : Bool)
  /-- INTRA_UV8 (R184): MODE = CMD[11:8], UP = CMD[12], LEFT = CMD[13]. -/
  | intraUv8 (mode : BitVec 4) (up left : Bool)
  /-- ABOVE_RIGHT_COPY (R187). -/
  | aboveRightCopy
  /-- MC_PRED (R201): SIZE = CMD[9:8], CHROMA = CMD[10]. -/
  | mcPred (size : BitVec 2) (chroma : Bool)
  /-- LF_FRAME_INIT (R240). -/
  | lfFrameInit
  /-- LF_MB (R230): SEG = CMD[9:8], REF = CMD[11:10], MODE = CMD[15:12], SKIP = CMD[16], TOP = CMD[17],
  LEFTMB = CMD[18]. -/
  | lfMb (seg ref : BitVec 2) (mode : BitVec 4) (skip top leftMb : Bool)
  /-- LF_EDGE (R228): DIR = CMD[8], KIND = CMD[10:9], CNT = CMD[11]. -/
  | lfEdge (dir : Bool) (kind : BitVec 2) (cnt : Bool)
  deriving DecidableEq, Repr

/-- The ten 4x4 sub-block modes (R171). -/
inductive SubMode where
  | bDc | bTm | bVe | bHe | bLd | bRd | bVr | bVl | bHd | bHu
  deriving DecidableEq, Repr

/-- The four whole-block modes (R171). -/
inductive BlockMode where
  | dc | v | h | tm
  deriving DecidableEq, Repr

/-- The ten macroblock modes (R124, R232). -/
inductive MbMode where
  | dcPred | vPred | hPred | tmPred | bPred | nearestMv | nearMv | zeroMv | newMv | splitMv
  deriving DecidableEq, Repr

/-- The kinds of edge (R226, R228). -/
inductive EdgeKind where
  | mb | inner | simple
  deriving DecidableEq, Repr

/-- The direction of an edge (R225, R228): h runs left to right and is filtered across vertically. -/
inductive EdgeDir where
  | h | v
  deriving DecidableEq, Repr

/-- The ways a command can fail (R261); the code of each is CmdError.code. -/
inductive CmdError where
  /-- CMD[7:0] is no opcode of R84: code 1. -/
  | illegalOpcode
  /-- A reserved bit of the command's format is 1: code 2. -/
  | reservedField
  /-- A reserved field value: code 3. -/
  | illegalMode
  /-- A legal field value wrong for the operation: code 4. -/
  | badParam
  /-- A byte of the footprint is not admitted, or a BD_INIT buffer wraps: code 5. -/
  | memFault
  /-- A decoding command before the first BD_INIT: code 6. -/
  | bdNotReady
  /-- A tree walk leaves the table or exceeds MAX_TREE_STEPS: code 7. -/
  | badTree
  deriving DecidableEq, Repr

end Sys2Proof
end

