-- ==== Sys2Proof/Machine/Arith.lean ====
section
/-! DEFINITION. The arithmetic notation of 00_scope.md (rules R8 to R10): clamping, truncation, bit fields and byte
lanes, and the building of a register file from its entries. `/` on Int with a
positive divisor is the floor division, Int.tdiv the truncating division. -/

namespace Sys2Proof.Machine

/-- a >> k on an integer: the floor of a / 2^k (R10). -/
def shr (a : Int) (k : Nat) : Int := a / 2 ^ k

/-- clamp255 (R10). -/
def clamp255 (v : Int) : Int := min (max v 0) 255

/-- sclamp (R10). -/
def sclamp (v : Int) : Int := min (max v (-128)) 127

/-- c63 (R241). -/
def c63 (v : Int) : Int := min (max v 0) 63

/-- trunc16 (R9): the low 16 bits read as two's complement. -/
def trunc16 (v : Int) : Int := (BitVec.ofInt 16 v).toInt

/-- The s16 a coefficient store leaves in the file: truncation to 16 bits (R8, R41). -/
def half (v : Int) : Half := BitVec.ofInt 16 v

/-- The byte MemWrite stores: the low 8 bits (R11). -/
def byte (v : Int) : Byte := BitVec.ofInt 8 v

/-- Byte lane j of a word, bits [8j+7:8j] (R63 c). -/
def byteLane (w : Word) (j : Nat) : Byte := w.extractLsb' (8 * j) 8

/-- Halfword lane j of a word, bits [16j+15:16j] (R63 c). -/
def halfLane (w : Word) (j : Nat) : Half := w.extractLsb' (16 * j) 16

/-- The word of four byte lanes, lane 0 first (R63 c). -/
def wordOfBytes (b0 b1 b2 b3 : Byte) : Word := b3 ++ b2 ++ b1 ++ b0

/-- The word of two halfword lanes, lane 0 first (R63 c). -/
def wordOfHalves (h0 h1 : Half) : Word := h1 ++ h0

/-- The file of n entries whose entry i is f i. -/
def tabulate {α : Type} (n : Nat) (f : Nat → α) : Vector α n :=
  ⟨((List.range n).map f).toArray, by simp⟩

end Sys2Proof.Machine
end

