-- ==== Sys2Proof/Machine/Tables.lean ====
section
/-! DEFINITION. The constant tables of rule R46, which are not state, and the code numbers of the field values.
UNVERIFIED (log 15): the spec marks the values of these tables as general knowledge of VP8 (93_implementation_defined.md,
G1 to G18); the model takes them from the spec as they stand. -/

namespace Sys2Proof.Machine

/-- ERR_CODE of each failure (R261). -/
def errCodeOf : CmdError → BitVec 4
  | .illegalOpcode => 1#4
  | .reservedField => 2#4
  | .illegalMode => 3#4
  | .badParam => 4#4
  | .memFault => 5#4
  | .bdNotReady => 6#4
  | .badTree => 7#4

/-- NORM[r] (R100), for r = 0..255. -/
def norm (r : Nat) : Nat :=
  if r = 0 then 0
  else if r < 2 then 7
  else if r < 4 then 6
  else if r < 8 then 5
  else if r < 16 then 4
  else if r < 32 then 3
  else if r < 64 then 2
  else if r < 128 then 1
  else 0

/-- MODE of INTRA_B4 (R171); none for the reserved values 10..15. -/
def subModeOf (m : BitVec 4) : Option SubMode :=
  match m.toNat with
  | 0 => some .bDc
  | 1 => some .bTm
  | 2 => some .bVe
  | 3 => some .bHe
  | 4 => some .bLd
  | 5 => some .bRd
  | 6 => some .bVr
  | 7 => some .bVl
  | 8 => some .bHd
  | 9 => some .bHu
  | _ => none

/-- MODE of INTRA_Y16 and INTRA_UV8 (R171); none for the reserved values 4..15. -/
def blockModeOf (m : BitVec 4) : Option BlockMode :=
  match m.toNat with
  | 0 => some .dc
  | 1 => some .v
  | 2 => some .h
  | 3 => some .tm
  | _ => none

/-- MODE of LF_MB (R124, R232); none for the reserved values 10..15. -/
def mbModeOf (m : BitVec 4) : Option MbMode :=
  match m.toNat with
  | 0 => some .dcPred
  | 1 => some .vPred
  | 2 => some .hPred
  | 3 => some .tmPred
  | 4 => some .bPred
  | 5 => some .nearestMv
  | 6 => some .nearMv
  | 7 => some .zeroMv
  | 8 => some .newMv
  | 9 => some .splitMv
  | _ => none

/-- KIND of LF_EDGE (R228); none for the reserved value 3. -/
def edgeKindOf (k : BitVec 2) : Option EdgeKind :=
  match k.toNat with
  | 0 => some .mb
  | 1 => some .inner
  | 2 => some .simple
  | _ => none

/-- DIR of LF_EDGE (R228). -/
def edgeDirOf (d : Bool) : EdgeDir := if d then .v else .h

/-- (W, H) of MC_PRED's SIZE (R201). -/
def mcSize (size : BitVec 2) : Nat × Nat :=
  match size.toNat with
  | 0 => (4, 4)
  | 1 => (8, 4)
  | 2 => (8, 8)
  | _ => (16, 16)

/-- The ten ROM trees (R123); none for an id that is not 0..9. -/
def romTree : Nat → Option (List Int)
  | 0 => some [0, 2, 4, 6, -1, -2, -3, -4]
  | 1 => some [-4, 2, 4, 6, 0, -1, -2, -3]
  | 2 => some [0, 2, -1, 4, -2, -3]
  | 3 => some [0, 2, -1, 4, -2, 6, 8, 12, -3, 10, -5, -6, -4, 14, -7, 16, -8, -9]
  | 4 => some [-3, 2, -2, 4, 0, -1]
  | 5 => some [-7, 2, -5, 4, -6, 6, -8, -9]
  | 6 => some [-10, 2, -11, 4, -12, -13]
  | 7 => some [2, 8, 4, 6, 0, -1, -2, -3, 10, 12, -4, -5, -6, -7]
  | 8 => some [2, 4, 0, -1, -2, -3]
  | 9 => some [-11, 2, 0, 4, -1, 6, 8, 12, -2, 10, -3, -4, 14, 16, -5, -6, 18, 20, -7, -8, -9, -10]
  | _ => none

/-- len of TreeOf(id) (R122): the ROM trees' lengths and TREE_RAM_LEN = 32 for id 15; none for 10..14. -/
def treeLen (id : BitVec 4) : Option Nat :=
  if id.toNat = 15 then some 32 else (romTree id.toNat).map List.length

/-- The six-tap filters by phase (R202): taps for offsets -2..+3. -/
def sixTapTaps : Nat → List Int
  | 0 => [0, 0, 128, 0, 0, 0]
  | 1 => [0, -6, 123, 12, -1, 0]
  | 2 => [2, -11, 108, 36, -8, 1]
  | 3 => [0, -9, 93, 50, -6, 0]
  | 4 => [3, -16, 77, 77, -16, 3]
  | 5 => [0, -6, 50, 93, -9, 0]
  | 6 => [1, -8, 36, 108, -11, 2]
  | _ => [0, -1, 12, 123, -6, 0]

/-- The bilinear filters by phase k (R203): taps for offsets 0 and +1. -/
def bilinearTaps (k : Nat) : Int × Int := (128 - 16 * k, 16 * k)

/-- b of R231: LIM[l] for sharpness sh and level l. -/
def limOf (sh l : Nat) : Nat :=
  let b := l >>> (if sh > 0 then 1 else 0)
  let b := b >>> (if sh > 4 then 1 else 0)
  let b := if sh > 0 ∧ b > 9 - sh then 9 - sh else b
  if b < 1 then 1 else b

/-- BLIM[l] of R231. -/
def blimOf (sh l : Nat) : Nat := 2 * l + limOf sh l

/-- MBLIM[l] of R231. -/
def mblimOf (sh l : Nat) : Nat := 2 * (l + 2) + limOf sh l

/-- The LIM file for sharpness sh (R44, R231). -/
def limTable (sh : Nat) : Vector Byte 64 := tabulate 64 fun l => BitVec.ofNat 8 (limOf sh l)

/-- The BLIM file for sharpness sh (R44, R231). -/
def blimTable (sh : Nat) : Vector Byte 64 := tabulate 64 fun l => BitVec.ofNat 8 (blimOf sh l)

/-- The MBLIM file for sharpness sh (R44, R231). -/
def mblimTable (sh : Nat) : Vector Byte 64 := tabulate 64 fun l => BitVec.ofNat 8 (mblimOf sh l)

/-- HEV_THR_LUT[frame type][level] (R233); interFrame is FRAME_TYPE = 1. -/
def hevThr (interFrame : Bool) (l : Nat) : Nat :=
  if interFrame then
    if 40 ≤ l then 3 else if 20 ≤ l then 2 else if 15 ≤ l then 1 else 0
  else
    if 40 ≤ l then 2 else if 15 ≤ l then 1 else 0

/-- MODE_LF_LUT[mode] (R232). -/
def modeClass : MbMode → Nat
  | .dcPred | .vPred | .hPred | .tmPred => 1
  | .bPred => 0
  | .zeroMv => 1
  | .nearestMv | .nearMv | .newMv => 2
  | .splitMv => 3

/-- A macroblock mode is intra when its number is at most 4 (R124, R230). -/
def isIntraMode : MbMode → Bool
  | .dcPred | .vPred | .hPred | .tmPred | .bPred => true
  | .nearestMv | .nearMv | .zeroMv | .newMv | .splitMv => false

end Sys2Proof.Machine
end

