-- ==== Sys2Proof/WellFormed.lean ====
section
/-! DEFINITION. The checks of a command that need its fields alone (rule R86 of 30_encoding.md, codes 3 and 4 of R261):
reserved field values, and legal field values wrong for the operation. An ill-formed command still has a meaning:
it fails with that code. -/

namespace Sys2Proof

open Sys2Proof.Machine

/-- The code an ill-formed command fails with, from its fields alone (R86, R261): ILLEGAL_MODE before BAD_PARAM
(R262); none for a well-formed command. -/
def Instr.fieldError : Instr → Option CmdError
  | .nop | .bdInit | .bdBool _ | .bdLiteral _ => none
  | .treeRead tree start =>
    if 10 ≤ tree.toNat ∧ tree.toNat ≤ 14 then some .illegalMode
    else if start.toNat % 2 = 1 ∨ (treeLen tree).getD 0 ≤ start.toNat + 1 then some .badParam
    else none
  | .dequant blk => if 24 < blk.toNat then some .badParam else none
  | .iwht | .iwhtDc | .iwhtAuto => none
  | .idctAdd blk | .idctDcAdd blk | .idctAutoAdd blk => if 23 < blk.toNat then some .badParam else none
  | .coefClear => none
  | .intraB4 mode => if 9 < mode.toNat then some .illegalMode else none
  | .intraY16 mode _ _ | .intraUv8 mode _ _ => if 3 < mode.toNat then some .illegalMode else none
  | .aboveRightCopy | .mcPred _ _ | .lfFrameInit => none
  | .lfMb _ ref mode _ _ _ =>
    if 9 < mode.toNat then some .illegalMode
    else if (ref.toNat = 0 ∧ 4 < mode.toNat) ∨ (0 < ref.toNat ∧ mode.toNat < 5) then some .badParam
    else none
  | .lfEdge _ kind _ => if kind.toNat = 3 then some .illegalMode else none

/-- The fields of the command are legal and usable (R86). -/
def Instr.wellFormed (i : Instr) : Bool := i.fieldError.isNone

end Sys2Proof
end

