-- ==== Sys2Proof/Decode.lean ====
section
/-! DEFINITION. From a command word to a command and back (rules R80 to R90 of 30_encoding.md). A decoder needs only
the word (R80). It refuses by name: an opcode outside the map with ILLEGAL_OPCODE (R85), a legal opcode with a reserved
bit set with RESERVED_FIELD (R86), in that order (R262). Reserved field values decode: the command's own rule
refuses them (R121, R182, R183, R184, R228, R230). -/

namespace Sys2Proof

/-- The formats of R81. -/
inductive Format where
  | n | p | l | t | b | i4 | i | m | f | e
  deriving DecidableEq, Repr

/-- The rows of the opcode map (R84). -/
inductive Opcode where
  | nop | bdInit | bdBool | bdLiteral | treeRead
  | dequant | iwht | iwhtDc | iwhtAuto | idctAdd | idctDcAdd | idctAutoAdd | coefClear
  | intraB4 | intraY16 | intraUv8 | aboveRightCopy | mcPred
  | lfFrameInit | lfMb | lfEdge
  deriving DecidableEq, Repr

/-- The lowest reserved bit of a format: in every format the reserved bits are this one and all above it (R81). -/
def reservedFrom : Format → Nat
  | .n => 8
  | .p => 16
  | .l => 13
  | .t => 17
  | .b => 13
  | .i4 => 12
  | .i => 14
  | .m => 11
  | .f => 19
  | .e => 12

/-- The format of an opcode (R84). -/
def formatOf : Opcode → Format
  | .nop | .bdInit | .iwht | .iwhtDc | .iwhtAuto | .coefClear | .aboveRightCopy | .lfFrameInit => .n
  | .bdBool => .p
  | .bdLiteral => .l
  | .treeRead => .t
  | .dequant | .idctAdd | .idctDcAdd | .idctAutoAdd => .b
  | .intraB4 => .i4
  | .intraY16 | .intraUv8 => .i
  | .mcPred => .m
  | .lfMb => .f
  | .lfEdge => .e

/-- The opcode a byte spells (R84); none for the 235 illegal values (R85). -/
def opcodeOf (op : BitVec 8) : Option Opcode :=
  match op.toNat with
  | 0x00 => some .nop
  | 0x01 => some .bdInit
  | 0x02 => some .bdBool
  | 0x03 => some .bdLiteral
  | 0x10 => some .treeRead
  | 0x20 => some .dequant
  | 0x21 => some .iwht
  | 0x22 => some .iwhtDc
  | 0x23 => some .iwhtAuto
  | 0x24 => some .idctAdd
  | 0x25 => some .idctDcAdd
  | 0x26 => some .idctAutoAdd
  | 0x27 => some .coefClear
  | 0x30 => some .intraB4
  | 0x31 => some .intraY16
  | 0x32 => some .intraUv8
  | 0x33 => some .aboveRightCopy
  | 0x40 => some .mcPred
  | 0x50 => some .lfFrameInit
  | 0x51 => some .lfMb
  | 0x52 => some .lfEdge
  | _ => none

/-- The command of an opcode with the fields of the word at their places (R81, R82). -/
def instrOf (op : Opcode) (w : Word) : Instr :=
  match op with
  | .nop => .nop
  | .bdInit => .bdInit
  | .bdBool => .bdBool (w.extractLsb' 8 8)
  | .bdLiteral => .bdLiteral (w.extractLsb' 8 5)
  | .treeRead => .treeRead (w.extractLsb' 8 4) (w.extractLsb' 12 5)
  | .dequant => .dequant (w.extractLsb' 8 5)
  | .iwht => .iwht
  | .iwhtDc => .iwhtDc
  | .iwhtAuto => .iwhtAuto
  | .idctAdd => .idctAdd (w.extractLsb' 8 5)
  | .idctDcAdd => .idctDcAdd (w.extractLsb' 8 5)
  | .idctAutoAdd => .idctAutoAdd (w.extractLsb' 8 5)
  | .coefClear => .coefClear
  | .intraB4 => .intraB4 (w.extractLsb' 8 4)
  | .intraY16 => .intraY16 (w.extractLsb' 8 4) (w.getLsbD 12) (w.getLsbD 13)
  | .intraUv8 => .intraUv8 (w.extractLsb' 8 4) (w.getLsbD 12) (w.getLsbD 13)
  | .aboveRightCopy => .aboveRightCopy
  | .mcPred => .mcPred (w.extractLsb' 8 2) (w.getLsbD 10)
  | .lfFrameInit => .lfFrameInit
  | .lfMb => .lfMb (w.extractLsb' 8 2) (w.extractLsb' 10 2) (w.extractLsb' 12 4) (w.getLsbD 16) (w.getLsbD 17)
      (w.getLsbD 18)
  | .lfEdge => .lfEdge (w.getLsbD 8) (w.extractLsb' 9 2) (w.getLsbD 11)

/-- Decoding a command word (R80, R84 to R87). -/
def decode (w : Word) : Except CmdError Instr :=
  match opcodeOf (w.extractLsb' 0 8) with
  | none => .error .illegalOpcode
  | some op => if w >>> reservedFrom (formatOf op) = 0#32 then .ok (instrOf op w) else .error .reservedField

/-- Encoding a command: the bit pattern of R90, bit 31 on the left. -/
def encode : Instr → Word
  | .nop => 0x00000000#32
  | .bdInit => 0x00000001#32
  | .bdBool prob => 0#16 ++ prob ++ 0x02#8
  | .bdLiteral nbits => 0#19 ++ nbits ++ 0x03#8
  | .treeRead tree start => 0#15 ++ start ++ tree ++ 0x10#8
  | .dequant blk => 0#19 ++ blk ++ 0x20#8
  | .iwht => 0x00000021#32
  | .iwhtDc => 0x00000022#32
  | .iwhtAuto => 0x00000023#32
  | .idctAdd blk => 0#19 ++ blk ++ 0x24#8
  | .idctDcAdd blk => 0#19 ++ blk ++ 0x25#8
  | .idctAutoAdd blk => 0#19 ++ blk ++ 0x26#8
  | .coefClear => 0x00000027#32
  | .intraB4 mode => 0#20 ++ mode ++ 0x30#8
  | .intraY16 mode up left => 0#18 ++ BitVec.ofBool left ++ BitVec.ofBool up ++ mode ++ 0x31#8
  | .intraUv8 mode up left => 0#18 ++ BitVec.ofBool left ++ BitVec.ofBool up ++ mode ++ 0x32#8
  | .aboveRightCopy => 0x00000033#32
  | .mcPred size chroma => 0#21 ++ BitVec.ofBool chroma ++ size ++ 0x40#8
  | .lfFrameInit => 0x00000050#32
  | .lfMb seg ref mode skip top leftMb =>
      0#13 ++ BitVec.ofBool leftMb ++ BitVec.ofBool top ++ BitVec.ofBool skip ++ mode ++ ref ++ seg ++ 0x51#8
  | .lfEdge dir kind cnt => 0#20 ++ BitVec.ofBool cnt ++ kind ++ BitVec.ofBool dir ++ 0x52#8

/-- The instruction the decoder reads from an instruction whose bits are w, nbits of them. Every command is one 32-bit
word (R80), which is no memory value and has no byte order (R63, R74); bits above nbits are 0. -/
def decodeTableWord (nbits w : Nat) : Option Instr :=
  match decode (BitVec.ofNat 32 (w % 2 ^ nbits)) with
  | .ok i => some i
  | .error _ => none

end Sys2Proof
end

