-- ==== Sys2Proof/Machine/State.lean ====
section
/-! DEFINITION. The state of the hardware (10_state.md), the host's coming accesses, the reasons a step can stop, and
the state after reset (70_reset_and_hazards.md). State is plain data; INVENTORY.md lists every field with its rule. -/

namespace Sys2Proof.Machine

/-- Frame memory (R60): the bytes that do not read as Config.unlistedByte, by address, in the canonical form that
Memory.wf (Machine/Ops.lean) states. -/
abbrev Memory := List Host.Cell

/-- The boolean decoder's registers (R34 to R37). -/
structure BoolDecoder where
  /-- BD_VALUE (R34): VS bits, held in 64; with VS = 32 the upper half is 0 (log 3). -/
  value : BitVec 64
  /-- BD_COUNT (R35), s32. -/
  count : BitVec 32
  /-- BD_RANGE (R36). -/
  range : BitVec 8
  /-- BD_POS (R37). DEDUCED (log 6): 33 bits, so that 2^32, one past the last address, is a value. -/
  pos : BitVec 33
  /-- BD_END (R37), exclusive; 33 bits as BD_POS. -/
  stop : BitVec 33
  deriving DecidableEq, Repr

/-- What the host, or the platform's reset input, does next (R18, R19, R61, R89, R290). Addresses of register
accesses are addresses of the host's space, where the window lies at MMIO_BASE (R68). -/
inductive HostAction where
  /-- A register read of `width` bits. -/
  | regRead (width address : Nat)
  /-- A register write of `width` bits; `value` is what a 32-bit write writes. -/
  | regWrite (width address : Nat) (value : Word)
  /-- A read of a frame-memory byte by the host's own means. -/
  | memRead (address : Addr)
  /-- A write of a frame-memory byte by the host's own means (`WB` of R89 is a list of these). -/
  | memWrite (address : Addr) (value : Byte)
  /-- The platform's reset input (R290). -/
  | resetInput
  deriving DecidableEq, Repr

/-- Why the machine stops. -/
inductive Fault where
  /-- Raised by a host register access that is not 32 bits wide or not word-aligned: "outside the interface: the model
  gives it no step (the host agent is stuck)" (R61, I12). Safe: the model stops. -/
  | hostAccessOutsideInterface
  deriving DecidableEq, Repr

/-- Why a step has no meaning in this model. -/
inductive Refusal where
  /-- An instruction of the opcode table without a meaning: none is left. Safe: the model stops. -/
  | notModelled (mnemonic : String)
  /-- Raised by a host register access at a host address outside the window: another device's, not this hardware's
  (R20, R68; log 10). Safe: the model stops. -/
  | notThisDevice
  deriving DecidableEq, Repr

/-- The state: every piece of 10_state.md, frame memory, the parameters of R7, and the model's own fields. -/
structure State where
  /-- VS, ADMIT and MMIO_BASE (R7), which no step writes. -/
  params : Params
  /-- ARG0..ARG7 (R21). -/
  args : Vector Word 8
  /-- RES0 (R23). -/
  res0 : Word
  /-- STATUS.BUSY (R26, R300): 0 between the steps of this model (log 7). -/
  busy : Bool
  /-- STATUS.DONE (R26). -/
  done : Bool
  /-- STATUS.CMD_ERR (R26). -/
  cmdErr : Bool
  /-- STATUS.BD_READY (R38). -/
  bdReady : Bool
  /-- STATUS.ERR_CODE (R26, R261). -/
  errCode : BitVec 4
  /-- CTRL (R27). -/
  ctrl : Word
  /-- LF_CFG (R28). -/
  lfCfg : Word
  /-- LF_SEG (R29). -/
  lfSeg : Word
  /-- LF_REFD (R30). -/
  lfRefd : Word
  /-- LF_MODED (R31). -/
  lfModed : Word
  /-- DQ (R32). -/
  dq : Word
  /-- LAST_SHARP[2:0] (R33). -/
  lastSharp : BitVec 3
  /-- BD_VALUE, BD_COUNT, BD_RANGE, BD_POS, BD_END (R34 to R37). -/
  bd : BoolDecoder
  /-- PROB[0..15] (R39). -/
  prob : Vector Byte 16
  /-- TREE_RAM[0..31] (R40), two's complement. -/
  treeRam : Vector Byte 32
  /-- COEF (R41): entry 16b + i is COEF[b][i], two's complement. -/
  coef : Vector Half 400
  /-- EOB[0..24] (R42). -/
  eob : Vector Byte 25
  /-- LVL (R43): entry 16s + 4f + m is LVL[s][f][m]. -/
  lvl : Vector Byte 64
  /-- LIM[0..63] (R44). -/
  lim : Vector Byte 64
  /-- BLIM[0..63] (R44). -/
  blim : Vector Byte 64
  /-- MBLIM[0..63] (R44). -/
  mblim : Vector Byte 64
  /-- Frame memory (R51, R60), owned by the host. -/
  mem : Memory
  /-- The model's own: the host's coming accesses, oldest first (log 1). -/
  host : List HostAction
  /-- The model's own: the value the host's last read returned (log 8). -/
  hostData : Word
  /-- The model's own: which free value the next register read while BUSY returns (R301; log 7). -/
  freeCount : Nat
  deriving DecidableEq, Repr

/-- The decoder's registers after reset (R290). -/
def BoolDecoder.reset : BoolDecoder :=
  { value := 0#64, count := 0#32, range := 255#8, pos := 0#33, stop := 0#33 }

/-- The parameters of State.reset: VS = 64 (D3); DESIGN CHOICE (logs 2, 4): every address admitted, the window at host
address 0. -/
def paramsReset : Params := { vs := .bits64, admitted := [⟨0, 2 ^ 32⟩], mmioBase := 0 }

/-- The state right after power-on reset (R290) with the given parameters. Memory lists nothing (log 5) and the host
has no access pending (log 1). -/
def State.resetWith (p : Params) : State :=
  { params := p
    args := Vector.replicate 8 0#32
    res0 := 0#32
    busy := false
    done := false
    cmdErr := false
    bdReady := false
    errCode := 0#4
    ctrl := 0#32
    lfCfg := 0#32
    lfSeg := 0#32
    lfRefd := 0#32
    lfModed := 0#32
    dq := 0#32
    lastSharp := 0#3
    bd := BoolDecoder.reset
    prob := Vector.replicate 16 128#8
    treeRam := Vector.replicate 32 0#8
    coef := Vector.replicate 400 0#16
    eob := Vector.replicate 25 0#8
    lvl := Vector.replicate 64 0#8
    lim := limTable 0
    blim := blimTable 0
    mblim := mblimTable 0
    mem := []
    host := []
    hostData := 0#32
    freeCount := 0 }

/-- The state right after reset. -/
def State.reset : State := State.resetWith paramsReset

end Sys2Proof.Machine
end

