-- ==== Sys2Proof/Machine/Operands.lean ====
section
/-! DEFINITION. Reading the operands of a command: the ARG registers (rules R21, R83), addresses of pixels (R12, R13),
the fields of the configuration registers (R27 to R32), and the entries of the register files (R39 to R44). A read of
a file past its end answers 0: no command makes one (logs 12, 16). -/

namespace Sys2Proof.Machine

/-- ARG[k] (R21). -/
def State.arg (s : State) (k : Nat) : Word := s.args.getD k 0#32

/-- The width of BD_VALUE in bits (R7). -/
def vsBits : ValueSize → Nat
  | .bits32 => 32
  | .bits64 => 64

/-- A frame-memory address: an exact integer reduced modulo 2^ADDR_W (R12). -/
def toAddr (x : Int) : Addr := BitVec.ofInt 32 x

/-- The address of pix(base, stride, r, c) (R12, R13): base and stride read as u32, r and c any integers. -/
def pixAddr (base stride : Word) (r c : Int) : Addr :=
  toAddr ((base.toNat : Int) + r * (stride.toNat : Int) + c)

/-- The addresses of the W x H block at base with the given stride, in raster order (R13). -/
def blockAddrs (base stride : Word) (w h : Nat) : List Addr :=
  (List.range (w * h)).map fun k => pixAddr base stride (k / w : Nat) (k % w : Nat)

/-- The addresses base + r*stride + c for r0 <= r < r0 + rows and c0 <= c < c0 + cols, in raster order (R204, R208). -/
def windowAddrs (base stride : Word) (r0 c0 : Int) (rows cols : Nat) : List Addr :=
  (List.range (cols * rows)).map fun k => pixAddr base stride (r0 + (k / cols : Nat)) (c0 + (k % cols : Nat))

/-- The addresses base + j for j0 <= j < j0 + n (the above row of R170 begins at j0 = -1). -/
def rowAddrs (base : Word) (j0 : Int) (n : Nat) : List Addr :=
  (List.range n).map fun j => pixAddr base 0#32 0 (j0 + (j : Nat))

/-- The addresses base + r*stride for 0 <= r < n (the left column of R170). -/
def colAddrs (base stride : Word) (n : Nat) : List Addr :=
  (List.range n).map fun r => pixAddr base stride (r : Nat) 0

/-- CTRL.IRQ_EN (R27). -/
def State.irqEn (s : State) : Bool := s.ctrl.getLsbD 1

/-- CTRL.INTERP (R27): true is bilinear. -/
def State.interp (s : State) : Bool := s.ctrl.getLsbD 2

/-- CTRL.FULLPIXEL (R27). -/
def State.fullPixel (s : State) : Bool := s.ctrl.getLsbD 3

/-- CTRL.LF_TYPE (R27): true is the simple filter. -/
def State.lfType (s : State) : Bool := s.ctrl.getLsbD 4

/-- CTRL.FRAME_TYPE (R27): true is an inter frame. -/
def State.frameType (s : State) : Bool := s.ctrl.getLsbD 5

/-- CTRL.SHARPNESS (R27). -/
def State.sharpness (s : State) : BitVec 3 := s.ctrl.extractLsb' 8 3

/-- LF_CFG.LF_LEVEL (R28). -/
def State.lfLevel (s : State) : Int := (s.lfCfg.extractLsb' 0 6).toNat

/-- LF_CFG.SEG_EN (R28). -/
def State.segEn (s : State) : Bool := s.lfCfg.getLsbD 8

/-- LF_CFG.SEG_ABS (R28). -/
def State.segAbs (s : State) : Bool := s.lfCfg.getLsbD 9

/-- LF_CFG.DELTA_EN (R28). -/
def State.deltaEn (s : State) : Bool := s.lfCfg.getLsbD 10

/-- SEG_LF[s] (R29). -/
def State.segLf (s : State) (seg : Nat) : Int := (byteLane s.lfSeg seg).toInt

/-- REF_DELTA[f] (R30). -/
def State.refDelta (s : State) (f : Nat) : Int := (byteLane s.lfRefd f).toInt

/-- MODE_DELTA[m] (R31). -/
def State.modeDelta (s : State) (m : Nat) : Int := (byteLane s.lfModed m).toInt

/-- DQ_DC (R32). -/
def State.dqDc (s : State) : Int := (halfLane s.dq 0).toInt

/-- DQ_AC (R32). -/
def State.dqAc (s : State) : Int := (halfLane s.dq 1).toInt

/-- COEF[b][i] (R41). -/
def State.coefAt (s : State) (b i : Nat) : Int := (s.coef.getD (16 * b + i) 0#16).toInt

/-- COEF[b] as its 16 entries in raster order (R13, R41). -/
def State.coefBlock (s : State) (b : Nat) : List Int := (List.range 16).map (s.coefAt b)

/-- EOB[b] (R42). -/
def State.eobAt (s : State) (b : Nat) : Nat := (s.eob.getD b 0#8).toNat

/-- PROB[k] (R39). -/
def State.probAt (s : State) (k : Nat) : Byte := s.prob.getD k 0#8

/-- TREE_RAM as its 32 signed entries (R40). -/
def State.treeRamList (s : State) : List Int := s.treeRam.toList.map BitVec.toInt

/-- The tree of TreeOf(id) (R122); none for the reserved ids 10..14. -/
def State.treeOf (s : State) (id : BitVec 4) : Option (List Int) :=
  if id.toNat = 15 then some s.treeRamList else romTree id.toNat

/-- LVL[seg][ref][m] (R43). -/
def State.lvlAt (s : State) (seg ref m : Nat) : Nat := (s.lvl.getD (16 * seg + 4 * ref + m) 0#8).toNat

/-- LIM[l] (R44). -/
def State.limAt (s : State) (l : Nat) : Nat := (s.lim.getD l 0#8).toNat

/-- BLIM[l] (R44). -/
def State.blimAt (s : State) (l : Nat) : Nat := (s.blim.getD l 0#8).toNat

/-- MBLIM[l] (R44). -/
def State.mblimAt (s : State) (l : Nat) : Nat := (s.mblim.getD l 0#8).toNat

/-- The column component of the motion vector in ARG2 (R83, R201). -/
def State.mvCol (s : State) : Int := (halfLane (s.arg 2) 0).toInt

/-- The row component of the motion vector in ARG2 (R83, R201). -/
def State.mvRow (s : State) : Int := (halfLane (s.arg 2) 1).toInt

end Sys2Proof.Machine
end

