-- ==== Sys2Proof/Machine/Flags.lean ====
section
/-! DEFINITION. The flags (rule R47 of 10_state.md): the live BD_ERR, the STATUS word as the host reads it, and the
interrupt output. No command reads a flag but BD_READY. -/

namespace Sys2Proof.Machine

/-- decoder_has_error() (R49): VS < BD_COUNT < LOTS_OF_BITS as signed integers. -/
def bdErrOf (vs : ValueSize) (bd : BoolDecoder) : Bool :=
  decide ((vsBits vs : Int) < bd.count.toInt) && decide (bd.count.toInt < Config.lotsOfBits)

/-- STATUS.BD_ERR, evaluated on the current BD_COUNT (R26, R49). -/
def State.bdErr (s : State) : Bool := bdErrOf s.params.vs s.bd

/-- STATUS as a word (R26): BUSY [0], DONE [1], BD_ERR [2], CMD_ERR [3], BD_READY [4], ERR_CODE [11:8], the rest 0. -/
def State.statusWord (s : State) : Word :=
  0#20 ++ s.errCode ++ 0#3 ++ BitVec.ofBool s.bdReady ++ BitVec.ofBool s.cmdErr ++ BitVec.ofBool s.bdErr ++
    BitVec.ofBool s.done ++ BitVec.ofBool s.busy

/-- The interrupt output (R270). -/
def State.irq (s : State) : Bool := s.irqEn && (s.done || s.cmdErr)

end Sys2Proof.Machine
end

