-- ==== Sys2Proof/Machine/Ops.lean ====
section
/-! DEFINITION. The named operations over memory and registers: frame memory (rules R11, R60, R62), admission (R64),
the end of a command and its failure (R262, R263), the host's recovery from a failure (R26, R264), and the two resets
(R290, R291). -/

namespace Sys2Proof.Machine

/-- The canonical form from address lo on: addresses strictly rising from lo and inside the address space, no entry
equal to what an unlisted address reads as. -/
def Memory.wfFrom (lo : Nat) : Memory → Bool
  | [] => true
  | (a, b) :: m => decide (lo ≤ a) && decide (a < Config.addrSpace) && (b != Config.unlistedByte) && wfFrom (a + 1) m

/-- The canonical form of memory: equal memories are equal lists. -/
def Memory.wf (m : Memory) : Bool := Memory.wfFrom 0 m

/-- MemRead(a, 1) (R11): the listed byte, or what an unlisted address reads as. -/
def Memory.read : Memory → Addr → Byte
  | [], _ => Config.unlistedByte
  | (k, b) :: m, a => if k = a.toNat then b else Memory.read m a

/-- m without its entry for a. -/
def Memory.erase (m : Memory) (a : Addr) : Memory := m.filter fun e => e.1 != a.toNat

/-- m with the entry (k, b) at its place by address. -/
def Memory.insert : Memory → Nat → Byte → Memory
  | [], k, b => [(k, b)]
  | e :: m, k, b => if k < e.1 then (k, b) :: e :: m else e :: Memory.insert m k b

/-- MemWrite(a, 1, b) (R11), keeping the canonical form. -/
def Memory.write (m : Memory) (a : Addr) (b : Byte) : Memory :=
  if b = Config.unlistedByte then Memory.erase m a else Memory.insert (Memory.erase m a) a.toNat b

/-- The writes of the list, one after another in list order. -/
def Memory.writeAll (m : Memory) (ws : List (Addr × Byte)) : Memory :=
  ws.foldl (fun m w => Memory.write m w.1 w.2) m

/-- The pixel value at a: the byte read, as u8. -/
def Memory.pixel (m : Memory) (a : Addr) : Int := (Memory.read m a).toNat

/-- The writes that store f r c at each pixel (r, c) of the W x H block at base with the given stride, in raster
order (R13). -/
def blockWrites (base stride : Word) (w h : Nat) (f : Nat → Nat → Int) : List (Addr × Byte) :=
  (List.range (w * h)).map fun k => (pixAddr base stride (k / w : Nat) (k % w : Nat), byte (f (k / w) (k % w)))

/-- s with the W x H block at base stored: MemWrite(base + r*stride + c, 1, f r c) in raster order. -/
def State.storeBlock (s : State) (base stride : Word) (w h : Nat) (f : Nat → Nat → Int) : State :=
  { s with mem := Memory.writeAll s.mem (blockWrites base stride w h f) }

/-- ADMIT(a) (R7, R64). -/
def State.admits (s : State) (a : Addr) : Bool :=
  s.params.admitted.any fun r => decide (r.base ≤ a.toNat) && decide (a.toNat < r.base + r.size)

/-- Every address of a footprint is admitted (R64). -/
def State.admitsAll (s : State) (footprint : List Addr) : Bool := footprint.all s.admits

/-- The end of a command that completes (R263): DONE is 1, BUSY is 0 again, CMD_ERR and ERR_CODE as they were. -/
def State.finish (s : State) : State := { s with done := true, busy := false }

/-- raise CmdError(code), and the end of the failed command (R11, R262, R263): DONE, CMD_ERR and ERR_CODE, BUSY 0
again, and no other state. -/
def State.fail (s : State) (e : CmdError) : State :=
  { s with done := true, busy := false, cmdErr := true, errCode := errCodeOf e }

/-- The end of a command begun in s (R262, R263): what it computed, or the failure of s itself, which makes every
failure precise. Both are next states. -/
def complete (s : State) (r : Except CmdError State) : Host.Outcome State Fault Refusal :=
  match r with
  | .ok t => .next t.finish
  | .error e => .next (s.fail e)

/-- A command whose footprint is checked before it does f (R64, R262). -/
def State.guarded (s : State) (footprint : List Addr) (f : State) : Except CmdError State :=
  if s.admitsAll footprint then .ok f else .error .memFault

/-- A write to STATUS (R26): DONE and CMD_ERR are cleared where the written bit is 1, ERR_CODE with CMD_ERR; every
other written bit is ignored. Writing 0x8 is the host's recovery from a failure (R264). -/
def State.writeStatus (s : State) (v : Word) : State :=
  { s with
    done := s.done && !v.getLsbD 1
    cmdErr := s.cmdErr && !v.getLsbD 3
    errCode := if v.getLsbD 3 then 0#4 else s.errCode }

/-- Reset (R290, R292), power-on and soft alike: every register of the window at its reset value; the parameters and
frame memory as they were. The host's own fields are not the hardware's and stay (log 8). -/
def State.resetRegisters (s : State) : State :=
  { State.resetWith s.params with mem := s.mem, host := s.host, hostData := s.hostData, freeCount := s.freeCount }

end Sys2Proof.Machine
end

