-- ==== Sys2Proof/Machine/Inter.lean ====
section
/-! DEFINITION. Motion-compensated prediction (45_inter_predict.md): SixTap (R204), Bilinear (R205), ChromaMV (R206),
the footprint (R208), and the command MC_PRED (R201). -/

namespace Sys2Proof.Machine

/-- ChromaMV(v) (R206). `v & ~7` is v minus its low three bits. -/
def chromaMv (fullPixel : Bool) (v : Int) : Int :=
  let v := v + (if 0 ≤ v then 1 else -1)
  let v := v.tdiv 2
  if fullPixel then v - v % 8 else v

/-- The sum of pixel * tap over the six taps, rounded and clamped (R204): x k is the pixel at offset k - 2. -/
def sixTap1 (taps : List Int) (x : Nat → Int) : Int :=
  clamp255 (shr (((List.range 6).map fun k => x k * taps.getD k 0).sum + 64) 7)

/-- The entry of row r and column c of a list of rows. -/
def at2 (rows : List (List Int)) (r c : Nat) : Int := (rows.getD r []).getD c 0

/-- The first pass of SixTap (R204): H + 5 rows, row r of the list being row r - 2 of T. The window w has its origin at
row -2, column -2 of the block. -/
def sixTapRows (w : List (List Int)) (wd ht fx : Nat) : List (List Int) :=
  (List.range (ht + 5)).map fun r => (List.range wd).map fun c => sixTap1 (sixTapTaps fx) fun k => at2 w r (c + k)

/-- The pixel P[r][c] of SixTap (R204) from the first pass. -/
def sixTapPixel (t : List (List Int)) (fy r c : Nat) : Int := sixTap1 (sixTapTaps fy) fun k => at2 t (r + k) c

/-- Two pixels weighted by bilinear taps and rounded (R205). -/
def bilinear1 (k : Nat) (x y : Int) : Int := shr (x * (bilinearTaps k).1 + y * (bilinearTaps k).2 + 64) 7

/-- The first pass of Bilinear (R205): H + 1 rows. The window w has its origin at row 0, column 0 of the block. -/
def bilinearRows (w : List (List Int)) (wd ht fx : Nat) : List (List Int) :=
  (List.range (ht + 1)).map fun r => (List.range wd).map fun c => bilinear1 fx (at2 w r c) (at2 w r (c + 1))

/-- The pixel P[r][c] of Bilinear (R205) from the first pass. -/
def bilinearPixel (t : List (List Int)) (fy r c : Nat) : Int := bilinear1 fy (at2 t r c) (at2 t (r + 1) c)

/-- The pixels of the window of `rows` x `cols` pixels whose origin is row r0, column c0 of the block at base. -/
def Memory.window (m : Memory) (base stride : Word) (r0 c0 : Int) (rows cols : Nat) : List (List Int) :=
  (List.range rows).map fun r => (List.range cols).map fun c =>
    Memory.pixel m (pixAddr base stride (r0 + (r : Nat)) (c0 + (c : Nat)))

/-- The three ways MC_PRED fills a block (R201). -/
inductive McPath where
  | copy | sixTap | bilinear
  deriving DecidableEq, Repr

/-- The operands of MC_PRED after the derivation of the vector (R201). -/
structure McOperands where
  /-- B, the integer position in the reference. -/
  base : Addr
  /-- W and H. -/
  width : Nat
  height : Nat
  /-- fx and fy. -/
  fx : Nat
  fy : Nat
  path : McPath
  deriving DecidableEq, Repr

/-- The motion vector of MC_PRED, (col, row), after ChromaMV where CHROMA = 1 (R201, R206). -/
def State.mcVector (s : State) (chroma : Bool) : Int × Int :=
  if chroma then (chromaMv s.fullPixel s.mvCol, chromaMv s.fullPixel s.mvRow) else (s.mvCol, s.mvRow)

/-- W, H, B, fx, fy and the path of MC_PRED (R201). -/
def State.mcOperands (s : State) (size : BitVec 2) (chroma : Bool) : McOperands :=
  let mv := s.mcVector chroma
  let fx := (mv.1 % 8).toNat
  let fy := (mv.2 % 8).toNat
  { base := pixAddr (s.arg 0) (s.arg 1) (shr mv.2 3) (shr mv.1 3)
    width := (mcSize size).1
    height := (mcSize size).2
    fx := fx
    fy := fy
    path := if fx = 0 ∧ fy = 0 then .copy else if s.interp then .bilinear else .sixTap }

/-- The reference bytes of MC_PRED (R208), with stride S. -/
def McOperands.referenceAddrs (o : McOperands) (stride : Word) : List Addr :=
  match o.path with
  | .copy => windowAddrs o.base stride 0 0 o.height o.width
  | .sixTap => windowAddrs o.base stride (-2) (-2) (o.height + 5) (o.width + 5)
  | .bilinear => windowAddrs o.base stride 0 0 (o.height + 1) (o.width + 1)

/-- Q of MC_PRED (R201): the pixel Q[r][c], from the memory at the command's start. -/
def McOperands.predict (o : McOperands) (m : Memory) (stride : Word) : Nat → Nat → Int :=
  match o.path with
  | .copy => let w := Memory.window m o.base stride 0 0 o.height o.width
    at2 w
  | .sixTap =>
    let t := sixTapRows (Memory.window m o.base stride (-2) (-2) (o.height + 5) (o.width + 5)) o.width o.height o.fx
    sixTapPixel t o.fy
  | .bilinear =>
    let t := bilinearRows (Memory.window m o.base stride 0 0 (o.height + 1) (o.width + 1)) o.width o.height o.fx
    bilinearPixel t o.fy

/-- The footprint of MC_PRED (R208). -/
def State.mcFootprint (s : State) (size : BitVec 2) (chroma : Bool) : List Addr :=
  let o := s.mcOperands size chroma
  blockAddrs (s.arg 3) (s.arg 4) o.width o.height ++ o.referenceAddrs (s.arg 1)

/-- MC_PRED (R201). -/
def execMcPred (size : BitVec 2) (chroma : Bool) (s : State) : Host.Outcome State Fault Refusal :=
  let o := s.mcOperands size chroma
  complete s
    (s.guarded (s.mcFootprint size chroma)
      (s.storeBlock (s.arg 3) (s.arg 4) o.width o.height (o.predict s.mem (s.arg 1))))

end Sys2Proof.Machine
end

