-- ==== Sys2Proof/Machine/Intra.lean ====
section
/-! DEFINITION. Intra prediction (44_intra_predict.md): Pred4 (R173 to R177), PredN (R179), and the commands INTRA_B4
(R182), INTRA_Y16 (R183), INTRA_UV8 (R184), ABOVE_RIGHT_COPY (R187). Every command reads its whole neighbourhood,
whatever its mode, and reads before it writes (R71, D25). -/

namespace Sys2Proof.Machine

/-- avg2 (R172). -/
def avg2 (a b : Int) : Int := shr (a + b + 1) 1

/-- avg3 (R172). -/
def avg3 (a b c : Int) : Int := shr (a + 2 * b + c + 2) 2

/-- Pred4(mode, a, l, t) (R173 to R177): the pixel P[r][c], for a = above[0..7], l = left[0..3] and t = top_left. -/
def pred4 (mode : SubMode) (a l : List Int) (t : Int) (r c : Nat) : Int :=
  let A := fun k => a.getD k 0
  let L := fun k => l.getD k 0
  let e := fun k => ([L 3, L 2, L 1, L 0, t, A 0, A 1, A 2, A 3] : List Int).getD k 0
  let pick := fun (p : List Int) => p.getD (4 * r + c) 0
  match mode with
  | .bDc => shr (A 0 + A 1 + A 2 + A 3 + L 0 + L 1 + L 2 + L 3 + 4) 3
  | .bTm => clamp255 (L r + A c - t)
  | .bVe => ([avg3 t (A 0) (A 1), avg3 (A 0) (A 1) (A 2), avg3 (A 1) (A 2) (A 3), avg3 (A 2) (A 3) (A 4)] : List Int).getD c 0
  | .bHe => ([avg3 t (L 0) (L 1), avg3 (L 0) (L 1) (L 2), avg3 (L 1) (L 2) (L 3), avg3 (L 2) (L 3) (L 3)] : List Int).getD r 0
  | .bLd => let k := r + c
    if k < 6 then avg3 (A k) (A (k + 1)) (A (k + 2)) else avg3 (A 6) (A 7) (A 7)
  | .bRd => let k := 3 - r + c
    avg3 (e k) (e (k + 1)) (e (k + 2))
  | .bVr => pick
    [avg2 (e 4) (e 5), avg2 (e 5) (e 6), avg2 (e 6) (e 7), avg2 (e 7) (e 8),
     avg3 (e 3) (e 4) (e 5), avg3 (e 4) (e 5) (e 6), avg3 (e 5) (e 6) (e 7), avg3 (e 6) (e 7) (e 8),
     avg3 (e 2) (e 3) (e 4), avg2 (e 4) (e 5), avg2 (e 5) (e 6), avg2 (e 6) (e 7),
     avg3 (e 1) (e 2) (e 3), avg3 (e 3) (e 4) (e 5), avg3 (e 4) (e 5) (e 6), avg3 (e 5) (e 6) (e 7)]
  | .bVl => pick
    [avg2 (A 0) (A 1), avg2 (A 1) (A 2), avg2 (A 2) (A 3), avg2 (A 3) (A 4),
     avg3 (A 0) (A 1) (A 2), avg3 (A 1) (A 2) (A 3), avg3 (A 2) (A 3) (A 4), avg3 (A 3) (A 4) (A 5),
     avg2 (A 1) (A 2), avg2 (A 2) (A 3), avg2 (A 3) (A 4), avg3 (A 4) (A 5) (A 6),
     avg3 (A 1) (A 2) (A 3), avg3 (A 2) (A 3) (A 4), avg3 (A 3) (A 4) (A 5), avg3 (A 5) (A 6) (A 7)]
  | .bHd => pick
    [avg2 (e 3) (e 4), avg3 (e 3) (e 4) (e 5), avg3 (e 4) (e 5) (e 6), avg3 (e 5) (e 6) (e 7),
     avg2 (e 2) (e 3), avg3 (e 2) (e 3) (e 4), avg2 (e 3) (e 4), avg3 (e 3) (e 4) (e 5),
     avg2 (e 1) (e 2), avg3 (e 1) (e 2) (e 3), avg2 (e 2) (e 3), avg3 (e 2) (e 3) (e 4),
     avg2 (e 0) (e 1), avg3 (e 0) (e 1) (e 2), avg2 (e 1) (e 2), avg3 (e 1) (e 2) (e 3)]
  | .bHu => pick
    [avg2 (L 0) (L 1), avg3 (L 0) (L 1) (L 2), avg2 (L 1) (L 2), avg3 (L 1) (L 2) (L 3),
     avg2 (L 1) (L 2), avg3 (L 1) (L 2) (L 3), avg2 (L 2) (L 3), avg3 (L 2) (L 3) (L 3),
     avg2 (L 2) (L 3), avg3 (L 2) (L 3) (L 3), L 3, L 3,
     L 3, L 3, L 3, L 3]

/-- The value of every pixel of mode DC in PredN (R179). -/
def predDc (n : Nat) (a l : List Int) (up left : Bool) : Int :=
  if !up && !left then 128
  else
    let sum := (if up then a.sum else 0) + (if left then l.sum else 0)
    let sh := (if n = 16 then 3 else 2) + (if up then 1 else 0) + (if left then 1 else 0)
    shr (sum + 2 ^ (sh - 1)) sh

/-- PredN(n, mode, a, l, t, up, left) (R179): the pixel P[r][c], for a = above[0..n-1], l = left[0..n-1] and
t = top_left. -/
def predN (n : Nat) (mode : BlockMode) (a l : List Int) (t : Int) (up left : Bool) (r c : Nat) : Int :=
  match mode with
  | .dc => predDc n a l up left
  | .v => a.getD c 0
  | .h => l.getD r 0
  | .tm => clamp255 (l.getD r 0 + a.getD c 0 - t)

/-- The above row of R170 with the corner: A - 1, A, ..., A + na - 1. -/
def State.aboveAddrs (s : State) (na : Nat) : List Addr := rowAddrs (s.arg 0) (-1) (na + 1)

/-- The left column of R170: L + r*SL for r = 0..n-1. -/
def State.leftAddrs (s : State) (n : Nat) : List Addr := colAddrs (s.arg 1) (s.arg 2) n

/-- top_left of R170. -/
def State.topLeft (s : State) : Int := Memory.pixel s.mem (pixAddr (s.arg 0) 0#32 0 (-1))

/-- above[0..na-1] of R170. -/
def State.above (s : State) (na : Nat) : List Int := (rowAddrs (s.arg 0) 0 na).map (Memory.pixel s.mem)

/-- left[0..n-1] of R170. -/
def State.left (s : State) (n : Nat) : List Int := (s.leftAddrs n).map (Memory.pixel s.mem)

/-- The footprint of a prediction of an n x n block from na above pixels (R182, R183, R184). -/
def State.intraFootprint (s : State) (na n : Nat) : List Addr :=
  s.aboveAddrs na ++ s.leftAddrs n ++ blockAddrs (s.arg 3) (s.arg 4) n n

/-- A whole-block prediction of n x n pixels (R183, R184). -/
def State.intraBlock (s : State) (n : Nat) (mode : BitVec 4) (up left : Bool) : Except CmdError State :=
  match blockModeOf mode with
  | none => .error .illegalMode
  | some md =>
    let a := s.above n
    let l := s.left n
    let t := s.topLeft
    s.guarded (s.intraFootprint n n) (s.storeBlock (s.arg 3) (s.arg 4) n n (predN n md a l t up left))

/-- INTRA_B4 (R182). -/
def execIntraB4 (mode : BitVec 4) (s : State) : Host.Outcome State Fault Refusal :=
  complete s
    (match subModeOf mode with
     | none => .error .illegalMode
     | some md =>
       let a := s.above 8
       let l := s.left 4
       let t := s.topLeft
       s.guarded (s.intraFootprint 8 4) (s.storeBlock (s.arg 3) (s.arg 4) 4 4 (pred4 md a l t)))

/-- INTRA_Y16 (R183). -/
def execIntraY16 (mode : BitVec 4) (up left : Bool) (s : State) : Host.Outcome State Fault Refusal :=
  complete s (s.intraBlock 16 mode up left)

/-- INTRA_UV8 (R184). -/
def execIntraUv8 (mode : BitVec 4) (up left : Bool) (s : State) : Host.Outcome State Fault Refusal :=
  complete s (s.intraBlock 8 mode up left)

/-- The addresses D - S + 16 + j that ABOVE_RIGHT_COPY reads (R187). -/
def State.aboveRightSource (s : State) : List Addr :=
  (List.range 4).map fun j => pixAddr (s.arg 0) (s.arg 1) (-1) (16 + (j : Nat))

/-- The address D + (4k - 1)*S + 16 + j that ABOVE_RIGHT_COPY writes (R187). -/
def State.aboveRightDest (s : State) (k j : Nat) : Addr :=
  pixAddr (s.arg 0) (s.arg 1) (4 * (k : Int) - 1) (16 + (j : Int))

/-- The (k, j) of ABOVE_RIGHT_COPY's writes in order: k = 1..3, j = 0..3 (R187). -/
def aboveRightIndices : List (Nat × Nat) := (List.range 12).map fun n => (n / 4 + 1, n % 4)

/-- The writes of ABOVE_RIGHT_COPY in order (R187), from the four bytes v read before them. -/
def State.aboveRightWrites (s : State) (v : List Byte) : List (Addr × Byte) :=
  aboveRightIndices.map fun kj => (s.aboveRightDest kj.1 kj.2, v.getD kj.2 0#8)

/-- The footprint of ABOVE_RIGHT_COPY (R187). -/
def State.aboveRightFootprint (s : State) : List Addr :=
  s.aboveRightSource ++ aboveRightIndices.map fun kj => s.aboveRightDest kj.1 kj.2

/-- ABOVE_RIGHT_COPY (R187). -/
def execAboveRightCopy (s : State) : Host.Outcome State Fault Refusal :=
  let v := s.aboveRightSource.map (Memory.read s.mem)
  complete s (s.guarded s.aboveRightFootprint { s with mem := Memory.writeAll s.mem (s.aboveRightWrites v) })

end Sys2Proof.Machine
end

