-- ==== Sys2Proof/Machine/LoopFilter.lean ====
section
/-! DEFINITION. The loop filter (46_loop_filter.md): the pixel filters (R220 to R224), edges (R225 to R227), and the
commands LF_EDGE (R228), LF_MB (R230), LF_FRAME_INIT (R240, R241). A mask of 0 or -1 is a Bool: `v & mask` is v or 0. -/

namespace Sys2Proof.Machine

/-- x^ (R220): x as u8, read as sext_8(x ^ 0x80). -/
def toSigned (x : Byte) : Int := (x ^^^ 0x80#8).toInt

/-- s2u(y) (R220). -/
def toUnsigned (y : Int) : Byte := BitVec.ofInt 8 y ^^^ 0x80#8

/-- abs(a - b) of two u8 (R221). -/
def absDiff (a b : Byte) : Nat := ((a.toNat : Int) - (b.toNat : Int)).natAbs

/-- The edge test abs(p0 - q0)*2 + abs(p1 - q1)/2 <= blimit (R221, R224). DEDUCED (log 18): it is not passed over at
blimit = 255, where a corner case of R228 says that every position is filtered. -/
def edgeTest (blimit : Nat) (p1 p0 q0 q1 : Byte) : Bool := decide (absDiff p0 q0 * 2 + absDiff p1 q1 / 2 ≤ blimit)

/-- FilterMask(limit, blimit, p3..q3) (R221): true is -1. -/
def filterMask (limit blimit : Nat) (p3 p2 p1 p0 q0 q1 q2 q3 : Byte) : Bool :=
  decide (absDiff p3 p2 ≤ limit) && decide (absDiff p2 p1 ≤ limit) && decide (absDiff p1 p0 ≤ limit) &&
    decide (absDiff q1 q0 ≤ limit) && decide (absDiff q2 q1 ≤ limit) && decide (absDiff q3 q2 ≤ limit) &&
    edgeTest blimit p1 p0 q0 q1

/-- HevMask(thresh, p1, p0, q0, q1) (R221): true is -1. -/
def hevMask (thresh : Nat) (p1 p0 q0 q1 : Byte) : Bool :=
  decide (thresh < absDiff p1 p0) || decide (thresh < absDiff q1 q0)

/-- v & mask (R220). -/
def masked (mask : Bool) (v : Int) : Int := if mask then v else 0

/-- InnerFilter(mask, hev, p1, p0, q0, q1) (R222): the new p1, p0, q0, q1. -/
def innerFilter (mask hev : Bool) (p1 p0 q0 q1 : Byte) : Byte × Byte × Byte × Byte :=
  let f := masked hev (sclamp (toSigned p1 - toSigned q1))
  let f := masked mask (sclamp (f + 3 * (toSigned q0 - toSigned p0)))
  let f1 := shr (sclamp (f + 4)) 3
  let f2 := shr (sclamp (f + 3)) 3
  let a := masked (!hev) (shr (f1 + 1) 1)
  (toUnsigned (sclamp (toSigned p1 + a)), toUnsigned (sclamp (toSigned p0 + f2)),
    toUnsigned (sclamp (toSigned q0 - f1)), toUnsigned (sclamp (toSigned q1 - a)))

/-- MbFilter(mask, hev, p2, p1, p0, q0, q1, q2) (R223): the new p2, p1, p0, q0, q1, q2. -/
def mbFilter (mask hev : Bool) (p2 p1 p0 q0 q1 q2 : Byte) : Byte × Byte × Byte × Byte × Byte × Byte :=
  let f := sclamp (toSigned p1 - toSigned q1)
  let f := masked mask (sclamp (f + 3 * (toSigned q0 - toSigned p0)))
  let g := masked hev f
  let f1 := shr (sclamp (g + 4)) 3
  let f2 := shr (sclamp (g + 3)) 3
  let qs0 := sclamp (toSigned q0 - f1)
  let ps0 := sclamp (toSigned p0 + f2)
  let w := masked (!hev) f
  let u0 := sclamp (shr (63 + w * 27) 7)
  let u1 := sclamp (shr (63 + w * 18) 7)
  let u2 := sclamp (shr (63 + w * 9) 7)
  (toUnsigned (sclamp (toSigned p2 + u2)), toUnsigned (sclamp (toSigned p1 + u1)), toUnsigned (sclamp (ps0 + u0)),
    toUnsigned (sclamp (qs0 - u0)), toUnsigned (sclamp (toSigned q1 - u1)), toUnsigned (sclamp (toSigned q2 - u2)))

/-- SimpleFilter(blimit, p1, p0, q0, q1) (R224): the new p0, q0. -/
def simpleFilter (blimit : Nat) (p1 p0 q0 q1 : Byte) : Byte × Byte :=
  let mask := edgeTest blimit p1 p0 q0 q1
  let f := sclamp (toSigned p1 - toSigned q1)
  let f := masked mask (sclamp (f + 3 * (toSigned q0 - toSigned p0)))
  let f1 := shr (sclamp (f + 4)) 3
  let f2 := shr (sclamp (f + 3)) 3
  (toUnsigned (sclamp (toSigned p0 + f2)), toUnsigned (sclamp (toSigned q0 - f1)))

/-- An edge with its strengths: the arguments of Edge(dir, kind, s, P, n, limit, blimit, thresh) (R227). -/
structure EdgeJob where
  dir : EdgeDir
  kind : EdgeKind
  /-- s, the first pixel below (h) or right of (v) the edge (R225). -/
  start : Word
  /-- P (R225). -/
  pitch : Word
  /-- n positions. -/
  count : Nat
  limit : Nat
  blimit : Nat
  thresh : Nat
  deriving DecidableEq, Repr

/-- X(i, k) (R225): the address of the pixel of position i at offset k. -/
def EdgeJob.addr (e : EdgeJob) (i : Nat) (k : Int) : Addr :=
  match e.dir with
  | .h => pixAddr e.start e.pitch k (i : Nat)
  | .v => pixAddr e.start e.pitch (i : Nat) k

/-- The read range of a kind of edge (R226), as offsets in ascending order. -/
def readOffsets : EdgeKind → List Int
  | .mb | .inner => [-4, -3, -2, -1, 0, 1, 2, 3]
  | .simple => [-2, -1, 0, 1]

/-- The write range of a kind of edge (R226), as offsets in ascending order. -/
def writeOffsets : EdgeKind → List Int
  | .mb => [-3, -2, -1, 0, 1, 2]
  | .inner => [-2, -1, 0, 1]
  | .simple => [-1, 0]

/-- The new pixels of one position, for the offsets of the write range in order (R227), from x k, the pixel read at
offset k. -/
def EdgeJob.filter (e : EdgeJob) (x : Int → Byte) : List Byte :=
  match e.kind with
  | .mb =>
    let m := filterMask e.limit e.blimit (x (-4)) (x (-3)) (x (-2)) (x (-1)) (x 0) (x 1) (x 2) (x 3)
    let h := hevMask e.thresh (x (-2)) (x (-1)) (x 0) (x 1)
    let y := mbFilter m h (x (-3)) (x (-2)) (x (-1)) (x 0) (x 1) (x 2)
    [y.1, y.2.1, y.2.2.1, y.2.2.2.1, y.2.2.2.2.1, y.2.2.2.2.2]
  | .inner =>
    let m := filterMask e.limit e.blimit (x (-4)) (x (-3)) (x (-2)) (x (-1)) (x 0) (x 1) (x 2) (x 3)
    let h := hevMask e.thresh (x (-2)) (x (-1)) (x 0) (x 1)
    let y := innerFilter m h (x (-2)) (x (-1)) (x 0) (x 1)
    [y.1, y.2.1, y.2.2.1, y.2.2.2]
  | .simple =>
    let y := simpleFilter e.blimit (x (-2)) (x (-1)) (x 0) (x 1)
    [y.1, y.2]

/-- The writes of position i (R227), computed from the memory m before them. -/
def EdgeJob.positionWrites (e : EdgeJob) (m : Memory) (i : Nat) : List (Addr × Byte) :=
  ((writeOffsets e.kind).map (e.addr i)).zip (e.filter fun k => Memory.read m (e.addr i k))

/-- Edge(...) (R227): the positions one after another, each seeing the writes of those before it. -/
def EdgeJob.run (e : EdgeJob) (m : Memory) : Memory :=
  (List.range e.count).foldl (fun m i => Memory.writeAll m (e.positionWrites m i)) m

/-- The addresses an edge reads or writes (R226); the write range lies inside the read range. -/
def EdgeJob.footprint (e : EdgeJob) : List Addr :=
  (List.range e.count).flatMap fun i => (readOffsets e.kind).map (e.addr i)

/-- The addresses an edge writes (R226). -/
def EdgeJob.written (e : EdgeJob) : List Addr :=
  (List.range e.count).flatMap fun i => (writeOffsets e.kind).map (e.addr i)

/-- The edge of LF_EDGE (R228); none for the reserved KIND 3. -/
def State.lfEdgeJob (s : State) (dir : Bool) (kind : BitVec 2) (cnt : Bool) : Option EdgeJob :=
  (edgeKindOf kind).map fun k =>
    { dir := edgeDirOf dir
      kind := k
      start := s.arg 0
      pitch := s.arg 1
      count := if cnt then 16 else 8
      limit := (byteLane (s.arg 2) 0).toNat
      blimit := (byteLane (s.arg 2) 1).toNat
      thresh := (byteLane (s.arg 2) 2).toNat }

/-- LF_EDGE (R228). -/
def execLfEdge (dir : Bool) (kind : BitVec 2) (cnt : Bool) (s : State) : Host.Outcome State Fault Refusal :=
  complete s
    (match s.lfEdgeJob dir kind cnt with
     | none => .error .illegalMode
     | some e => s.guarded e.footprint { s with mem := e.run s.mem })

/-- The edges of the normal variant of LF_MB (R230) for level lvl, in order. -/
def State.normalEdges (s : State) (lvl : Nat) (inner top leftMb : Bool) : List EdgeJob :=
  let t := hevThr s.frameType lvl
  let y := s.arg 0
  let u := s.arg 1
  let v := s.arg 2
  let ys := s.arg 3
  let cs := s.arg 4
  let edge := fun (dir : EdgeDir) (kind : EdgeKind) (start pitch : Word) (n : Nat) =>
    ({ dir := dir, kind := kind, start := start, pitch := pitch, count := n, limit := s.limAt lvl,
       blimit := (match kind with | .mb => s.mblimAt lvl | _ => s.blimAt lvl), thresh := t } : EdgeJob)
  (if leftMb then [edge .v .mb y ys 16, edge .v .mb u cs 8, edge .v .mb v cs 8] else []) ++
  (if inner then
    [edge .v .inner (pixAddr y ys 0 4) ys 16, edge .v .inner (pixAddr y ys 0 8) ys 16,
     edge .v .inner (pixAddr y ys 0 12) ys 16, edge .v .inner (pixAddr u cs 0 4) cs 8,
     edge .v .inner (pixAddr v cs 0 4) cs 8] else []) ++
  (if top then [edge .h .mb y ys 16, edge .h .mb u cs 8, edge .h .mb v cs 8] else []) ++
  (if inner then
    [edge .h .inner (pixAddr y ys 4 0) ys 16, edge .h .inner (pixAddr y ys 8 0) ys 16,
     edge .h .inner (pixAddr y ys 12 0) ys 16, edge .h .inner (pixAddr u cs 4 0) cs 8,
     edge .h .inner (pixAddr v cs 4 0) cs 8] else [])

/-- The edges of the simple variant of LF_MB (R230) for level lvl, in order: luma only. -/
def State.simpleEdges (s : State) (lvl : Nat) (inner top leftMb : Bool) : List EdgeJob :=
  let y := s.arg 0
  let ys := s.arg 3
  let edge := fun (dir : EdgeDir) (start : Word) (blimit : Nat) =>
    ({ dir := dir, kind := .simple, start := start, pitch := ys, count := 16, limit := 0, blimit := blimit,
       thresh := 0 } : EdgeJob)
  let ms := s.mblimAt lvl
  let bs := s.blimAt lvl
  (if leftMb then [edge .v y ms] else []) ++
  (if inner then [edge .v (pixAddr y ys 0 4) bs, edge .v (pixAddr y ys 0 8) bs, edge .v (pixAddr y ys 0 12) bs]
   else []) ++
  (if top then [edge .h y ms] else []) ++
  (if inner then [edge .h (pixAddr y ys 4 0) bs, edge .h (pixAddr y ys 8 0) bs, edge .h (pixAddr y ys 12 0) bs]
   else [])

/-- `inner` of R230: the macroblock's interior edges are filtered. -/
def innerFiltered (mode : MbMode) (skip : Bool) : Bool :=
  !(skip && decide (mode ≠ .bPred) && decide (mode ≠ .splitMv))

/-- The list E of R230 for a macroblock of level lvl: empty at level 0. -/
def State.lfMbEdges (s : State) (lvl : Nat) (mode : MbMode) (skip top leftMb : Bool) : List EdgeJob :=
  if lvl = 0 then []
  else if s.lfType then s.simpleEdges lvl (innerFiltered mode skip) top leftMb
  else s.normalEdges lvl (innerFiltered mode skip) top leftMb

/-- The edges of a list filtered in list order (R230). -/
def runEdges (es : List EdgeJob) (m : Memory) : Memory := es.foldl (fun m e => e.run m) m

/-- LF_MB (R230). At level 0 the list is empty: no byte is read or written and ADMIT is not consulted. -/
def execLfMb (seg ref : BitVec 2) (mode : BitVec 4) (skip top leftMb : Bool) (s : State) :
    Host.Outcome State Fault Refusal :=
  complete s
    (match mbModeOf mode with
     | none => .error .illegalMode
     | some md =>
       if isIntraMode md != decide (ref = 0#2) then .error .badParam
       else
         let es := s.lfMbEdges (s.lvlAt seg.toNat ref.toNat (modeClass md)) md skip top leftMb
         s.guarded (es.flatMap EdgeJob.footprint) { s with mem := runEdges es s.mem })

/-- ls of R241: the level of segment seg before reference and mode deltas. -/
def State.segLevel (s : State) (seg : Nat) : Int :=
  if s.segEn then c63 (if s.segAbs then s.segLf seg else s.lfLevel + s.segLf seg) else s.lfLevel

/-- LVL[seg][f][m] of R241. -/
def State.levelOf (s : State) (seg f m : Nat) : Int :=
  let ls := s.segLevel seg
  if !s.deltaEn then ls
  else if f = 0 then
    let lr := ls + s.refDelta 0
    if m = 0 then c63 (lr + s.modeDelta 0) else if m = 1 then c63 lr else 0
  else if m = 0 then 0 else c63 (ls + s.refDelta f + s.modeDelta m)

/-- The limit tables for the sharpness of CTRL, with LAST_SHARP (R240). -/
def State.rebuildLimits (s : State) : State :=
  { s with
    lim := limTable s.sharpness.toNat
    blim := blimTable s.sharpness.toNat
    mblim := mblimTable s.sharpness.toNat
    lastSharp := s.sharpness }

/-- LF_FRAME_INIT (R240): the limit tables when the sharpness changed, LVL always. -/
def execLfFrameInit (s : State) : Host.Outcome State Fault Refusal :=
  let t := if s.sharpness ≠ s.lastSharp then s.rebuildLimits else s
  complete s (.ok { t with lvl := tabulate 64 fun n => byte (s.levelOf (n / 16) (n / 4 % 4) (n % 4)) })

end Sys2Proof.Machine
end

