-- ==== Sys2Proof/Machine/System.lean ====
section
/-! DEFINITION. The command without an operation (rule R275 of 60_exceptions.md). -/

namespace Sys2Proof.Machine

/-- NOP (R275): the command ends. -/
def execNop (s : State) : Host.Outcome State Fault Refusal := complete s (.ok s)

end Sys2Proof.Machine
end

