-- ==== Sys2Proof/Machine/Transform.lean ====
section
/-! DEFINITION. The dequantizer and the inverse transforms (43_transform.md): InvDCT (R141), AddBlock (R146), and the
commands DEQUANT (R142), IWHT (R143), IWHT_DC (R144), IWHT_AUTO (R145), IDCT_ADD (R147), IDCT_DC_ADD (R148),
IDCT_AUTO_ADD (R149), COEF_CLEAR (R150). All arithmetic is exact; stores truncate to 16 bits. -/

namespace Sys2Proof.Machine

/-- Output j of the one-dimensional inverse DCT of R141 on i0..i3: a1 + d1, b1 + c1, b1 - c1, a1 - d1. -/
def dct1 (i0 i1 i2 i3 : Int) (j : Nat) : Int :=
  let a1 := i0 + i2
  let b1 := i0 - i2
  let c1 := shr (i1 * 35468) 16 - (i3 + shr (i3 * 20091) 16)
  let d1 := (i1 + shr (i1 * 20091) 16) + shr (i3 * 35468) 16
  match j with
  | 0 => a1 + d1
  | 1 => b1 + c1
  | 2 => b1 - c1
  | _ => a1 - d1

/-- T of R141: the vertical pass, in raster order. -/
def idctVertical (x : List Int) : List Int :=
  (List.range 16).map fun k =>
    let c := k % 4
    trunc16 (dct1 (x.getD c 0) (x.getD (4 + c) 0) (x.getD (8 + c) 0) (x.getD (12 + c) 0) (k / 4))

/-- Y of R141 from T: the horizontal pass, in raster order. -/
def idctHorizontal (t : List Int) : List Int :=
  (List.range 16).map fun k =>
    let r := 4 * (k / 4)
    trunc16 (shr (dct1 (t.getD r 0) (t.getD (r + 1) 0) (t.getD (r + 2) 0) (t.getD (r + 3) 0) (k % 4) + 4) 3)

/-- InvDCT(X) (R141). -/
def invDct (x : List Int) : List Int := idctHorizontal (idctVertical x)

/-- Output j of the one-dimensional Walsh-Hadamard butterfly of R143 on w0..w3: a1 + b1, c1 + d1, a1 - b1, d1 - c1. -/
def wht1 (w0 w1 w2 w3 : Int) (j : Nat) : Int :=
  let a1 := w0 + w3
  let b1 := w1 + w2
  let c1 := w1 - w2
  let d1 := w0 - w3
  match j with
  | 0 => a1 + b1
  | 1 => c1 + d1
  | 2 => a1 - b1
  | _ => d1 - c1

/-- T of R143: the vertical pass, in raster order. -/
def whtVertical (w : List Int) : List Int :=
  (List.range 16).map fun k =>
    let c := k % 4
    trunc16 (wht1 (w.getD c 0) (w.getD (4 + c) 0) (w.getD (8 + c) 0) (w.getD (12 + c) 0) (k / 4))

/-- O of R143 from T: the horizontal pass, in raster order. -/
def whtHorizontal (t : List Int) : List Int :=
  (List.range 16).map fun k =>
    let r := 4 * (k / 4)
    trunc16 (shr (wht1 (t.getD r 0) (t.getD (r + 1) 0) (t.getD (r + 2) 0) (t.getD (r + 3) 0) (k % 4) + 3) 3)

/-- The 16 outputs O of the full inverse WHT (R143). -/
def invWht (w : List Int) : List Int := whtHorizontal (whtVertical w)

/-- a1 of the DC-only inverse WHT (R144). -/
def invWhtDc (dc : Int) : Int := trunc16 (shr (dc + 3) 3)

/-- s with COEF[k][0] <- o k for k = 0..15 and nothing else (R143, R144). -/
def State.setLumaDcs (s : State) (o : Nat → Int) : State :=
  { s with coef := tabulate 400 fun h => if h % 16 = 0 ∧ h / 16 < 16 then half (o (h / 16)) else s.coef.getD h 0#16 }

/-- The effect of IWHT (R143). -/
def State.iwht (s : State) : State :=
  let o := invWht (s.coefBlock 24)
  s.setLumaDcs fun k => o.getD k 0

/-- The effect of IWHT_DC (R144). -/
def State.iwhtDc (s : State) : State := s.setLumaDcs fun _ => invWhtDc (s.coefAt 24 0)

/-- The footprint of AddBlock with the operands of IDCT_ADD (R146, R147). -/
def State.addBlockFootprint (s : State) : List Addr :=
  blockAddrs (s.arg 0) (s.arg 1) 4 4 ++ blockAddrs (s.arg 2) (s.arg 3) 4 4

/-- AddBlock(Y, ARG0, ARG1, ARG2, ARG3) (R146): every prediction byte is read before the first write. -/
def State.addBlock (s : State) (y : List Int) : State :=
  let pr := (blockAddrs (s.arg 0) (s.arg 1) 4 4).map (Memory.pixel s.mem)
  s.storeBlock (s.arg 2) (s.arg 3) 4 4 fun r c => clamp255 (y.getD (4 * r + c) 0 + pr.getD (4 * r + c) 0)

/-- IDCT_ADD on block b after the check of BLK (R147). -/
def State.idctAdd (s : State) (b : Nat) : Except CmdError State :=
  s.guarded s.addBlockFootprint (s.addBlock (invDct (s.coefBlock b)))

/-- The residual of IDCT_DC_ADD (R148): (dc + 4) >> 3 in every position, not truncated. -/
def dcResidual (dc : Int) : List Int := List.replicate 16 (shr (dc + 4) 3)

/-- IDCT_DC_ADD on block b after the check of BLK (R148). -/
def State.idctDcAdd (s : State) (b : Nat) : Except CmdError State :=
  s.guarded s.addBlockFootprint (s.addBlock (dcResidual (s.coefAt b 0)))

/-- DEQUANT (R142). -/
def execDequant (blk : BitVec 5) (s : State) : Host.Outcome State Fault Refusal :=
  let b := blk.toNat
  complete s
    (if 24 < b then .error .badParam
     else .ok { s with coef := tabulate 400 fun h =>
       if h / 16 = b then half (s.coefAt b (h % 16) * (if h % 16 = 0 then s.dqDc else s.dqAc))
       else s.coef.getD h 0#16 })

/-- IWHT (R143). -/
def execIwht (s : State) : Host.Outcome State Fault Refusal := complete s (.ok s.iwht)

/-- IWHT_DC (R144). -/
def execIwhtDc (s : State) : Host.Outcome State Fault Refusal := complete s (.ok s.iwhtDc)

/-- IWHT_AUTO (R145). -/
def execIwhtAuto (s : State) : Host.Outcome State Fault Refusal :=
  complete s (.ok (if 1 < s.eobAt 24 then s.iwht else s.iwhtDc))

/-- IDCT_ADD (R147). -/
def execIdctAdd (blk : BitVec 5) (s : State) : Host.Outcome State Fault Refusal :=
  complete s (if 23 < blk.toNat then .error .badParam else s.idctAdd blk.toNat)

/-- IDCT_DC_ADD (R148). -/
def execIdctDcAdd (blk : BitVec 5) (s : State) : Host.Outcome State Fault Refusal :=
  complete s (if 23 < blk.toNat then .error .badParam else s.idctDcAdd blk.toNat)

/-- IDCT_AUTO_ADD (R149). -/
def execIdctAutoAdd (blk : BitVec 5) (s : State) : Host.Outcome State Fault Refusal :=
  complete s
    (if 23 < blk.toNat then .error .badParam
     else if 1 < s.eobAt blk.toNat then s.idctAdd blk.toNat else s.idctDcAdd blk.toNat)

/-- COEF_CLEAR (R150). -/
def execCoefClear (s : State) : Host.Outcome State Fault Refusal :=
  complete s (.ok { s with eob := Vector.replicate 25 0#8, coef := Vector.replicate 400 0#16 })

end Sys2Proof.Machine
end

