-- ==== Sys2Proof/Machine/BoolDecode.lean ====
section
/-! DEFINITION. The boolean entropy decoder (41_bool_decoder.md): Refill (R102), DecodeBool (R105) and the commands
BD_INIT (R101), BD_BOOL (R103), BD_LITERAL (R104). The procedures work on the decoder's registers and read memory.
DEDUCED (log 12): in decoder states that no BD_INIT and no decision leaves (BD_RANGE = 0, BD_POS above BD_END) they
follow the pseudocode on integers and truncate on every store (R8). -/

namespace Sys2Proof.Machine

/-- BD_VALUE with the byte b set in at bit position shift: BD_VALUE | (zext(b) << shift), stored in VS bits (R102). -/
def orByteAt (vs : ValueSize) (v : BitVec 64) (b : Byte) (shift : Int) : BitVec 64 :=
  v ||| BitVec.ofNat 64 (b.toNat * 2 ^ shift.toNat % 2 ^ vsBits vs)

/-- n iterations of Refill's loop (R102), the first at bit position shift. -/
def loadBytes (vs : ValueSize) (m : Memory) : Nat → Int → BoolDecoder → BoolDecoder
  | 0, _, bd => bd
  | n + 1, shift, bd =>
    loadBytes vs m n (shift - 8)
      { bd with
        count := BitVec.ofInt 32 (bd.count.toInt + 8)
        value := orByteAt vs bd.value (Memory.read m (bd.pos.setWidth 32)) shift
        pos := bd.pos + 1#33 }

/-- How often `while shift >= loop_end`, with shift falling by 8, runs (R102). -/
def loadCount (shift loopEnd : Int) : Nat := if loopEnd ≤ shift then ((shift - loopEnd) / 8 + 1).toNat else 0

/-- shift of Refill: the bit position for the next byte (R102). -/
def refillShift (vs : ValueSize) (bd : BoolDecoder) : Int := (vsBits vs : Int) - 8 - (bd.count.toInt + 8)

/-- bits_left of Refill (R102). -/
def refillBitsLeft (bd : BoolDecoder) : Int := ((bd.stop.toNat : Int) - (bd.pos.toNat : Int)) * 8

/-- Refill() (R102). DEDUCED (log 17): for a buffer of exactly 8 bytes with VS = 64 it adds the sentinel, against a corner
case of R101. -/
def refill (vs : ValueSize) (m : Memory) (bd : BoolDecoder) : BoolDecoder :=
  let shift := refillShift vs bd
  let bitsLeft := refillBitsLeft bd
  let x := shift + 8 - bitsLeft
  let loopEnd : Int := if 0 ≤ x then x else 0
  let bd := if 0 ≤ x then { bd with count := BitVec.ofInt 32 (bd.count.toInt + Config.lotsOfBits) } else bd
  if x < 0 ∨ bitsLeft ≠ 0 then loadBytes vs m (loadCount shift loopEnd) shift bd else bd

/-- split of DecodeBool (R105), for a range and a probability p of a 0. -/
def splitOf (range : Byte) (p : Byte) : Int := 1 + shr (((range.toNat : Int) - 1) * (p.toNat : Int)) 8

/-- What DecodeBool does after the refill (R105): the decision and the normalisation. -/
def decide1 (vs : ValueSize) (split : Int) (bd : BoolDecoder) : Nat × BoolDecoder :=
  let bigsplit : Int := split * 2 ^ (vsBits vs - 8)
  let bit := decide (bigsplit ≤ (bd.value.toNat : Int))
  let r : Int := if bit then (bd.range.toNat : Int) - split else split
  let v : Int := if bit then (bd.value.toNat : Int) - bigsplit else (bd.value.toNat : Int)
  let sh := norm r.toNat
  (if bit then 1 else 0,
    { bd with
      range := BitVec.ofInt 8 (r * 2 ^ sh)
      value := BitVec.ofInt 64 (v * 2 ^ sh % 2 ^ vsBits vs)
      count := BitVec.ofInt 32 (bd.count.toInt - (sh : Int)) })

/-- DecodeBool(p) (R105): the decision, 0 or 1, and the decoder after it. The split comes from BD_RANGE before the
refill, which does not change BD_RANGE. -/
def decodeBool (vs : ValueSize) (m : Memory) (p : Byte) (bd : BoolDecoder) : Nat × BoolDecoder :=
  decide1 vs (splitOf bd.range p) (if bd.count.toInt < 0 then refill vs m bd else bd)

/-- k decisions of probability 128, most significant first (R104). -/
def decodeLiteral (vs : ValueSize) (m : Memory) : Nat → BoolDecoder → Nat × BoolDecoder
  | 0, bd => (0, bd)
  | k + 1, bd =>
    let d := decodeBool vs m 128#8 bd
    let z := decodeLiteral vs m k d.2
    (d.1 * 2 ^ k + z.1, z.2)

/-- The decoder right after BD_INIT's register writes, before its refill (R101), for the buffer of n bytes at a. -/
def bdStart (a n : Nat) : BoolDecoder :=
  { value := 0#64, count := BitVec.ofInt 32 (-8), range := 255#8, pos := BitVec.ofNat 33 a, stop := BitVec.ofNat 33 (a + n) }

/-- The footprint of BD_INIT (R76): a, a + 1, ..., a + n - 1. -/
def streamAddrs (a : Word) (n : Nat) : List Addr := rowAddrs a 0 n

/-- BD_INIT (R101): MEM_FAULT when the buffer wraps or a byte of it is not admitted. -/
def execBdInit (s : State) : Host.Outcome State Fault Refusal :=
  let a := s.arg 0
  let n := (s.arg 1).toNat
  complete s
    (if Config.addrSpace < a.toNat + n then .error .memFault
     else s.guarded (streamAddrs a n)
       { s with bd := refill s.params.vs s.mem (bdStart a.toNat n), bdReady := true })

/-- BD_BOOL (R103). -/
def execBdBool (prob : BitVec 8) (s : State) : Host.Outcome State Fault Refusal :=
  complete s
    (if s.bdReady then
      let d := decodeBool s.params.vs s.mem prob s.bd
      .ok { s with bd := d.2, res0 := BitVec.ofNat 32 d.1 }
     else .error .bdNotReady)

/-- BD_LITERAL (R104). -/
def execBdLiteral (nbits : BitVec 5) (s : State) : Host.Outcome State Fault Refusal :=
  complete s
    (if s.bdReady then
      let d := decodeLiteral s.params.vs s.mem nbits.toNat s.bd
      .ok { s with bd := d.2, res0 := BitVec.ofNat 32 d.1 }
     else .error .bdNotReady)

end Sys2Proof.Machine
end

