-- ==== Sys2Proof/Machine/TreeRead.lean ====
section
/-! DEFINITION. The tree symbol decoder (42_tree_reader.md): the walk and the command TREE_READ (R120, R121). -/

namespace Sys2Proof.Machine

/-- The walk of R121 over the tree t from index i, with `steps` decisions left of MAX_TREE_STEPS: the symbol and the
decoder after it, or BAD_TREE. The index test comes before the decision (90_conflicts.md C9). -/
def treeWalk (vs : ValueSize) (m : Memory) (probAt : Nat → Byte) (t : List Int) :
    Nat → Nat → BoolDecoder → Except CmdError (Nat × BoolDecoder)
  | 0, _, _ => .error .badTree
  | steps + 1, i, bd =>
    if t.length ≤ i + 1 then .error .badTree
    else
      let d := decodeBool vs m (probAt (i / 2)) bd
      let e := t.getD (i + d.1) 0
      if e ≤ 0 then .ok ((-e).toNat, d.2) else treeWalk vs m probAt t steps e.toNat d.2

/-- TREE_READ (R121). A failed walk leaves the decoder's registers as they were: `complete` starts again from s. -/
def execTreeRead (tree : BitVec 4) (start : BitVec 5) (s : State) : Host.Outcome State Fault Refusal :=
  complete s
    (match s.treeOf tree with
     | none => .error .illegalMode
     | some t =>
       if start.toNat % 2 = 1 ∨ t.length ≤ start.toNat + 1 then .error .badParam
       else if s.bdReady then
         match treeWalk s.params.vs s.mem s.probAt t Config.maxTreeSteps start.toNat s.bd with
         | .ok (sym, bd) => .ok { s with bd := bd, res0 := BitVec.ofNat 32 sym }
         | .error e => .error e
       else .error .bdNotReady)

end Sys2Proof.Machine
end

