-- ==== Sys2Proof/Machine/Dispatch.lean ====
section
/-! DEFINITION. One arm per command: the meaning of each (rule R84 of 30_encoding.md). -/

namespace Sys2Proof.Machine

def exec (i : Instr) (s : State) : Host.Outcome State Fault Refusal :=
  match i with
  | .nop => Sys2Proof.Machine.execNop s
  | .bdInit => Sys2Proof.Machine.execBdInit s
  | .bdBool prob => Sys2Proof.Machine.execBdBool prob s
  | .bdLiteral nbits => Sys2Proof.Machine.execBdLiteral nbits s
  | .treeRead tree start => Sys2Proof.Machine.execTreeRead tree start s
  | .dequant blk => Sys2Proof.Machine.execDequant blk s
  | .iwht => Sys2Proof.Machine.execIwht s
  | .iwhtDc => Sys2Proof.Machine.execIwhtDc s
  | .iwhtAuto => Sys2Proof.Machine.execIwhtAuto s
  | .idctAdd blk => Sys2Proof.Machine.execIdctAdd blk s
  | .idctDcAdd blk => Sys2Proof.Machine.execIdctDcAdd blk s
  | .idctAutoAdd blk => Sys2Proof.Machine.execIdctAutoAdd blk s
  | .coefClear => Sys2Proof.Machine.execCoefClear s
  | .intraB4 mode => Sys2Proof.Machine.execIntraB4 mode s
  | .intraY16 mode up left => Sys2Proof.Machine.execIntraY16 mode up left s
  | .intraUv8 mode up left => Sys2Proof.Machine.execIntraUv8 mode up left s
  | .aboveRightCopy => Sys2Proof.Machine.execAboveRightCopy s
  | .mcPred size chroma => Sys2Proof.Machine.execMcPred size chroma s
  | .lfFrameInit => Sys2Proof.Machine.execLfFrameInit s
  | .lfMb seg ref mode skip top leftMb => Sys2Proof.Machine.execLfMb seg ref mode skip top leftMb s
  | .lfEdge dir kind cnt => Sys2Proof.Machine.execLfEdge dir kind cnt s

end Sys2Proof.Machine
end

