-- ==== Sys2Proof/Machine/Window.lean ====
section
/-! DEFINITION. The register window (10_state.md, R20): what a 32-bit read of an offset returns and what a 32-bit write
of an offset other than CMD changes. Offsets are byte offsets in the window, multiples of 4. -/

namespace Sys2Proof.Machine

/-- The writable bits of CTRL (R27): IRQ_EN, INTERP, FULLPIXEL, LF_TYPE, FRAME_TYPE, SHARPNESS. -/
def ctrlMask : Word := 0x0000073E#32

/-- The writable bits of LF_CFG (R28). -/
def lfCfgMask : Word := 0x0000073F#32

/-- Word k of a file of bytes (R39, R40, R42, R43, R44): entries 4k..4k+3; entries past the end read 0 (R42, R45). -/
def fileWord {n : Nat} (v : Vector Byte n) (k : Nat) : Word :=
  wordOfBytes (v.getD (4 * k) 0#8) (v.getD (4 * k + 1) 0#8) (v.getD (4 * k + 2) 0#8) (v.getD (4 * k + 3) 0#8)

/-- A write of word k of a file of bytes; lanes past the end are ignored (R42, R45). -/
def setFileWord {n : Nat} (v : Vector Byte n) (k : Nat) (w : Word) : Vector Byte n :=
  (((v.setIfInBounds (4 * k) (byteLane w 0)).setIfInBounds (4 * k + 1) (byteLane w 1)).setIfInBounds (4 * k + 2)
    (byteLane w 2)).setIfInBounds (4 * k + 3) (byteLane w 3)

/-- Word k of the COEF window (R41): halfwords 2k and 2k + 1. -/
def coefWord (v : Vector Half 400) (k : Nat) : Word := wordOfHalves (v.getD (2 * k) 0#16) (v.getD (2 * k + 1) 0#16)

/-- A write of word k of the COEF window (R41). -/
def setCoefWord (v : Vector Half 400) (k : Nat) (w : Word) : Vector Half 400 :=
  (v.setIfInBounds (2 * k) (halfLane w 0)).setIfInBounds (2 * k + 1) (halfLane w 1)

/-- BD_VALUE_HI (R34): 0 when VS = 32. -/
def State.bdValueHi (s : State) : Word :=
  match s.params.vs with
  | .bits32 => 0#32
  | .bits64 => s.bd.value.extractLsb' 32 32

/-- A 32-bit read of the window at offset off (R20 to R45). Reads have no side effects (R66). -/
def State.readReg (s : State) (off : Nat) : Word :=
  if off = 0x000 then Config.idValue
  else if off = 0x004 then 0#32
  else if off = 0x008 then s.statusWord
  else if off = 0x00C then s.ctrl &&& ctrlMask
  else if off = 0x010 then s.res0
  else if off = 0x014 then s.lfCfg &&& lfCfgMask
  else if off = 0x018 then s.lfSeg
  else if off = 0x01C then s.lfRefd
  else if off = 0x020 then s.lfModed
  else if off = 0x024 then s.dq
  else if off = 0x028 then s.lastSharp.setWidth 32
  else if 0x040 ≤ off ∧ off < 0x060 then s.arg ((off - 0x040) / 4)
  else if off = 0x060 then s.bd.value.extractLsb' 0 32
  else if off = 0x064 then s.bdValueHi
  else if off = 0x068 then s.bd.count
  else if off = 0x06C then s.bd.range.setWidth 32
  else if off = 0x070 then s.bd.pos.setWidth 32
  else if off = 0x074 then s.bd.stop.setWidth 32
  else if 0x080 ≤ off ∧ off < 0x090 then fileWord s.prob ((off - 0x080) / 4)
  else if 0x090 ≤ off ∧ off < 0x0B0 then fileWord s.treeRam ((off - 0x090) / 4)
  else if 0x100 ≤ off ∧ off < 0x420 then coefWord s.coef ((off - 0x100) / 4)
  else if 0x420 ≤ off ∧ off < 0x43C then fileWord s.eob ((off - 0x420) / 4)
  else if 0x440 ≤ off ∧ off < 0x480 then fileWord s.lvl ((off - 0x440) / 4)
  else if 0x480 ≤ off ∧ off < 0x4C0 then fileWord s.lim ((off - 0x480) / 4)
  else if 0x4C0 ≤ off ∧ off < 0x500 then fileWord s.blim ((off - 0x4C0) / 4)
  else if 0x500 ≤ off ∧ off < 0x540 then fileWord s.mblim ((off - 0x500) / 4)
  else 0#32

/-- A write to CTRL (R27, R291): with bit 0 = 1 a soft reset, whatever the other bits; else the writable bits. -/
def State.writeCtrl (s : State) (v : Word) : State :=
  if v.getLsbD 0 then s.resetRegisters else { s with ctrl := v &&& ctrlMask }

/-- A 32-bit write of the window at offset off other than CMD (R20 to R45): a write to a read-only register or a
reserved offset is ignored. -/
def State.writeReg (s : State) (off : Nat) (v : Word) : State :=
  if off = 0x008 then s.writeStatus v
  else if off = 0x00C then s.writeCtrl v
  else if off = 0x014 then { s with lfCfg := v &&& lfCfgMask }
  else if off = 0x018 then { s with lfSeg := v }
  else if off = 0x01C then { s with lfRefd := v }
  else if off = 0x020 then { s with lfModed := v }
  else if off = 0x024 then { s with dq := v }
  else if 0x040 ≤ off ∧ off < 0x060 then { s with args := s.args.setIfInBounds ((off - 0x040) / 4) v }
  else if 0x080 ≤ off ∧ off < 0x090 then { s with prob := setFileWord s.prob ((off - 0x080) / 4) v }
  else if 0x090 ≤ off ∧ off < 0x0B0 then { s with treeRam := setFileWord s.treeRam ((off - 0x090) / 4) v }
  else if 0x100 ≤ off ∧ off < 0x420 then { s with coef := setCoefWord s.coef ((off - 0x100) / 4) v }
  else if 0x420 ≤ off ∧ off < 0x43C then { s with eob := setFileWord s.eob ((off - 0x420) / 4) v }
  else s

end Sys2Proof.Machine
end

