-- ==== Sys2Proof/Machine/HostPort.lean ====
section
/-! DEFINITION. What each access of the host does (rules R25, R61, R66, R290, R301): a write to CMD runs the command, any
other register access reads or writes the window, frame memory is the host's own. -/

namespace Sys2Proof.Machine

/-- A command word written to CMD (R25): decoded and executed, or failed with the decoder's code (R85, R86). -/
def runCommand (w : Word) (s : State) : Host.Outcome State Fault Refusal :=
  match decode w with
  | .ok i => exec i s
  | .error e => complete s (.error e)

/-- A 32-bit register read at an offset. While BUSY = 1 (R301; never in a run of this model, log 7) STATUS reads as it
is and any other register returns a free value. -/
def State.hostRegRead (s : State) (off : Nat) : State :=
  if s.busy && off != 0x008 then
    { s with hostData := Config.busyRead s.freeCount, freeCount := s.freeCount + 1 }
  else { s with hostData := s.readReg off }

/-- A 32-bit register write at an offset. While BUSY = 1 (R301) it is ignored, except a soft reset. -/
def State.hostRegWrite (s : State) (off : Nat) (v : Word) : Host.Outcome State Fault Refusal :=
  if s.busy then .next (if off = 0x00C ∧ v.getLsbD 0 = true then s.resetRegisters else s)
  else if off = 0x004 then runCommand v s
  else .next (s.writeReg off v)

/-- A register access of `width` bits at a host address (R20, R61, R68): stuck when it is not 32 bits wide or not
word-aligned, another device's when it is outside the window. -/
def State.regAccess (s : State) (width address : Nat) (k : Nat → Host.Outcome State Fault Refusal) :
    Host.Outcome State Fault Refusal :=
  if s.params.mmioBase ≤ address ∧ address < s.params.mmioBase + Config.windowSize then
    if width = 32 ∧ (address - s.params.mmioBase) % 4 = 0 then k (address - s.params.mmioBase)
    else .fault .hostAccessOutsideInterface
  else .refused .notThisDevice

/-- One access of the host, or the reset input. -/
def hostStep (h : HostAction) (s : State) : Host.Outcome State Fault Refusal :=
  match h with
  | .regRead width address => s.regAccess width address fun off => .next (s.hostRegRead off)
  | .regWrite width address v => s.regAccess width address fun off => s.hostRegWrite off v
  | .memRead a => .next { s with hostData := (Memory.read s.mem a).setWidth 32 }
  | .memWrite a b => .next { s with mem := Memory.write s.mem a b }
  | .resetInput => .next s.resetRegisters

end Sys2Proof.Machine
end

