-- ==== Sys2Proof/Machine/Step.lean ====
section
/-! DEFINITION. One step: the host's oldest coming access takes effect (rules R70, R300); with none pending the
accelerator is idle with all state held (R284; log 11). -/

namespace Sys2Proof.Machine

/-- One step of the machine. -/
def step (s : State) : Host.Outcome State Fault Refusal :=
  match s.host with
  | [] => .next s
  | h :: rest => hostStep h { s with host := rest }

/-- s with the command word w as the host's next access, a write to CMD, ahead of those already pending (log 1). BUSY is
0, as it always is when the host writes (R300). -/
def State.withFetchWord (s : State) (nbits w : Nat) : State :=
  { s with
    busy := false
    host := .regWrite 32 (s.params.mmioBase + 4) (BitVec.ofNat 32 (w % 2 ^ nbits)) :: s.host }

end Sys2Proof.Machine
end

