-- ==== Sys2Proof/Safety.lean ====
section
/-! DEFINITION. What counts as a safe run, in the terms the statements use: the invariant every step keeps, which
accesses of the host are inside the interface, the footprint of each command, and the spec's pseudocode as relations
between what a command reads and what it leaves, written from the rules a second time. -/

namespace Sys2Proof.Machine

/-! The invariant. -/

/-- STATUS between commands: ERR_CODE is 0 while CMD_ERR is 0, a code of R261 while it is 1, and BUSY is 0 (R26, R300). -/
def State.StatusInv (s : State) : Prop :=
  s.busy = false ∧ (s.cmdErr = false → s.errCode = 0#4) ∧
    (s.cmdErr = true → 1 ≤ s.errCode.toNat ∧ s.errCode.toNat ≤ 7)

/-- The reserved bits of CTRL and LF_CFG hold 0 (R27, R28). -/
def State.ReservedInv (s : State) : Prop := s.ctrl &&& ctrlMask = s.ctrl ∧ s.lfCfg &&& lfCfgMask = s.lfCfg

/-- LIM, BLIM and MBLIM are the tables for LAST_SHARP (R33, R44). -/
def State.TablesInv (s : State) : Prop :=
  s.lim = limTable s.lastSharp.toNat ∧ s.blim = blimTable s.lastSharp.toNat ∧ s.mblim = mblimTable s.lastSharp.toNat

/-- Every level of LVL is 0..63 (R43). -/
def State.LevelsInv (s : State) : Prop := ∀ k : Nat, k < 64 → (s.lvl.getD k 0#8).toNat ≤ 63

/-- The boolean decoder's registers: BD_RANGE in [128, 255] (R36), BD_POS at most BD_END (R37), BD_VALUE in VS bits
(R34), BD_COUNT at least -7 and at most LOTS_OF_BITS + VS - 8 (R102). -/
def DecoderInRange (vs : ValueSize) (bd : BoolDecoder) : Prop :=
  128 ≤ bd.range.toNat ∧ bd.pos.toNat ≤ bd.stop.toNat ∧ bd.stop.toNat ≤ Config.addrSpace ∧
    bd.value.toNat < 2 ^ vsBits vs ∧ -7 ≤ bd.count.toInt ∧ bd.count.toInt ≤ Config.lotsOfBits + vsBits vs - 8

/-- Every unread byte of the stream was admitted by its BD_INIT (R76). -/
def State.StreamAdmitted (s : State) : Prop :=
  ∀ a : Addr, s.bd.pos.toNat ≤ a.toNat → a.toNat < s.bd.stop.toNat → s.admits a = true

/-- What holds between any two steps. -/
structure State.Inv (s : State) : Prop where
  status : s.StatusInv
  reserved : s.ReservedInv
  tables : s.TablesInv
  levels : s.LevelsInv
  decoder : DecoderInRange s.params.vs s.bd
  stream : s.StreamAdmitted
  /-- Before the first BD_INIT the decoder's registers hold their reset values (R34 to R38). -/
  untouched : s.bdReady = false → s.bd = BoolDecoder.reset
  memory : Memory.wf s.mem = true

/-! The host's accesses. -/

/-- The access is inside the interface (R20, R61, R68): a register access is 32 bits wide, inside the window and
word-aligned; any frame-memory access and the reset input are. -/
def HostAction.inInterface (mmioBase : Nat) : HostAction → Prop
  | .regRead width address | .regWrite width address _ =>
    width = 32 ∧ mmioBase ≤ address ∧ address < mmioBase + Config.windowSize ∧ (address - mmioBase) % 4 = 0
  | .memRead _ | .memWrite _ _ | .resetInput => True

/-- The access resets the accelerator: the reset input, or a write to CTRL with SOFT_RESET = 1 (R290, R291). -/
def HostAction.resets (mmioBase : Nat) : HostAction → Prop
  | .regWrite width address v => width = 32 ∧ address = mmioBase + 0x00C ∧ v.getLsbD 0 = true
  | .resetInput => True
  | .regRead _ _ | .memRead _ | .memWrite _ _ => False

/-- The access is a write of the command word w to CMD (R25). -/
def HostAction.issues (mmioBase : Nat) (w : Word) : HostAction → Prop
  | .regWrite width address v => width = 32 ∧ address = mmioBase + 0x004 ∧ v = w
  | .regRead _ _ | .memRead _ | .memWrite _ _ | .resetInput => False

end Sys2Proof.Machine

namespace Sys2Proof

/-- The mnemonic of a command (R84). -/
def Instr.mnemonic : Instr → String
  | .nop => "NOP"
  | .bdInit => "BD_INIT"
  | .bdBool _ => "BD_BOOL"
  | .bdLiteral _ => "BD_LITERAL"
  | .treeRead _ _ => "TREE_READ"
  | .dequant _ => "DEQUANT"
  | .iwht => "IWHT"
  | .iwhtDc => "IWHT_DC"
  | .iwhtAuto => "IWHT_AUTO"
  | .idctAdd _ => "IDCT_ADD"
  | .idctDcAdd _ => "IDCT_DC_ADD"
  | .idctAutoAdd _ => "IDCT_AUTO_ADD"
  | .coefClear => "COEF_CLEAR"
  | .intraB4 _ => "INTRA_B4"
  | .intraY16 _ _ _ => "INTRA_Y16"
  | .intraUv8 _ _ _ => "INTRA_UV8"
  | .aboveRightCopy => "ABOVE_RIGHT_COPY"
  | .mcPred _ _ => "MC_PRED"
  | .lfFrameInit => "LF_FRAME_INIT"
  | .lfMb _ _ _ _ _ _ => "LF_MB"
  | .lfEdge _ _ _ => "LF_EDGE"

/-- The rows of the opcode map (R84) with the reserved bits of their formats (R81): OP, mnemonic, and the lowest
reserved bit; in every format that bit and all above it are the reserved ones. -/
def opcodeRows : List (Nat × String × Nat) :=
  [(0x00, "NOP", 8), (0x01, "BD_INIT", 8), (0x02, "BD_BOOL", 16), (0x03, "BD_LITERAL", 13),
   (0x10, "TREE_READ", 17), (0x20, "DEQUANT", 13), (0x21, "IWHT", 8), (0x22, "IWHT_DC", 8)] ++
  [(0x23, "IWHT_AUTO", 8), (0x24, "IDCT_ADD", 13), (0x25, "IDCT_DC_ADD", 13), (0x26, "IDCT_AUTO_ADD", 13),
   (0x27, "COEF_CLEAR", 8), (0x30, "INTRA_B4", 12), (0x31, "INTRA_Y16", 14), (0x32, "INTRA_UV8", 14)] ++
  [(0x33, "ABOVE_RIGHT_COPY", 8), (0x40, "MC_PRED", 11), (0x50, "LF_FRAME_INIT", 8), (0x51, "LF_MB", 19),
   (0x52, "LF_EDGE", 12)]

/-- The decoding commands (R38). -/
def Instr.isDecoding : Instr → Bool
  | .bdBool _ | .bdLiteral _ | .treeRead _ _ => true
  | .nop | .bdInit | .dequant _ | .iwht | .iwhtDc | .iwhtAuto | .idctAdd _ | .idctDcAdd _ | .idctAutoAdd _
  | .coefClear | .intraB4 _ | .intraY16 _ _ _ | .intraUv8 _ _ _ | .aboveRightCopy | .mcPred _ _ | .lfFrameInit
  | .lfMb _ _ _ _ _ _ | .lfEdge _ _ _ => false

/-- The commands that write coefficients (R41). -/
def Instr.writesCoef : Instr → Bool
  | .dequant _ | .iwht | .iwhtDc | .iwhtAuto | .coefClear => true
  | .nop | .bdInit | .bdBool _ | .bdLiteral _ | .treeRead _ _ | .idctAdd _ | .idctDcAdd _ | .idctAutoAdd _
  | .intraB4 _ | .intraY16 _ _ _ | .intraUv8 _ _ _ | .aboveRightCopy | .mcPred _ _ | .lfFrameInit
  | .lfMb _ _ _ _ _ _ | .lfEdge _ _ _ => false

/-- The commands that write frame memory (R71). -/
def Instr.writesMemory : Instr → Bool
  | .idctAdd _ | .idctDcAdd _ | .idctAutoAdd _ | .intraB4 _ | .intraY16 _ _ _ | .intraUv8 _ _ _ | .aboveRightCopy
  | .mcPred _ _ | .lfMb _ _ _ _ _ _ | .lfEdge _ _ _ => true
  | .nop | .bdInit | .bdBool _ | .bdLiteral _ | .treeRead _ _ | .dequant _ | .iwht | .iwhtDc | .iwhtAuto | .coefClear
  | .lfFrameInit => false

end Sys2Proof

namespace Sys2Proof.Machine

/-- The edges LF_MB filters for its operands in s (R230); none for a reserved MODE. -/
def State.edgesOfMb (s : State) (seg ref : BitVec 2) (mode : BitVec 4) (skip top leftMb : Bool) : List EdgeJob :=
  match mbModeOf mode with
  | none => []
  | some md => s.lfMbEdges (s.lvlAt seg.toNat ref.toNat (modeClass md)) md skip top leftMb

/-- The footprint of a command in s: every frame-memory address it will read or write, as its rule gives it (R64). The
decoding commands have none of their own: their stream was checked by BD_INIT (R76). -/
def State.footprintOf (s : State) : Instr → List Addr
  | .bdInit => streamAddrs (s.arg 0) (s.arg 1).toNat
  | .idctAdd _ | .idctDcAdd _ | .idctAutoAdd _ => s.addBlockFootprint
  | .intraB4 _ => s.intraFootprint 8 4
  | .intraY16 _ _ _ => s.intraFootprint 16 16
  | .intraUv8 _ _ _ => s.intraFootprint 8 8
  | .aboveRightCopy => s.aboveRightFootprint
  | .mcPred size chroma => s.mcFootprint size chroma
  | .lfMb seg ref mode skip top leftMb => (s.edgesOfMb seg ref mode skip top leftMb).flatMap EdgeJob.footprint
  | .lfEdge dir kind cnt => ((s.lfEdgeJob dir kind cnt).map EdgeJob.footprint).getD []
  | .nop | .bdBool _ | .bdLiteral _ | .treeRead _ _ | .dequant _ | .iwht | .iwhtDc | .iwhtAuto | .coefClear
  | .lfFrameInit => []

/-- a is the byte base + r*stride + c, for some r in r0..r1 and c in c0..c1 (R12, R13). -/
def InWindow (a : Addr) (base stride r0 r1 c0 c1 : Int) : Prop :=
  ∃ r c : Int, r0 ≤ r ∧ r ≤ r1 ∧ c0 ≤ c ∧ c ≤ c1 ∧ a = BitVec.ofInt 32 (base + r * stride + c)

/-- a is in the footprint of an edge of n positions at byte s with pitch P (R225, R226): its reads, which hold its
writes. -/
def EdgeTouches (a : Addr) (vertical simple : Bool) (s P : Int) (n : Nat) : Prop :=
  ∃ (i : Nat) (k : Int), i < n ∧ (if simple then -2 ≤ k ∧ k ≤ 1 else -4 ≤ k ∧ k ≤ 3) ∧
    a = BitVec.ofInt 32 (if vertical then s + i * P + k else s + i + k * P)

/-- The neighbours and the destination of a prediction of n x n pixels from na pixels above: A-1 .. A+na-1, the left
column, and the block at D (R170, R182, R183, R184). -/
def IntraTouches (a : Addr) (A L SL D SD : Int) (na n : Int) : Prop :=
  InWindow a A 0 0 0 (-1) (na - 1) ∨ InWindow a L SL 0 (n - 1) 0 0 ∨ InWindow a D SD 0 (n - 1) 0 (n - 1)

/-- The footprint of a command in s, written from the rules a second time: BD_INIT (R76), the residual commands (R146),
intra prediction (R182 to R184), ABOVE_RIGHT_COPY (R187), MC_PRED (R201, R208), LF_MB and LF_EDGE (R226, R228, R230). -/
def State.Touches (s : State) (a : Addr) (i : Instr) : Prop :=
  let arg := fun k => ((s.arg k).toNat : Int)
  match i with
  | .bdInit => InWindow a (arg 0) 0 0 0 0 (arg 1 - 1)
  | .idctAdd _ | .idctDcAdd _ | .idctAutoAdd _ =>
    InWindow a (arg 0) (arg 1) 0 3 0 3 ∨ InWindow a (arg 2) (arg 3) 0 3 0 3
  | .intraB4 _ => IntraTouches a (arg 0) (arg 1) (arg 2) (arg 3) (arg 4) 8 4
  | .intraY16 _ _ _ => IntraTouches a (arg 0) (arg 1) (arg 2) (arg 3) (arg 4) 16 16
  | .intraUv8 _ _ _ => IntraTouches a (arg 0) (arg 1) (arg 2) (arg 3) (arg 4) 8 8
  | .aboveRightCopy =>
    (∃ j : Int, 0 ≤ j ∧ j ≤ 3 ∧ a = BitVec.ofInt 32 (arg 0 - arg 1 + 16 + j)) ∨
      ∃ k j : Int, 1 ≤ k ∧ k ≤ 3 ∧ 0 ≤ j ∧ j ≤ 3 ∧ a = BitVec.ofInt 32 (arg 0 + (4 * k - 1) * arg 1 + 16 + j)
  | .mcPred size chroma =>
    let w : Int := if size = 0#2 then 4 else if size = 1#2 then 8 else if size = 2#2 then 8 else 16
    let h : Int := if size = 0#2 then 4 else if size = 1#2 then 4 else if size = 2#2 then 8 else 16
    let vector := fun v : BitVec 16 => if chroma then chromaMv (s.ctrl.getLsbD 3) v.toInt else v.toInt
    let col := vector ((s.arg 2).extractLsb' 0 16)
    let row := vector ((s.arg 2).extractLsb' 16 16)
    let b := arg 0 + row / 8 * arg 1 + col / 8
    InWindow a (arg 3) (arg 4) 0 (h - 1) 0 (w - 1) ∨
      (if col % 8 = 0 ∧ row % 8 = 0 then InWindow a b (arg 1) 0 (h - 1) 0 (w - 1)
       else if s.ctrl.getLsbD 2 then InWindow a b (arg 1) 0 h 0 w
       else InWindow a b (arg 1) (-2) (h + 2) (-2) (w + 2))
  | .lfMb seg ref mode skip top leftMb =>
    ∃ e ∈ s.edgesOfMb seg ref mode skip top leftMb,
      EdgeTouches a (decide (e.dir = .v)) (decide (e.kind = .simple)) e.start.toNat e.pitch.toNat e.count
  | .lfEdge dir kind cnt =>
    kind ≠ 3#2 ∧ EdgeTouches a dir (decide (kind = 2#2)) (arg 0) (arg 1) (if cnt then 16 else 8)
  | .nop | .bdBool _ | .bdLiteral _ | .treeRead _ _ | .dequant _ | .iwht | .iwhtDc | .iwhtAuto | .coefClear
  | .lfFrameInit => False

/-- BD_INIT's buffer would wrap the address space (R76); of no other command. -/
def State.bufferWraps (s : State) : Instr → Bool
  | .bdInit => decide (Config.addrSpace < (s.arg 0).toNat + (s.arg 1).toNat)
  | .nop | .bdBool _ | .bdLiteral _ | .treeRead _ _ | .dequant _ | .iwht | .iwhtDc | .iwhtAuto | .idctAdd _
  | .idctDcAdd _ | .idctAutoAdd _ | .coefClear | .intraB4 _ | .intraY16 _ _ _ | .intraUv8 _ _ _ | .aboveRightCopy
  | .mcPred _ _ | .lfFrameInit | .lfMb _ _ _ _ _ _ | .lfEdge _ _ _ => false

/-! The boolean decoder, as runs of decisions. -/

/-- The number of bits a decision of probability p shifts out: NORM of the interval chosen (R105). -/
def decisionShift (vs : ValueSize) (m : Memory) (p : Byte) (bd : BoolDecoder) : Nat :=
  norm (if (decodeBool vs m p bd).1 = 1 then (bd.range.toNat : Int) - splitOf bd.range p else splitOf bd.range p).toNat

/-- Decisions of the given probabilities, one after another: the bits, the sum C of their shifts (R106), and the decoder
after them. -/
def decisions (vs : ValueSize) (m : Memory) : List Byte → BoolDecoder → List Nat × Nat × BoolDecoder
  | [], bd => ([], 0, bd)
  | p :: ps, bd =>
    let d := decodeBool vs m p bd
    let z := decisions vs m ps d.2
    (d.1 :: z.1, decisionShift vs m p bd + z.2.1, z.2.2)

/-- BD_BOOL commands of the given probabilities, one after another: the RES0 each leaves, and the state after them; none
if one of them does not answer a next state. -/
def runBools : List Byte → State → Option (List Word × State)
  | [], s => some ([], s)
  | p :: ps, s =>
    match exec (.bdBool p) s with
    | .next t => (runBools ps t).map fun z => (t.res0 :: z.1, z.2)
    | .fault _ | .refused _ => none

/-- The number whose bits, most significant first, are the given words (R104). -/
def msbFirst (bits : List Word) : Nat := bits.foldl (fun z b => 2 * z + b.toNat) 0

/-- The walk of R121 over the tree t succeeds: from node i and decoder bd it makes n decisions, each at a node inside
the table, and reaches the leaf of symbol sym with decoder bd'. -/
inductive Walks (vs : ValueSize) (m : Memory) (probAt : Nat → Byte) (t : List Int) :
    Nat → BoolDecoder → Nat → Nat → BoolDecoder → Prop where
  /-- The decision at node i reaches a leaf. -/
  | leaf (i : Nat) (bd : BoolDecoder) (sym : Nat)
      (inside : i + 1 < t.length)
      (isLeaf : t.getD (i + (decodeBool vs m (probAt (i / 2)) bd).1) 0 = -(sym : Int)) :
      Walks vs m probAt t i bd 1 sym (decodeBool vs m (probAt (i / 2)) bd).2
  /-- The decision at node i leads to node j. -/
  | node (i : Nat) (bd : BoolDecoder) (j n sym : Nat) (bd' : BoolDecoder)
      (inside : i + 1 < t.length) (isNode : 0 < j)
      (goes : t.getD (i + (decodeBool vs m (probAt (i / 2)) bd).1) 0 = (j : Int))
      (rest : Walks vs m probAt t j (decodeBool vs m (probAt (i / 2)) bd).2 n sym bd') :
      Walks vs m probAt t i bd (n + 1) sym bd'

/-! Blocks of pixels. -/

/-- m' is m with f r c stored at every pixel (r, c) of the block: a byte of the block holds the value of the last pixel
in raster order that lies on it, every other byte is as in m (R11, R13; the order is log 14). -/
def StoresBlock (m m' : Memory) (base stride : Word) (w h : Nat) (f : Nat → Nat → Int) : Prop :=
  (∀ r c : Nat, r < h → c < w →
    (∀ r' c' : Nat, r' < h → c' < w → pixAddr base stride r' c' = pixAddr base stride r c → r' * w + c' ≤ r * w + c) →
    Memory.read m' (pixAddr base stride r c) = byte (f r c)) ∧
  ∀ a : Addr, (∀ r c : Nat, r < h → c < w → pixAddr base stride r c ≠ a) → Memory.read m' a = Memory.read m a

/-- The pixel values f are u8 (R10, R172, R205). -/
def IsPixel (v : Int) : Prop := 0 ≤ v ∧ v ≤ 255

/-- Y is InvDCT(X): the pseudocode of R141. -/
def IsInvDct (X Y : Nat → Int) : Prop :=
  ∃ T : Nat → Int,
    (∀ c : Nat, c < 4 →
      let a1 := X c + X (8 + c)
      let b1 := X c - X (8 + c)
      let c1 := (X (4 + c) * 35468) / 65536 - (X (12 + c) + (X (12 + c) * 20091) / 65536)
      let d1 := (X (4 + c) + (X (4 + c) * 20091) / 65536) + (X (12 + c) * 35468) / 65536
      T c = trunc16 (a1 + d1) ∧ T (4 + c) = trunc16 (b1 + c1) ∧ T (8 + c) = trunc16 (b1 - c1) ∧
        T (12 + c) = trunc16 (a1 - d1)) ∧
    (∀ r : Nat, r < 4 →
      let a1 := T (4 * r) + T (4 * r + 2)
      let b1 := T (4 * r) - T (4 * r + 2)
      let c1 := (T (4 * r + 1) * 35468) / 65536 - (T (4 * r + 3) + (T (4 * r + 3) * 20091) / 65536)
      let d1 := (T (4 * r + 1) + (T (4 * r + 1) * 20091) / 65536) + (T (4 * r + 3) * 35468) / 65536
      Y (4 * r) = trunc16 ((a1 + d1 + 4) / 8) ∧ Y (4 * r + 1) = trunc16 ((b1 + c1 + 4) / 8) ∧
        Y (4 * r + 2) = trunc16 ((b1 - c1 + 4) / 8) ∧ Y (4 * r + 3) = trunc16 ((a1 - d1 + 4) / 8))

/-- O is the inverse WHT of W: the pseudocode of R143. -/
def IsInvWht (W O : Nat → Int) : Prop :=
  ∃ T : Nat → Int,
    (∀ c : Nat, c < 4 →
      let a1 := W c + W (12 + c)
      let b1 := W (4 + c) + W (8 + c)
      let c1 := W (4 + c) - W (8 + c)
      let d1 := W c - W (12 + c)
      T c = trunc16 (a1 + b1) ∧ T (4 + c) = trunc16 (c1 + d1) ∧ T (8 + c) = trunc16 (a1 - b1) ∧
        T (12 + c) = trunc16 (d1 - c1)) ∧
    (∀ r : Nat, r < 4 →
      let a1 := T (4 * r) + T (4 * r + 3)
      let b1 := T (4 * r + 1) + T (4 * r + 2)
      let c1 := T (4 * r + 1) - T (4 * r + 2)
      let d1 := T (4 * r) - T (4 * r + 3)
      O (4 * r) = trunc16 ((a1 + b1 + 3) / 8) ∧ O (4 * r + 1) = trunc16 ((c1 + d1 + 3) / 8) ∧
        O (4 * r + 2) = trunc16 ((a1 - b1 + 3) / 8) ∧ O (4 * r + 3) = trunc16 ((d1 - c1 + 3) / 8))

/-- m' is m with AddBlock(Y, P, SP, D, SD) of the operands of IDCT_ADD done (R146, R147). -/
def State.AddsBlock (s : State) (Y : Nat → Int) (m' : Memory) : Prop :=
  StoresBlock s.mem m' (s.arg 2) (s.arg 3) 4 4 fun r c =>
    clamp255 (Y (4 * r + c) + Memory.pixel s.mem (pixAddr (s.arg 0) (s.arg 1) (r : Nat) (c : Nat)))

/-- ref(r, c) of R204: the pixel of memory at row r, column c of the block whose first pixel is at base. -/
def refPixel (m : Memory) (base stride : Word) (r c : Int) : Int := Memory.pixel m (pixAddr base stride r c)

/-- The sum of six pixels weighted by the taps of a phase, rounded and clamped (R204). -/
def sixTapSum (phase : Nat) (x : Int → Int) : Int :=
  let t := fun k => (sixTapTaps phase).getD k 0
  clamp255 ((x (-2) * t 0 + x (-1) * t 1 + x 0 * t 2 + x 1 * t 3 + x 2 * t 4 + x 3 * t 5 + 64) / 128)

/-- P[r][c] of SixTap (R204). -/
def sixTapAt (ref : Int → Int → Int) (fx fy : Nat) (r c : Int) : Int :=
  sixTapSum fy fun i => sixTapSum fx fun j => ref (r + i) (c + j)

/-- T[r][c] of Bilinear (R205). -/
def bilinearFirst (ref : Int → Int → Int) (fx : Nat) (r c : Int) : Int :=
  (ref r c * (128 - 16 * fx) + ref r (c + 1) * (16 * fx) + 64) / 128

/-- P[r][c] of Bilinear (R205). -/
def bilinearAt (ref : Int → Int → Int) (fx fy : Nat) (r c : Int) : Int :=
  (bilinearFirst ref fx r c * (128 - 16 * fy) + bilinearFirst ref fx (r + 1) c * (16 * fy) + 64) / 128

/-! Edges. -/

/-- m' is m after position i of the edge (R227): each byte of the write range holds its new value, computed from the
bytes m holds, the last in ascending offset order where two offsets name one byte (log 14); every other byte is as in m. -/
def EdgeJob.Filters (e : EdgeJob) (i : Nat) (m m' : Memory) : Prop :=
  (∀ j : Nat, j < (writeOffsets e.kind).length →
    (∀ j' : Nat, j < j' → j' < (writeOffsets e.kind).length →
      e.addr i ((writeOffsets e.kind).getD j' 0) ≠ e.addr i ((writeOffsets e.kind).getD j 0)) →
    Memory.read m' (e.addr i ((writeOffsets e.kind).getD j 0)) =
      (e.filter fun k => Memory.read m (e.addr i k)).getD j 0#8) ∧
  ∀ a : Addr, (∀ k ∈ writeOffsets e.kind, e.addr i k ≠ a) → Memory.read m' a = Memory.read m a

/-- m' is m after the edge (R227): its positions 0, 1, ... one after another, each seeing the writes of those before. -/
def EdgeJob.Done (e : EdgeJob) (m m' : Memory) : Prop :=
  ∃ at' : Nat → Memory, at' 0 = m ∧ at' e.count = m' ∧ ∀ i : Nat, i < e.count → e.Filters i (at' i) (at' (i + 1))

/-- m' is m after the edges of the list, one after another in list order (R230). -/
def EdgesDone (es : List EdgeJob) (m m' : Memory) : Prop :=
  ∃ at' : Nat → Memory, at' 0 = m ∧ at' es.length = m' ∧
    ∀ i : Nat, ∀ e : EdgeJob, es[i]? = some e → e.Done (at' i) (at' (i + 1))

end Sys2Proof.Machine
end

