-- ==== Sys2Proof/Certificates/Slice0/Obligations.lean ====
section
/-! DEFINITION. The statements for the provers. Each docstring names the rule of spec/ it formalises, or says what of it
is the model's own. -/

open Sys2Proof Sys2Proof.Machine

/-! Encoding. -/

/-- R90, R82: encoding a command and decoding the word gives the command back, with every field at every value. -/
def Obligations.DecodeEncodeRoundTrip : Prop := ∀ i : Instr, decode (encode i) = .ok i

/-- R80, R87: every word decodes to at most one command, and that command's encoding is the word: no bit is dropped. -/
def Obligations.EncodeDecodeRoundTrip : Prop := ∀ (w : Word) (i : Instr), decode w = .ok i → encode i = w

/-- R84: a word whose opcode byte is OP and whose reserved bits are 0 is a command of OP's mnemonic; no other word is a
command. -/
def Obligations.OpcodeMapMatchAndMask : Prop :=
  (∀ op mnemonic low, (op, mnemonic, low) ∈ opcodeRows → ∀ w : Word,
    ((w.toNat % 256 = op ∧ w.toNat / 2 ^ low = 0) ↔ ∃ i : Instr, decode w = .ok i ∧ i.mnemonic = mnemonic)) ∧
  (∀ (w : Word) (i : Instr), decode w = .ok i →
    ∃ op mnemonic low, (op, mnemonic, low) ∈ opcodeRows ∧ i.mnemonic = mnemonic ∧ w.toNat % 256 = op ∧
      w.toNat / 2 ^ low = 0)

/-- R88, R90: words of each family, written from the patterns of R90. -/
def Obligations.SampleWordsDecode : Prop :=
  decode 0x00000000#32 = .ok .nop ∧
  decode 0x00000001#32 = .ok .bdInit ∧
  decode 0x00008002#32 = .ok (.bdBool 128#8) ∧
  decode 0x00000703#32 = .ok (.bdLiteral 7#5) ∧
  decode 0x00000310#32 = .ok (.treeRead 3#4 0#5) ∧
  decode 0x00002910#32 = .ok (.treeRead 9#4 2#5) ∧
  decode 0x00001820#32 = .ok (.dequant 24#5) ∧
  decode 0x00001724#32 = .ok (.idctAdd 23#5) ∧
  decode 0x00000930#32 = .ok (.intraB4 9#4) ∧
  decode 0x00001031#32 = .ok (.intraY16 0#4 true false) ∧
  decode 0x00002332#32 = .ok (.intraUv8 3#4 false true) ∧
  decode 0x00000740#32 = .ok (.mcPred 3#2 true) ∧
  decode 0x00065251#32 = .ok (.lfMb 2#2 0#2 5#4 false true true) ∧
  decode 0x00000B52#32 = .ok (.lfEdge true 1#2 true)

/-- R85: a word whose opcode byte is one of the 235 values outside the map fails with ILLEGAL_OPCODE, code 1, and
changes STATUS alone. -/
def Obligations.IllegalOpcodesFail : Prop :=
  ∀ (w : Word) (s : State),
    ((0x04 ≤ w.toNat % 256 ∧ w.toNat % 256 ≤ 0x0F) ∨ (0x11 ≤ w.toNat % 256 ∧ w.toNat % 256 ≤ 0x1F) ∨
      (0x28 ≤ w.toNat % 256 ∧ w.toNat % 256 ≤ 0x2F) ∨ (0x34 ≤ w.toNat % 256 ∧ w.toNat % 256 ≤ 0x3F) ∨
      (0x41 ≤ w.toNat % 256 ∧ w.toNat % 256 ≤ 0x4F) ∨ (0x53 ≤ w.toNat % 256)) →
    (∀ i : Instr, decode w ≠ .ok i) ∧
      runCommand w s = .next { s with done := true, busy := false, cmdErr := true, errCode := 1#4 }

/-- R86: a legal opcode with a reserved bit set fails with RESERVED_FIELD (2); a reserved field value fails with
ILLEGAL_MODE (3); a legal field value wrong for the operation fails with BAD_PARAM (4); each changes STATUS alone. -/
def Obligations.ReservedEncodingsFail : Prop :=
  ∀ s : State,
    let fails := fun code : BitVec 4 =>
      (.next { s with done := true, busy := false, cmdErr := true, errCode := code } :
        Host.Outcome State Fault Refusal)
    (∀ (w : Word) op mnemonic low, (op, mnemonic, low) ∈ opcodeRows → w.toNat % 256 = op → w.toNat / 2 ^ low ≠ 0 →
      runCommand w s = fails 2#4) ∧
    (∀ (tree : BitVec 4) (start : BitVec 5), 10 ≤ tree.toNat → tree.toNat ≤ 14 →
      exec (.treeRead tree start) s = fails 3#4) ∧
    (∀ mode : BitVec 4, 10 ≤ mode.toNat → exec (.intraB4 mode) s = fails 3#4) ∧
    (∀ (seg ref : BitVec 2) (mode : BitVec 4) (skip top leftMb : Bool), 10 ≤ mode.toNat →
      exec (.lfMb seg ref mode skip top leftMb) s = fails 3#4) ∧
    (∀ (mode : BitVec 4) (up left : Bool), 4 ≤ mode.toNat →
      exec (.intraY16 mode up left) s = fails 3#4 ∧ exec (.intraUv8 mode up left) s = fails 3#4) ∧
    (∀ dir cnt : Bool, exec (.lfEdge dir 3#2 cnt) s = fails 3#4) ∧
    (∀ (tree : BitVec 4) (start : BitVec 5) (t : List Int), s.treeOf tree = some t →
      (start.toNat % 2 = 1 ∨ t.length ≤ start.toNat + 1) → exec (.treeRead tree start) s = fails 4#4) ∧
    (∀ blk : BitVec 5, 24 < blk.toNat → exec (.dequant blk) s = fails 4#4) ∧
    (∀ blk : BitVec 5, 23 < blk.toNat →
      exec (.idctAdd blk) s = fails 4#4 ∧ exec (.idctDcAdd blk) s = fails 4#4 ∧
        exec (.idctAutoAdd blk) s = fails 4#4) ∧
    (∀ (seg ref : BitVec 2) (mode : BitVec 4) (skip top leftMb : Bool), mode.toNat ≤ 9 →
      ((ref = 0#2 ∧ 4 < mode.toNat) ∨ (ref ≠ 0#2 ∧ mode.toNat < 5)) →
      exec (.lfMb seg ref mode skip top leftMb) s = fails 4#4)

/-! The host's accesses. -/

/-- R25: a 32-bit write to CMD decodes and executes the word (a word that decodes to i runs exec i; any other fails with
the decoder's code), CMD has no storage, and a read of CMD returns 0 and has no effect. That the step takes the access
off the list of the host's coming accesses, and that hostData holds what the read returned, is the model's choice (logs
1, 8). -/
def Obligations.CommandWriteRunsDecodedCommand : Prop :=
  ∀ (s : State) (rest : List HostAction) (w : Word), s.busy = false →
    (s.host = .regWrite 32 (s.params.mmioBase + 0x004) w :: rest →
      (∀ i : Instr, decode w = .ok i → step s = exec i { s with host := rest }) ∧
      (∀ e : CmdError, decode w = .error e →
        step s = .next { s with
          host := rest, done := true, busy := false, cmdErr := true, errCode := errCodeOf e })) ∧
    (s.host = .regRead 32 (s.params.mmioBase + 0x004) :: rest →
      step s = .next { s with host := rest, hostData := 0#32 })

/-- R61: a register access of another width than 32 bits, or at an offset not a multiple of 4, has no step; one of 32
bits at a multiple of 4 has. -/
def Obligations.RegisterAccessOutsideInterfaceSticks : Prop :=
  ∀ (s : State) (rest : List HostAction) (width address : Nat) (v : Word),
    s.params.mmioBase ≤ address → address < s.params.mmioBase + 4096 →
    (s.host = .regRead width address :: rest ∨ s.host = .regWrite width address v :: rest) →
    ((width ≠ 32 ∨ (address - s.params.mmioBase) % 4 ≠ 0) → step s = .fault .hostAccessOutsideInterface) ∧
    (width = 32 → (address - s.params.mmioBase) % 4 = 0 → ∃ t : State, step s = .next t)

/-- No command and no access inside the interface ever stops the machine: k steps over any list of such accesses answer
a next state, with the first k accesses done and the parameters of R7 as they were. The list of the host's coming
accesses, of which a step takes one off, is the model's choice (log 1); that steps go on, idle, once the list is empty is
its inference from R284 (log 11). -/
def Obligations.InterfaceRunsNeverStop : Prop :=
  ∀ (k : Nat) (s : State), (∀ h ∈ s.host, HostAction.inInterface s.params.mmioBase h) →
    ∃ t : State, Host.Core.run Sys2Proof.core k s = .next t ∧ t.host = s.host.drop k ∧ t.params = s.params

/-- R66, R20, R45, R89 (`WB`), R60: the host's reads have no side effects, they change only what it last read; its write
of a register other than CMD is the write of that register (writeReg), which changes neither frame memory nor the
parameters and, unless it is a soft reset, changes the register (or the word's register file, whose other words
RegisterWritesReadBack holds) at that offset alone; its frame-memory write changes that byte alone. A reset leaves the
model's own fields as they are: that, the list of coming accesses and the byte accesses are the model's choice (logs 1,
8, 9). -/
def Obligations.HostAccessesChangeOnlyTheirTarget : Prop :=
  ∀ (s : State) (rest : List HostAction),
    (∀ off : Nat, s.busy = false → off < 4096 → off % 4 = 0 →
      s.host = .regRead 32 (s.params.mmioBase + off) :: rest →
      step s = .next { s with host := rest, hostData := s.readReg off }) ∧
    (∀ (off : Nat) (v : Word), s.busy = false → off < 4096 → off % 4 = 0 → off ≠ 0x004 →
      s.host = .regWrite 32 (s.params.mmioBase + off) v :: rest →
      step s = .next (({ s with host := rest } : State).writeReg off v)) ∧
    (∀ (off : Nat) (v : Word),
      let t := s.writeReg off v
      t.mem = s.mem ∧ t.params = s.params ∧ t.host = s.host ∧ t.hostData = s.hostData ∧ t.freeCount = s.freeCount ∧
      (¬ (off = 0x00C ∧ v.getLsbD 0 = true) →
        t.res0 = s.res0 ∧ t.busy = s.busy ∧ t.bdReady = s.bdReady ∧ t.lastSharp = s.lastSharp ∧ t.bd = s.bd ∧
        t.lvl = s.lvl ∧ t.lim = s.lim ∧ t.blim = s.blim ∧ t.mblim = s.mblim ∧
        (off ≠ 0x008 → t.done = s.done ∧ t.cmdErr = s.cmdErr ∧ t.errCode = s.errCode) ∧
        (off ≠ 0x00C → t.ctrl = s.ctrl) ∧ (off ≠ 0x014 → t.lfCfg = s.lfCfg) ∧ (off ≠ 0x018 → t.lfSeg = s.lfSeg) ∧
        (off ≠ 0x01C → t.lfRefd = s.lfRefd) ∧ (off ≠ 0x020 → t.lfModed = s.lfModed) ∧ (off ≠ 0x024 → t.dq = s.dq) ∧
        (¬ (0x040 ≤ off ∧ off < 0x060) → t.args = s.args) ∧ (¬ (0x080 ≤ off ∧ off < 0x090) → t.prob = s.prob) ∧
        (¬ (0x090 ≤ off ∧ off < 0x0B0) → t.treeRam = s.treeRam) ∧
        (¬ (0x100 ≤ off ∧ off < 0x420) → t.coef = s.coef) ∧ (¬ (0x420 ≤ off ∧ off < 0x43C) → t.eob = s.eob))) ∧
    (∀ a : Addr, s.host = .memRead a :: rest →
      step s = .next { s with host := rest, hostData := (Memory.read s.mem a).setWidth 32 }) ∧
    (∀ (a : Addr) (b : Byte), s.host = .memWrite a b :: rest →
      ∃ t : State, step s = .next t ∧ t = { s with host := rest, mem := t.mem } ∧ Memory.read t.mem a = b ∧
        ∀ a' : Addr, a' ≠ a → Memory.read t.mem a' = Memory.read s.mem a') ∧
    (∀ h : HostAction, s.host = h :: rest → HostAction.resets s.params.mmioBase h →
      ∃ t : State, step s = .next t ∧ t.host = rest ∧ t.hostData = s.hostData ∧ t.freeCount = s.freeCount)

/-- R45: reserved offsets and reserved bits read 0; a write to a reserved offset or a read-only register is ignored. -/
def Obligations.ReservedSpaceReadsZero : Prop :=
  ∀ (s : State) (off : Nat) (v : Word), off % 4 = 0 → off < 4096 →
    (((0x02C ≤ off ∧ off ≤ 0x03C) ∨ (0x078 ≤ off ∧ off ≤ 0x07C) ∨ (0x0B0 ≤ off ∧ off ≤ 0x0FC) ∨ off = 0x43C ∨
        0x540 ≤ off) → s.readReg off = 0#32 ∧ s.writeReg off v = s) ∧
    ((off = 0x000 ∨ off = 0x010 ∨ off = 0x028 ∨ (0x060 ≤ off ∧ off ≤ 0x074) ∨ (0x440 ≤ off ∧ off < 0x540)) →
      s.writeReg off v = s) ∧
    (s.readReg 0x008 &&& 0xFFFFF0E0#32 = 0#32 ∧ s.readReg 0x00C &&& 0xFFFFF8C1#32 = 0#32 ∧
      s.readReg 0x014 &&& 0xFFFFF8C0#32 = 0#32 ∧ s.readReg 0x028 &&& 0xFFFFFFF8#32 = 0#32 ∧
      s.readReg 0x06C &&& 0xFFFFFF00#32 = 0#32 ∧ s.readReg 0x438 &&& 0xFFFFFF00#32 = 0#32) ∧
    (s.writeReg 0x008 v = s.writeReg 0x008 (v &&& 0x0000000A#32)) ∧
    (s.writeReg 0x00C v = s.writeReg 0x00C (v &&& 0x0000073F#32)) ∧
    (s.writeReg 0x014 v = s.writeReg 0x014 (v &&& 0x0000073F#32)) ∧
    (s.writeReg 0x438 v = s.writeReg 0x438 (v &&& 0x000000FF#32))

/-- Which state the word at each offset of R20 shows, in every state and in the names the statements about commands use:
a register whole (R21, R23, R24, R27 to R35), BD_RANGE, BD_POS and BD_END (R36, R37; the low 32 bits of the 33 the model
holds of the last two, log 6), each byte or halfword lane of a file (R39 to R44); STATUS is StatusReadsAndWrites's, CMD
is CommandWriteRunsDecodedCommand's and the rest of the window ReservedSpaceReadsZero's. And a register reads what was
last written to it, in its writable bits, and a write changes no other word: for every RW register of R20 (`mask` gives
its writable bits), CTRL without SOFT_RESET. -/
def Obligations.RegisterWritesReadBack : Prop :=
  (∀ s : State,
    let byteOf := fun base k : Nat => (s.readReg (base + 4 * (k / 4))).extractLsb' (8 * (k % 4)) 8
    s.readReg 0x000 = 0x56503801#32 ∧ s.readReg 0x00C = s.ctrl &&& 0x0000073E#32 ∧ s.readReg 0x010 = s.res0 ∧
    s.readReg 0x014 = s.lfCfg &&& 0x0000073F#32 ∧ s.readReg 0x018 = s.lfSeg ∧ s.readReg 0x01C = s.lfRefd ∧
    s.readReg 0x020 = s.lfModed ∧ s.readReg 0x024 = s.dq ∧ (s.readReg 0x028).toNat = s.lastSharp.toNat ∧
    (∀ k : Nat, k < 8 → s.readReg (0x040 + 4 * k) = s.arg k) ∧
    s.readReg 0x060 = s.bd.value.extractLsb' 0 32 ∧
    s.readReg 0x064 = (match s.params.vs with | .bits32 => 0#32 | .bits64 => s.bd.value.extractLsb' 32 32) ∧
    s.readReg 0x068 = s.bd.count ∧ (s.readReg 0x06C).toNat = s.bd.range.toNat ∧
    s.readReg 0x070 = s.bd.pos.extractLsb' 0 32 ∧ s.readReg 0x074 = s.bd.stop.extractLsb' 0 32 ∧
    (∀ k : Nat, k < 16 → byteOf 0x080 k = s.probAt k) ∧
    (∀ k : Nat, k < 32 → byteOf 0x090 k = s.treeRam.getD k 0#8) ∧
    (∀ b i : Nat, b < 25 → i < 16 →
      ((s.readReg (0x100 + 4 * ((16 * b + i) / 2))).extractLsb' (16 * ((16 * b + i) % 2)) 16).toInt = s.coefAt b i) ∧
    (∀ b : Nat, b < 25 → (byteOf 0x420 b).toNat = s.eobAt b) ∧
    (∀ g f m : Nat, g < 4 → f < 4 → m < 4 → (byteOf 0x440 (16 * g + 4 * f + m)).toNat = s.lvlAt g f m) ∧
    ∀ l : Nat, l < 64 → (byteOf 0x480 l).toNat = s.limAt l ∧ (byteOf 0x4C0 l).toNat = s.blimAt l ∧
      (byteOf 0x500 l).toNat = s.mblimAt l) ∧
  ∀ (s : State) (off other : Nat) (v : Word), off % 4 = 0 → other % 4 = 0 → other < 4096 → other ≠ off →
    (∀ mask : Word,
      ((off = 0x00C ∧ v.getLsbD 0 = false ∧ mask = 0x0000073E#32) ∨ (off = 0x014 ∧ mask = 0x0000073F#32) ∨
        (((0x018 ≤ off ∧ off ≤ 0x024) ∨ (0x040 ≤ off ∧ off < 0x060) ∨ (0x080 ≤ off ∧ off < 0x0B0) ∨
          (0x100 ≤ off ∧ off < 0x438)) ∧ mask = 0xFFFFFFFF#32) ∨ (off = 0x438 ∧ mask = 0x000000FF#32)) →
      (s.writeReg off v).readReg off = v &&& mask ∧ (s.writeReg off v).readReg other = s.readReg other)

/-- R26: the fields of STATUS as read, and what a write to it changes (its `meaning` column apart, which the statements
about commands hold). -/
def Obligations.StatusReadsAndWrites : Prop :=
  ∀ (s : State) (v : Word),
    let r := s.readReg 0x008
    (r.getLsbD 0 = s.busy ∧ r.getLsbD 1 = s.done ∧ r.getLsbD 2 = s.bdErr ∧ r.getLsbD 3 = s.cmdErr ∧
      r.getLsbD 4 = s.bdReady ∧ r.extractLsb' 5 3 = 0#3 ∧ r.extractLsb' 8 4 = s.errCode ∧ r.extractLsb' 12 20 = 0#20) ∧
    ∃ t : State, s.writeReg 0x008 v = t ∧ t = { s with done := t.done, cmdErr := t.cmdErr, errCode := t.errCode } ∧
      t.done = (if v.getLsbD 1 = true then false else s.done) ∧
      t.cmdErr = (if v.getLsbD 3 = true then false else s.cmdErr) ∧
      t.errCode = (if v.getLsbD 3 = true then 0#4 else s.errCode)

/-- R49: BD_ERR is 1 exactly when VS < BD_COUNT < LOTS_OF_BITS as signed integers; at reset it is 0. -/
def Obligations.BdErrRule : Prop :=
  (∀ s : State, ((s.readReg 0x008).getLsbD 2 = true ↔
    ((match s.params.vs with | .bits32 => (32 : Int) | .bits64 => 64) < s.bd.count.toInt ∧
      s.bd.count.toInt < 0x40000000))) ∧
  ∀ p : Params, (State.resetWith p).bdErr = false

/-- R270: the interrupt output is IRQ_EN and (DONE or CMD_ERR); the host clears it by writing 1 to those bits of STATUS,
or masks it by writing 0 to IRQ_EN without clearing the cause. -/
def Obligations.InterruptRule : Prop :=
  ∀ s : State,
    (s.irq = true ↔ (s.ctrl.getLsbD 1 = true ∧ (s.done = true ∨ s.cmdErr = true))) ∧
    (∀ v : Word, v.getLsbD 1 = true → v.getLsbD 3 = true → (s.writeReg 0x008 v).irq = false) ∧
    (∀ v : Word, v.getLsbD 0 = false → v.getLsbD 1 = false →
      (s.writeReg 0x00C v).irq = false ∧ (s.writeReg 0x00C v).done = s.done ∧ (s.writeReg 0x00C v).cmdErr = s.cmdErr)

/-! Reset. -/

/-- R290: what a reset, by the reset input or by a write to CTRL, leaves in every register, for every value of the
parameters; it leaves frame memory as it was. The state after power-on holds the same values. -/
def Obligations.ResetRegisterValues : Prop :=
  ∀ (s : State) (h : HostAction) (rest : List HostAction), s.host = h :: rest →
    HostAction.resets s.params.mmioBase h →
    ∃ t : State, step s = .next t ∧ t.mem = s.mem ∧ t.params = s.params ∧
      (∀ u : State, u = t ∨ u = State.reset →
        u.irq = false ∧ u.readReg 0x000 = 0x56503801#32 ∧ u.readReg 0x008 = 0#32 ∧ u.ctrl = 0#32 ∧ u.res0 = 0#32 ∧
        u.lfCfg = 0#32 ∧ u.lfSeg = 0#32 ∧ u.lfRefd = 0#32 ∧ u.lfModed = 0#32 ∧ u.dq = 0#32 ∧ u.lastSharp = 0#3 ∧
        u.busy = false ∧ u.done = false ∧ u.cmdErr = false ∧ u.bdReady = false ∧ u.errCode = 0#4 ∧ u.bdErr = false ∧
        (∀ k : Nat, k < 8 → u.arg k = 0#32) ∧
        u.bd.value = 0#64 ∧ u.bd.count = 0#32 ∧ u.bd.range = 255#8 ∧ u.bd.pos = 0#33 ∧ u.bd.stop = 0#33 ∧
        (∀ k : Nat, k < 16 → u.probAt k = 128#8) ∧ (∀ k : Nat, k < 32 → u.treeRam.getD k 0#8 = 0#8) ∧
        (∀ b i : Nat, b < 25 → i < 16 → u.coefAt b i = 0) ∧ (∀ b : Nat, b < 25 → u.eobAt b = 0) ∧
        (∀ g f m : Nat, g < 4 → f < 4 → m < 4 → u.lvlAt g f m = 0) ∧
        (∀ l : Nat, l < 64 → u.limAt l = max l 1 ∧ u.blimAt l = 2 * l + max l 1 ∧
          u.mblimAt l = 2 * (l + 2) + max l 1))

/-- R291: a write to CTRL with bit 0 = 1 resets the accelerator whatever its other bits, so that CTRL reads 0 afterwards
and the next read returns reset values; with bit 0 = 0 it is a configuration write, of the writable bits of R27. That the
step takes the access off the list of the host's coming accesses is the model's choice (log 1). -/
def Obligations.SoftResetRule : Prop :=
  ∀ (s : State) (rest : List HostAction) (v : Word), s.busy = false →
    s.host = .regWrite 32 (s.params.mmioBase + 0x00C) v :: rest →
    (v.getLsbD 0 = true →
      step s = step { s with host := .resetInput :: rest } ∧
      ∃ t : State, step s = .next t ∧ t.readReg 0x00C = 0#32 ∧
        ∀ off : Nat, t.readReg off = (State.resetWith s.params).readReg off) ∧
    (v.getLsbD 0 = false → step s = .next { s with host := rest, ctrl := v &&& 0x0000073E#32 })

/-- R292: only a reset clears BD_READY; only a reset or LF_FRAME_INIT returns LAST_SHARP to 0; reset changes neither ID
nor frame memory (the constant tables are no state). R284 (60_exceptions.md): between commands all state is held; that a
step with no access pending therefore keeps the whole state is the model's inference (log 11). -/
def Obligations.ReadyClearedOnlyByReset : Prop :=
  (∀ (s t : State) (h : HostAction) (rest : List HostAction), s.host = h :: rest → step s = .next t →
    (s.bdReady = true → t.bdReady = false → HostAction.resets s.params.mmioBase h) ∧
    (s.lastSharp ≠ 0#3 → t.lastSharp = 0#3 →
      HostAction.resets s.params.mmioBase h ∨ HostAction.issues s.params.mmioBase 0x00000050#32 h) ∧
    (HostAction.resets s.params.mmioBase h → t.mem = s.mem ∧ t.readReg 0x000 = s.readReg 0x000)) ∧
  (∀ s t : State, s.host = [] → step s = .next t → t = s)

/-! The invariant, and what a command may change. -/

/-- The reset state meets the invariant, for every choice of the parameters. -/
def Obligations.ResetMeetsInvariant : Prop := ∀ p : Params, (State.resetWith p).Inv

/-- Every step from a state that meets the invariant leads to one: STATUS holds a code only with CMD_ERR, reserved bits
read 0, the limit tables are those of LAST_SHARP, levels are at most 63, the decoder's registers stay in their ranges
with BD_POS <= BD_END (R36, R37, R102), the unread stream stays admitted (R76), memory stays in its canonical form.
That BD_END may be 2^32 is the model's inference (log 6). -/
def Obligations.StepKeepsInvariant : Prop := ∀ s t : State, s.Inv → step s = .next t → t.Inv

/-- R263: every command ends with DONE = 1 and BUSY = 0, either without error, CMD_ERR and ERR_CODE as they were, or
failed with a code of R261, having changed nothing but DONE, CMD_ERR and ERR_CODE (R262); and it does so whatever DONE,
CMD_ERR and ERR_CODE held. DONE and CMD_ERR stay 1 until the host writes 1 to them, or a reset; BD_ERR reads as a
function of the current BD_COUNT. -/
def Obligations.CommandsEnd : Prop :=
  (∀ (i : Instr) (s : State),
    (∃ t : State, t.done = true ∧ t.busy = false ∧ ∀ (d c : Bool) (e : BitVec 4),
      exec i { s with done := d, cmdErr := c, errCode := e } = .next { t with cmdErr := c, errCode := e }) ∨
    (∃ code : BitVec 4, 1 ≤ code.toNat ∧ code.toNat ≤ 7 ∧ ∀ (d c : Bool) (e : BitVec 4),
      exec i { s with done := d, cmdErr := c, errCode := e } =
        .next { s with done := true, busy := false, cmdErr := true, errCode := code })) ∧
  (∀ (s t : State) (h : HostAction) (rest : List HostAction), s.host = h :: rest → step s = .next t →
    ¬ HostAction.resets s.params.mmioBase h →
    (s.done = true → t.done = false → ∃ v : Word, h = .regWrite 32 (s.params.mmioBase + 0x008) v ∧ v.getLsbD 1 = true) ∧
    (s.cmdErr = true → t.cmdErr = false →
      ∃ v : Word, h = .regWrite 32 (s.params.mmioBase + 0x008) v ∧ v.getLsbD 3 = true)) ∧
  ∀ s : State, (s.readReg 0x008).getLsbD 2 = bdErrOf s.params.vs s.bd

/-- What each command may change, over the whole state: no command writes an ARG register (R21), a configuration
register, PROB or TREE_RAM; RES0 is written by BD_BOOL, BD_LITERAL and TREE_READ alone (R23), the decoder's registers by
them and BD_INIT, BD_READY by BD_INIT, COEF and EOB by the transform commands, the loop-filter tables by LF_FRAME_INIT,
frame memory by the commands of R71 that write it. -/
def Obligations.CommandsChangeOnlyTheirState : Prop :=
  ∀ (i : Instr) (s t : State), exec i s = .next t →
    t = { s with
      res0 := t.res0, busy := t.busy, done := t.done, cmdErr := t.cmdErr, bdReady := t.bdReady, errCode := t.errCode,
      lastSharp := t.lastSharp, bd := t.bd, coef := t.coef, eob := t.eob, lvl := t.lvl, lim := t.lim, blim := t.blim,
      mblim := t.mblim, mem := t.mem } ∧
    (i.isDecoding = false → t.res0 = s.res0) ∧
    (i.isDecoding = false → i ≠ .bdInit → t.bd = s.bd) ∧
    (i ≠ .bdInit → t.bdReady = s.bdReady) ∧
    (i.writesCoef = false → t.coef = s.coef) ∧
    (i ≠ .coefClear → t.eob = s.eob) ∧
    (i ≠ .lfFrameInit →
      t.lastSharp = s.lastSharp ∧ t.lvl = s.lvl ∧ t.lim = s.lim ∧ t.blim = s.blim ∧ t.mblim = s.mblim) ∧
    (i.writesMemory = false → t.mem = s.mem)

/-- R64: a command with legal fields of whose footprint one byte is not admitted fails with MEM_FAULT (5) and changes
STATUS alone; BD_INIT also when its buffer wraps (R76). The footprint of each command is the bytes its rule gives, which
State.Touches writes out (R76, R146, R182 to R184, R187, R208, R226, R230). No step changes ADMIT. -/
def Obligations.UnadmittedFootprintFails : Prop :=
  (∀ (i : Instr) (s : State), i.fieldError = none →
    ((∃ a ∈ s.footprintOf i, s.admits a = false) ∨ s.bufferWraps i = true) →
    exec i s = .next { s with done := true, busy := false, cmdErr := true, errCode := 5#4 }) ∧
  (∀ (i : Instr) (s : State) (a : Addr), a ∈ s.footprintOf i ↔ s.Touches a i) ∧
  ∀ s t : State, step s = .next t → ∀ a : Addr, t.admits a = s.admits a

/-- A command with legal fields and an admitted footprint, other than a decoding command, completes without error. -/
def Obligations.PreparedCommandsComplete : Prop :=
  ∀ (i : Instr) (s : State), i.fieldError = none → i.isDecoding = false →
    (∀ a ∈ s.footprintOf i, s.admits a = true) → s.bufferWraps i = false →
    ∃ t : State, exec i s = .next t ∧ t.done = true ∧ t.busy = false ∧ t.cmdErr = s.cmdErr ∧ t.errCode = s.errCode

/-- R38: BD_READY is 0 after reset and set by a BD_INIT that completes; while it is 0, BD_BOOL, BD_LITERAL and TREE_READ
(with legal fields) fail with BD_NOT_READY (6) and change STATUS alone. -/
def Obligations.NotReadyUntilBdInit : Prop :=
  (∀ p : Params, (State.resetWith p).bdReady = false) ∧
  (∀ s : State, (s.arg 0).toNat + (s.arg 1).toNat ≤ 2 ^ 32 →
    (∀ a ∈ s.footprintOf .bdInit, s.admits a = true) → ∃ t : State, exec .bdInit s = .next t ∧ t.bdReady = true) ∧
  (∀ (i : Instr) (s : State), i.isDecoding = true → i.fieldError = none → s.bdReady = false →
    exec i s = .next { s with done := true, busy := false, cmdErr := true, errCode := 6#4 })

/-- R275: NOP sets DONE and changes nothing else; a word of its opcode with another bit set fails with RESERVED_FIELD (2)
and changes STATUS alone. -/
def Obligations.NopOnlySetsDone : Prop :=
  ∀ s : State,
    (s.busy = false → exec .nop s = .next { s with done := true }) ∧ decode 0x00000000#32 = .ok .nop ∧
    ∀ w : Word, w.toNat % 256 = 0 → w.toNat / 256 ≠ 0 →
      runCommand w s = .next { s with done := true, busy := false, cmdErr := true, errCode := 2#4 }

/-! The boolean decoder. -/

/-- R100: NORM. -/
def Obligations.NormTable : Prop :=
  Machine.norm 0 = 0 ∧ (∀ r : Nat, 1 ≤ r → r ≤ 255 → Machine.norm r = 7 - Nat.log2 r) ∧
  ∀ r : Nat, (r = 1 → Machine.norm r = 7) ∧ (2 ≤ r ∧ r ≤ 3 → Machine.norm r = 6) ∧ (4 ≤ r ∧ r ≤ 7 → Machine.norm r = 5) ∧
    (8 ≤ r ∧ r ≤ 15 → Machine.norm r = 4) ∧ (16 ≤ r ∧ r ≤ 31 → Machine.norm r = 3) ∧ (32 ≤ r ∧ r ≤ 63 → Machine.norm r = 2) ∧
    (64 ≤ r ∧ r ≤ 127 → Machine.norm r = 1) ∧ (128 ≤ r ∧ r ≤ 255 → Machine.norm r = 0)

/-- R36: BD_RANGE is 255 after reset and after BD_INIT, and in [128, 255] after every decision; it reads in bits [7:0]
of its register, which ignores writes. -/
def Obligations.RangeStaysNormalised : Prop :=
  (∀ p : Params, (State.resetWith p).bd.range = 255#8) ∧
  (∀ s : State, (s.arg 0).toNat + (s.arg 1).toNat ≤ 2 ^ 32 → (∀ a ∈ s.footprintOf .bdInit, s.admits a = true) →
    ∃ t : State, exec .bdInit s = .next t ∧ t.bd.range = 255#8) ∧
  (∀ (vs : ValueSize) (m : Memory) (p : Byte) (bd : BoolDecoder), DecoderInRange vs bd →
    128 ≤ (decodeBool vs m p bd).2.range.toNat ∧ (decodeBool vs m p bd).2.range.toNat ≤ 255) ∧
  (∀ (s : State) (v : Word), s.readReg 0x06C = s.bd.range.setWidth 32 ∧ s.writeReg 0x06C v = s)

/-- R102: a refill (BD_COUNT in -8..-1) loads floor(shift / 8) + 1 bytes when more than fit remain, and then fewer than
remain, and else exactly the rest, with the sentinel; byte j lands at bit shift - 8j; BD_RANGE and BD_END stay; BD_COUNT
does not exceed LOTS_OF_BITS + VS. -/
def Obligations.RefillLoadsExactly : Prop :=
  ∀ (vs : ValueSize) (m : Memory) (bd : BoolDecoder),
    bd.pos.toNat ≤ bd.stop.toNat → bd.stop.toNat ≤ 2 ^ 32 → -8 ≤ bd.count.toInt → bd.count.toInt < 0 →
    ∃ n : Nat,
      let shift : Int := (match vs with | .bits32 => 32 | .bits64 => 64) - 8 - (bd.count.toInt + 8)
      let left : Int := 8 * ((bd.stop.toNat : Int) - bd.pos.toNat)
      let z := refill vs m bd
      (shift + 8 < left → (n : Int) = shift / 8 + 1 ∧ bd.pos.toNat + n < bd.stop.toNat ∧
        z.count.toInt = bd.count.toInt + 8 * n) ∧
      (left ≤ shift + 8 → bd.pos.toNat + n = bd.stop.toNat ∧
        z.count.toInt = bd.count.toInt + 8 * n + 0x40000000) ∧
      z.pos.toNat = bd.pos.toNat + n ∧ z.stop = bd.stop ∧ z.range = bd.range ∧
      z.count.toInt ≤ 0x40000000 + (match vs with | .bits32 => 32 | .bits64 => 64) ∧
      ∀ k : Nat, (z.value.getLsbD k = true ↔ (bd.value.getLsbD k = true ∨
        ∃ j : Nat, j < n ∧ shift - 8 * j ≤ k ∧
          (Memory.read m (BitVec.ofNat 32 (bd.pos.toNat + j))).getLsbD ((k : Int) - (shift - 8 * j)).toNat = true))

/-- R105: the split lies in 1..BD_RANGE - 1; the decision compares BD_VALUE, refilled where BD_COUNT is negative, with
the split at its top, and leaves the chosen part of the interval normalised by NORM. -/
def Obligations.DecodeBoolDecides : Prop :=
  ∀ (vs : ValueSize) (m : Memory) (p : Byte) (bd : BoolDecoder), DecoderInRange vs bd →
    ∃ split : Nat, split = 1 + ((bd.range.toNat - 1) * p.toNat) / 256 ∧ 1 ≤ split ∧ split ≤ bd.range.toNat - 1 ∧
      ∃ full : BoolDecoder, full = (if bd.count.toInt < 0 then refill vs m bd else bd) ∧ full.range = bd.range ∧
        let bigsplit := split * 2 ^ ((match vs with | .bits32 => 32 | .bits64 => 64) - 8)
        let d := decodeBool vs m p bd
        let leaves := fun (bit r value : Nat) =>
          d.1 = bit ∧ 1 ≤ r ∧ d.2.range.toNat = r * 2 ^ Machine.norm r ∧ 128 ≤ r * 2 ^ Machine.norm r ∧ r * 2 ^ Machine.norm r ≤ 255 ∧
            d.2.value.toNat = value * 2 ^ Machine.norm r % 2 ^ (match vs with | .bits32 => 32 | .bits64 => 64) ∧
            d.2.count.toInt = full.count.toInt - Machine.norm r ∧ d.2.pos = full.pos ∧ d.2.stop = full.stop
        (bigsplit ≤ full.value.toNat → leaves 1 (bd.range.toNat - split) (full.value.toNat - bigsplit)) ∧
        (full.value.toNat < bigsplit → leaves 0 split full.value.toNat)

/-- R108, R71 (c), R76: the decoding commands are a function of the unread stream bytes, the probabilities and VS: two
states that agree on those (and on TREE_RAM and the decoder) end alike, whatever else memory and the registers hold. -/
def Obligations.DecodingReadsOnlyTheStream : Prop :=
  ∀ (i : Instr) (s u : State), i.isDecoding = true → DecoderInRange s.params.vs s.bd →
    u.params.vs = s.params.vs → u.bd = s.bd → u.bdReady = s.bdReady → u.prob = s.prob → u.treeRam = s.treeRam →
    u.res0 = s.res0 → u.cmdErr = s.cmdErr → u.errCode = s.errCode →
    (∀ a : Addr, s.bd.pos.toNat ≤ a.toNat → a.toNat < s.bd.stop.toNat → Memory.read u.mem a = Memory.read s.mem a) →
    ∃ s' u' : State, exec i s = .next s' ∧ exec i u = .next u' ∧ u'.res0 = s'.res0 ∧ u'.bd = s'.bd ∧
      u'.cmdErr = s'.cmdErr ∧ u'.errCode = s'.errCode ∧ s'.mem = s.mem ∧ u'.mem = u.mem

/-- R101: BD_INIT on an admitted buffer that does not wrap completes: the registers it writes, refilled, BD_READY, and
nothing else; with no byte in the buffer BD_ERR is 1 at once; with VS = 64 and 8 bytes or more the refill loads 8 bytes
and BD_COUNT is 56, with the sentinel added where those 8 are the whole buffer (R102; log 17). For a buffer that ends at
the last address, a + n = 2^32 (R76), that BD_END holds 2^32, in 33 bits where R37 has ADDR_W, is the model's inference
(log 6). -/
def Obligations.BdInitStartsTheStream : Prop :=
  ∀ (s : State) (a n : Nat), a = (s.arg 0).toNat → n = (s.arg 1).toNat → a + n ≤ 2 ^ 32 →
    (∀ x : Addr, a ≤ x.toNat → x.toNat < a + n → s.admits x = true) →
    ∃ bd : BoolDecoder,
      exec .bdInit s = .next { s with bd := bd, bdReady := true, done := true, busy := false } ∧
      bd = refill s.params.vs s.mem
        { value := 0#64, count := BitVec.ofInt 32 (-8), range := 255#8, pos := BitVec.ofNat 33 a,
          stop := BitVec.ofNat 33 (a + n) } ∧
      (n = 0 → bd.value = 0#64 ∧ bd.count.toInt = 0x40000000 - 8 ∧ bdErrOf s.params.vs bd = true) ∧
      (s.params.vs = .bits64 → 8 ≤ n →
        bd.pos.toNat = a + 8 ∧ bd.count.toInt = 56 + (if n = 8 then 0x40000000 else 0))

/-- R101, R103 (corner cases): after BD_INIT on an empty buffer every decision is 0, whatever its probability. -/
def Obligations.EmptyBufferDecodesZeros : Prop :=
  ∀ (s t : State) (ps : List Byte), (s.arg 1).toNat = 0 → exec .bdInit s = .next t →
    t = { s with bd := t.bd, bdReady := true, done := true, busy := false } ∧
    ∃ u : State, runBools ps t = some (List.replicate ps.length 0#32, u)

/-- R103: once BD_READY, BD_BOOL completes: RES0 is the decision, the decoder's registers move, nothing else changes. -/
def Obligations.BdBoolDecodes : Prop :=
  ∀ (p : Byte) (s : State), s.bdReady = true →
    exec (.bdBool p) s = .next { s with
      res0 := BitVec.ofNat 32 (decodeBool s.params.vs s.mem p s.bd).1, bd := (decodeBool s.params.vs s.mem p s.bd).2,
      done := true, busy := false }

/-- R104, R89: once BD_READY, BD_LITERAL of k bits completes with the result and the decoder of k BD_BOOL commands of
probability 128, the bits most significant first, and changes nothing else; the value is below 2^k. -/
def Obligations.LiteralIsBoolCommands : Prop :=
  ∀ (k : BitVec 5) (s : State), s.bdReady = true →
    ∃ (bits : List Word) (u t : State),
      runBools (List.replicate k.toNat 128#8) s = some (bits, u) ∧ exec (.bdLiteral k) s = .next t ∧
      t = { s with res0 := t.res0, bd := u.bd, done := true, busy := false } ∧ t.res0.toNat = msbFirst bits ∧
      t.res0.toNat < 2 ^ k.toNat ∧ bits.length = k.toNat ∧ ∀ b ∈ bits, b = 0#32 ∨ b = 1#32

/-- R108: the bits decoded from a buffer do not depend on VS: after BD_INIT on the same bytes, with VS = 32 and with
VS = 64, every sequence of BD_BOOL commands leaves the same results. A buffer that ends at 2^32 is log 6's. -/
def Obligations.DecodedBitsDoNotDependOnVs : Prop :=
  ∀ (s t32 t64 : State) (ps : List Byte), (s.arg 0).toNat + (s.arg 1).toNat ≤ 2 ^ 32 →
    (∀ a ∈ s.footprintOf .bdInit, s.admits a = true) →
    exec .bdInit { s with params := { s.params with vs := .bits32 } } = .next t32 →
    exec .bdInit { s with params := { s.params with vs := .bits64 } } = .next t64 →
    ∃ (bits : List Word) (u32 u64 : State),
      runBools ps t32 = some (bits, u32) ∧ runBools ps t64 = some (bits, u64) ∧ bits.length = ps.length

/-- R106: for a buffer of n bytes at a and any decisions whose shifts sum to C, BD_COUNT is LOTS_OF_BITS + 8n - 8 - C
once the sentinel has been added (the buffer is read to its end), before that 8L - 8 - C <= VS - 8 with L bytes loaded;
so BD_ERR implies C > 8n - 8, and once C > 8n - 8 the next decision at the latest leaves BD_ERR = 1. For C below 2^29:
the rule's wording is unbounded, and a sentinel of 2^30 runs out after that many shifts. A buffer that ends at 2^32
is log 6's. -/
def Obligations.EndOfBufferIsDetected : Prop :=
  ∀ (vs : ValueSize) (m : Memory) (a n : Nat) (ps : List Byte) (p : Byte), a + n ≤ 2 ^ 32 →
    let z := decisions vs m ps (refill vs m (bdStart a n))
    let C := z.2.1
    let bd := z.2.2
    C < 2 ^ 29 →
      (bd.pos.toNat = a + n → bd.count.toInt = 0x40000000 + 8 * n - 8 - C) ∧
      (bd.pos.toNat < a + n → bd.count.toInt = 8 * (bd.pos.toNat - a : Nat) - 8 - C ∧
        bd.count.toInt ≤ (match vs with | .bits32 => 32 | .bits64 => 64) - 8) ∧
      bd.pos.toNat ≤ a + n ∧
      (bdErrOf vs bd = true → 8 * (n : Int) - 8 < C) ∧
      (8 * (n : Int) - 8 < C → bdErrOf vs (decodeBool vs m p bd).2 = true)

/-! Tree reads. -/

/-- R121 (corner cases), R122, R123: the ten ROM trees and their lengths; tree 15 is TREE_RAM read as s8 and 10..14 are no
trees. A ROM tree never raises BAD_TREE: from every legal START the read completes, with a symbol of the tree, and changes
RES0 and the decoder alone. -/
def Obligations.RomTreesAlwaysYieldASymbol : Prop :=
  ((List.range 10).map romTree =
    [some [0, 2, 4, 6, -1, -2, -3, -4], some [-4, 2, 4, 6, 0, -1, -2, -3], some [0, 2, -1, 4, -2, -3],
     some [0, 2, -1, 4, -2, 6, 8, 12, -3, 10, -5, -6, -4, 14, -7, 16, -8, -9], some [-3, 2, -2, 4, 0, -1],
     some [-7, 2, -5, 4, -6, 6, -8, -9], some [-10, 2, -11, 4, -12, -13],
     some [2, 8, 4, 6, 0, -1, -2, -3, 10, 12, -4, -5, -6, -7], some [2, 4, 0, -1, -2, -3],
     some [-11, 2, 0, 4, -1, 6, 8, 12, -2, 10, -3, -4, 14, 16, -5, -6, 18, 20, -7, -8, -9, -10]]) ∧
  ((List.range 16).map (fun k => treeLen (BitVec.ofNat 4 k)) =
    [some 8, some 8, some 6, some 18, some 6, some 8, some 6, some 14, some 6, some 22, none, none, none, none, none,
     some 32]) ∧
  (∀ s : State, (∀ tree : BitVec 4, tree.toNat < 10 → s.treeOf tree = romTree tree.toNat) ∧
    (∀ tree : BitVec 4, 10 ≤ tree.toNat → tree.toNat ≤ 14 → s.treeOf tree = none) ∧
    s.treeOf 15#4 = some ((List.range 32).map fun k => (s.treeRam.getD k 0#8).toInt)) ∧
  ∀ (tree : BitVec 4) (start : BitVec 5) (s : State) (t : List Int), s.bdReady = true → tree.toNat < 10 →
    romTree tree.toNat = some t → start.toNat % 2 = 0 → start.toNat + 1 < t.length →
    ∃ u : State, exec (.treeRead tree start) s = .next u ∧
      u = { s with res0 := u.res0, bd := u.bd, done := true, busy := false } ∧ -(u.res0.toNat : Int) ∈ t

/-- R121, R126, with MAX_TREE_STEPS = 16: a read from a legal START completes exactly when the walk reaches a leaf in at
most 16 decisions inside the table, with its symbol and decoder; else it fails with BAD_TREE (7), the decoder's
registers as before. -/
def Obligations.TreeReadFollowsTheWalk : Prop :=
  ∀ (tree : BitVec 4) (start : BitVec 5) (s : State) (t : List Int), s.bdReady = true → s.treeOf tree = some t →
    start.toNat % 2 = 0 → start.toNat + 1 < t.length →
    (∀ (n sym : Nat) (bd : BoolDecoder), Walks s.params.vs s.mem s.probAt t start.toNat s.bd n sym bd → n ≤ 16 →
      exec (.treeRead tree start) s =
        .next { s with res0 := BitVec.ofNat 32 sym, bd := bd, done := true, busy := false }) ∧
    ((∀ (n sym : Nat) (bd : BoolDecoder), Walks s.params.vs s.mem s.probAt t start.toNat s.bd n sym bd → 16 < n) →
      exec (.treeRead tree start) s =
        .next { s with done := true, busy := false, cmdErr := true, errCode := 7#4 })

/-- R125: with TREE_RAM[0] = 0 and TREE_RAM[1] = -1, TREE_READ of tree 15 from 0 is one decision of probability PROB[0]:
it does what BD_BOOL of that probability does. -/
def Obligations.TwoLeafTreeIsBool : Prop :=
  ∀ s : State, s.treeRam.getD 0 0#8 = 0#8 → s.treeRam.getD 1 0#8 = BitVec.ofInt 8 (-1) →
    exec (.treeRead 15#4 0#5) s = exec (.bdBool (s.probAt 0)) s

/-! Coefficients and transforms. -/

/-- R142: DEQUANT of a block 0..24 completes: coefficient 0 is multiplied by DQ_DC, the others by DQ_AC, truncated to 16
bits; every other coefficient, EOB and all else are unchanged. -/
def Obligations.DequantMultiplies : Prop :=
  ∀ (blk : BitVec 5) (s : State), blk.toNat ≤ 24 →
    ∃ t : State, exec (.dequant blk) s = .next t ∧ t = { s with coef := t.coef, done := true, busy := false } ∧
      t.coefAt blk.toNat 0 = trunc16 (s.coefAt blk.toNat 0 * (s.dq.extractLsb' 0 16).toInt) ∧
      (∀ i : Nat, 1 ≤ i → i < 16 →
        t.coefAt blk.toNat i = trunc16 (s.coefAt blk.toNat i * (s.dq.extractLsb' 16 16).toInt)) ∧
      ∀ b i : Nat, b < 25 → i < 16 → b ≠ blk.toNat → t.coefAt b i = s.coefAt b i

/-- R143, R144, R145: IWHT writes the DC of luma block k with output k of the inverse WHT of block 24, IWHT_DC with
trunc16((dc + 3) >> 3); IWHT_AUTO does the first when EOB[24] > 1, else the second; all complete, and every other
coefficient and all else are unchanged. -/
def Obligations.InverseWhtWritesTheDcs : Prop :=
  ∀ s : State,
    let writes := fun (i : Instr) (good : (Nat → Int) → Prop) =>
      ∃ t : State, exec i s = .next t ∧ t = { s with coef := t.coef, done := true, busy := false } ∧
        good (fun k => t.coefAt k 0) ∧
        ∀ b i : Nat, b < 25 → i < 16 → ¬ (b < 16 ∧ i = 0) → t.coefAt b i = s.coefAt b i
    let full := fun dcs : Nat → Int => ∃ O : Nat → Int, IsInvWht (s.coefAt 24) O ∧ ∀ k : Nat, k < 16 → dcs k = O k
    let dcOnly := fun dcs : Nat → Int => ∀ k : Nat, k < 16 → dcs k = trunc16 ((s.coefAt 24 0 + 3) / 8)
    writes .iwht full ∧ writes .iwhtDc dcOnly ∧
      (1 < s.eobAt 24 → writes .iwhtAuto full) ∧ (s.eobAt 24 ≤ 1 → writes .iwhtAuto dcOnly)

/-- R147, R148, R149, R146: on a block 0..23 and an admitted footprint the three commands complete: the destination block
holds the clamped sum of the residual and the prediction bytes as they were before the command, the residual being
InvDCT of the block for IDCT_ADD (and IDCT_AUTO_ADD with EOB > 1), (dc + 4) >> 3 in every position for IDCT_DC_ADD (and
IDCT_AUTO_ADD with EOB <= 1); every other byte, the coefficients and all else are unchanged. -/
def Obligations.IdctAddsTheResidual : Prop :=
  ∀ (blk : BitVec 5) (s : State), blk.toNat ≤ 23 → (∀ a ∈ s.footprintOf (.idctAdd blk), s.admits a = true) →
    let adds := fun (i : Instr) (residual : (Nat → Int) → Prop) =>
      ∃ (t : State) (Y : Nat → Int), exec i s = .next t ∧ t = { s with mem := t.mem, done := true, busy := false } ∧
        residual Y ∧ s.AddsBlock Y t.mem
    let full := fun Y : Nat → Int => IsInvDct (s.coefAt blk.toNat) Y
    let dcOnly := fun Y : Nat → Int => ∀ k : Nat, Y k = (s.coefAt blk.toNat 0 + 4) / 8
    adds (.idctAdd blk) full ∧ adds (.idctDcAdd blk) dcOnly ∧
      (1 < s.eobAt blk.toNat → adds (.idctAutoAdd blk) full) ∧
      (s.eobAt blk.toNat ≤ 1 → adds (.idctAutoAdd blk) dcOnly)

/-- R144, R148 (corner cases): on a block whose coefficients 1..15 are all 0 the DC-only transforms do what the full ones
do. -/
def Obligations.DcOnlyTransformsAgree : Prop :=
  ∀ s : State,
    ((∀ i : Nat, 1 ≤ i → i < 16 → s.coefAt 24 i = 0) → exec .iwhtDc s = exec .iwht s) ∧
    ∀ blk : BitVec 5, (∀ i : Nat, 1 ≤ i → i < 16 → s.coefAt blk.toNat i = 0) →
      exec (.idctDcAdd blk) s = exec (.idctAdd blk) s

/-- R150: after COEF_CLEAR every COEF and EOB word reads 0; nothing else changes but DONE. -/
def Obligations.CoefClearClears : Prop :=
  ∀ s : State, ∃ t : State, exec .coefClear s = .next t ∧
    t = { s with coef := t.coef, eob := t.eob, done := true, busy := false } ∧
    (∀ b i : Nat, b < 25 → i < 16 → t.coefAt b i = 0 ∧ t.eobAt b = 0) ∧
    ∀ off : Nat, off % 4 = 0 → 0x100 ≤ off → off < 0x43C → t.readReg off = 0#32

/-! Prediction. -/

/-- R182, R170: INTRA_B4 with a mode 0..9 and an admitted footprint completes: the destination block holds Pred4 of the
mode on the neighbours as they were before the command; every other byte and all else are unchanged. The order of writes
to bytes a stride makes coincide is the model's (log 14). -/
def Obligations.IntraB4Predicts : Prop :=
  ∀ (mode : BitVec 4) (s : State), mode.toNat ≤ 9 → (∀ a ∈ s.footprintOf (.intraB4 mode), s.admits a = true) →
    ∃ (t : State) (md : SubMode) (above left : List Int) (corner : Int),
      exec (.intraB4 mode) s = .next t ∧ t = { s with mem := t.mem, done := true, busy := false } ∧
      [SubMode.bDc, .bTm, .bVe, .bHe, .bLd, .bRd, .bVr, .bVl, .bHd, .bHu][mode.toNat]? = some md ∧
      above = (List.range 8).map (fun j => Memory.pixel s.mem (pixAddr (s.arg 0) 0#32 0 (j : Nat))) ∧
      left = (List.range 4).map (fun r => Memory.pixel s.mem (pixAddr (s.arg 1) (s.arg 2) (r : Nat) 0)) ∧
      corner = Memory.pixel s.mem (pixAddr (s.arg 0) 0#32 0 (-1)) ∧
      StoresBlock s.mem t.mem (s.arg 3) (s.arg 4) 4 4 (pred4 md above left corner)

/-- R183, R184, R170: INTRA_Y16 (n = 16) and INTRA_UV8 (n = 8) with a mode 0..3 and an admitted footprint complete: the
n x n destination holds PredN of the mode, UP and LEFT on the neighbours as they were before the command; every other
byte and all else are unchanged. The order of writes to coinciding bytes is the model's (log 14). -/
def Obligations.IntraWholeBlockPredicts : Prop :=
  ∀ (i : Instr) (n : Nat) (mode : BitVec 4) (up left : Bool) (s : State), mode.toNat ≤ 3 →
    ((i = .intraY16 mode up left ∧ n = 16) ∨ (i = .intraUv8 mode up left ∧ n = 8)) →
    (∀ a ∈ s.footprintOf i, s.admits a = true) →
    ∃ (t : State) (md : BlockMode) (row column : List Int) (corner : Int),
      exec i s = .next t ∧ t = { s with mem := t.mem, done := true, busy := false } ∧
      [BlockMode.dc, .v, .h, .tm][mode.toNat]? = some md ∧
      row = (List.range n).map (fun j => Memory.pixel s.mem (pixAddr (s.arg 0) 0#32 0 (j : Nat))) ∧
      column = (List.range n).map (fun r => Memory.pixel s.mem (pixAddr (s.arg 1) (s.arg 2) (r : Nat) 0)) ∧
      corner = Memory.pixel s.mem (pixAddr (s.arg 0) 0#32 0 (-1)) ∧
      StoresBlock s.mem t.mem (s.arg 3) (s.arg 4) n n (predN n md row column corner up left)

/-- R173 to R177, R172: the pixels of the ten 4x4 modes, on any neighbours. -/
def Obligations.SubblockModeFormulas : Prop :=
  ∀ (a l : Nat → Int) (t : Int),
    let P := fun md => pred4 md ((List.range 8).map a) ((List.range 4).map l) t
    let avg2 := fun x y : Int => (x + y + 1) / 2
    let avg3 := fun x y z : Int => (x + 2 * y + z + 2) / 4
    let e := fun k : Nat => if k < 4 then l (3 - k) else if k = 4 then t else a (k - 5)
    (∀ r c : Nat, r < 4 → c < 4 →
      P .bDc r c = (a 0 + a 1 + a 2 + a 3 + l 0 + l 1 + l 2 + l 3 + 4) / 8 ∧
      P .bTm r c = min (max (l r + a c - t) 0) 255 ∧
      P .bVe r c = avg3 (if c = 0 then t else a (c - 1)) (a c) (a (c + 1)) ∧
      P .bHe r c = avg3 (if r = 0 then t else l (r - 1)) (l r) (l (min (r + 1) 3)) ∧
      P .bLd r c = avg3 (a (r + c)) (a (r + c + 1)) (a (min (r + c + 2) 7)) ∧
      P .bRd r c = avg3 (e (3 - r + c)) (e (3 - r + c + 1)) (e (3 - r + c + 2))) ∧
    (P .bVr 3 0 = avg3 (e 1) (e 2) (e 3) ∧ P .bVr 2 0 = avg3 (e 2) (e 3) (e 4) ∧
      P .bVr 3 1 = avg3 (e 3) (e 4) (e 5) ∧ P .bVr 1 0 = avg3 (e 3) (e 4) (e 5) ∧ P .bVr 2 1 = avg2 (e 4) (e 5) ∧
      P .bVr 0 0 = avg2 (e 4) (e 5) ∧ P .bVr 3 2 = avg3 (e 4) (e 5) (e 6) ∧ P .bVr 1 1 = avg3 (e 4) (e 5) (e 6) ∧
      P .bVr 2 2 = avg2 (e 5) (e 6) ∧ P .bVr 0 1 = avg2 (e 5) (e 6) ∧ P .bVr 3 3 = avg3 (e 5) (e 6) (e 7) ∧
      P .bVr 1 2 = avg3 (e 5) (e 6) (e 7) ∧ P .bVr 2 3 = avg2 (e 6) (e 7) ∧ P .bVr 0 2 = avg2 (e 6) (e 7) ∧
      P .bVr 1 3 = avg3 (e 6) (e 7) (e 8) ∧ P .bVr 0 3 = avg2 (e 7) (e 8)) ∧
    (P .bVl 0 0 = avg2 (a 0) (a 1) ∧ P .bVl 1 0 = avg3 (a 0) (a 1) (a 2) ∧ P .bVl 2 0 = avg2 (a 1) (a 2) ∧
      P .bVl 0 1 = avg2 (a 1) (a 2) ∧ P .bVl 1 1 = avg3 (a 1) (a 2) (a 3) ∧ P .bVl 3 0 = avg3 (a 1) (a 2) (a 3) ∧
      P .bVl 2 1 = avg2 (a 2) (a 3) ∧ P .bVl 0 2 = avg2 (a 2) (a 3) ∧ P .bVl 3 1 = avg3 (a 2) (a 3) (a 4) ∧
      P .bVl 1 2 = avg3 (a 2) (a 3) (a 4) ∧ P .bVl 0 3 = avg2 (a 3) (a 4) ∧ P .bVl 2 2 = avg2 (a 3) (a 4) ∧
      P .bVl 1 3 = avg3 (a 3) (a 4) (a 5) ∧ P .bVl 3 2 = avg3 (a 3) (a 4) (a 5) ∧
      P .bVl 2 3 = avg3 (a 4) (a 5) (a 6) ∧ P .bVl 3 3 = avg3 (a 5) (a 6) (a 7)) ∧
    (P .bHd 3 0 = avg2 (e 0) (e 1) ∧ P .bHd 3 1 = avg3 (e 0) (e 1) (e 2) ∧ P .bHd 2 0 = avg2 (e 1) (e 2) ∧
      P .bHd 3 2 = avg2 (e 1) (e 2) ∧ P .bHd 2 1 = avg3 (e 1) (e 2) (e 3) ∧ P .bHd 3 3 = avg3 (e 1) (e 2) (e 3) ∧
      P .bHd 2 2 = avg2 (e 2) (e 3) ∧ P .bHd 1 0 = avg2 (e 2) (e 3) ∧ P .bHd 2 3 = avg3 (e 2) (e 3) (e 4) ∧
      P .bHd 1 1 = avg3 (e 2) (e 3) (e 4) ∧ P .bHd 1 2 = avg2 (e 3) (e 4) ∧ P .bHd 0 0 = avg2 (e 3) (e 4) ∧
      P .bHd 1 3 = avg3 (e 3) (e 4) (e 5) ∧ P .bHd 0 1 = avg3 (e 3) (e 4) (e 5) ∧
      P .bHd 0 2 = avg3 (e 4) (e 5) (e 6) ∧ P .bHd 0 3 = avg3 (e 5) (e 6) (e 7)) ∧
    (P .bHu 0 0 = avg2 (l 0) (l 1) ∧ P .bHu 0 1 = avg3 (l 0) (l 1) (l 2) ∧ P .bHu 0 2 = avg2 (l 1) (l 2) ∧
      P .bHu 1 0 = avg2 (l 1) (l 2) ∧ P .bHu 0 3 = avg3 (l 1) (l 2) (l 3) ∧ P .bHu 1 1 = avg3 (l 1) (l 2) (l 3) ∧
      P .bHu 1 2 = avg2 (l 2) (l 3) ∧ P .bHu 2 0 = avg2 (l 2) (l 3) ∧ P .bHu 1 3 = avg3 (l 2) (l 3) (l 3) ∧
      P .bHu 2 1 = avg3 (l 2) (l 3) (l 3) ∧ P .bHu 2 2 = l 3 ∧ P .bHu 2 3 = l 3 ∧ P .bHu 3 0 = l 3 ∧
      P .bHu 3 1 = l 3 ∧ P .bHu 3 2 = l 3 ∧ P .bHu 3 3 = l 3)

/-- R179: the pixels of the four whole-block modes, on any neighbours, for n = 16 and n = 8. -/
def Obligations.WholeBlockModeFormulas : Prop :=
  ∀ (n : Nat) (a l : Nat → Int) (t : Int) (up left : Bool) (r c : Nat), n = 16 ∨ n = 8 → r < n → c < n →
    let P := fun md => predN n md ((List.range n).map a) ((List.range n).map l) t up left r c
    let sum := fun f : Nat → Int => ((List.range n).map f).sum
    let k : Int := if n = 16 then 1 else 0
    (up = false → left = false → P .dc = 128) ∧
    (up = true → left = false → P .dc = (sum a + 4 * (1 + k)) / (8 * (1 + k))) ∧
    (up = false → left = true → P .dc = (sum l + 4 * (1 + k)) / (8 * (1 + k))) ∧
    (up = true → left = true → P .dc = (sum a + sum l + 8 * (1 + k)) / (16 * (1 + k))) ∧
    P .v = a c ∧ P .h = l r ∧ P .tm = min (max (l r + a c - t) 0) 255

/-- R172, R173, R179, R204, R205: on u8 neighbours and u8 reference pixels every predicted pixel is 0..255, so no store
of a prediction truncates. -/
def Obligations.PredictionsArePixels : Prop :=
  (∀ (md : SubMode) (a l : Nat → Int) (t : Int) (r c : Nat), r < 4 → c < 4 → (∀ k : Nat, IsPixel (a k)) →
    (∀ k : Nat, IsPixel (l k)) → IsPixel t → IsPixel (pred4 md ((List.range 8).map a) ((List.range 4).map l) t r c)) ∧
  (∀ (n : Nat) (md : BlockMode) (a l : Nat → Int) (t : Int) (up left : Bool) (r c : Nat), n = 16 ∨ n = 8 → r < n →
    c < n → (∀ k : Nat, IsPixel (a k)) → (∀ k : Nat, IsPixel (l k)) → IsPixel t →
    IsPixel (predN n md ((List.range n).map a) ((List.range n).map l) t up left r c)) ∧
  (∀ (ref : Int → Int → Int) (fx fy : Nat) (r c : Int), fx < 8 → fy < 8 → (∀ i j : Int, IsPixel (ref i j)) →
    IsPixel (sixTapAt ref fx fy r c) ∧ IsPixel (bilinearAt ref fx fy r c))

/-- R187: ABOVE_RIGHT_COPY with an admitted footprint completes: the four bytes at D - S + 16, as they were before the
command, stand at D + 3S + 16, D + 7S + 16 and D + 11S + 16 (the last write in order k, j where addresses coincide); every
other byte and all else are unchanged. -/
def Obligations.AboveRightCopyCopies : Prop :=
  ∀ s : State, (∀ a ∈ s.footprintOf .aboveRightCopy, s.admits a = true) →
    let dest := fun k j : Nat => pixAddr (s.arg 0) (s.arg 1) (4 * (k : Int) + 3) (16 + (j : Int))
    ∃ t : State, exec .aboveRightCopy s = .next t ∧ t = { s with mem := t.mem, done := true, busy := false } ∧
      (∀ k j : Nat, k < 3 → j < 4 →
        (∀ k' j' : Nat, k' < 3 → j' < 4 → dest k' j' = dest k j → 4 * k' + j' ≤ 4 * k + j) →
        Memory.read t.mem (dest k j) = Memory.read s.mem (pixAddr (s.arg 0) (s.arg 1) (-1) (16 + (j : Int)))) ∧
      ∀ a : Addr, (∀ k j : Nat, k < 3 → j < 4 → dest k j ≠ a) → Memory.read t.mem a = Memory.read s.mem a

/-- R201, R200, R204, R205: MC_PRED with an admitted footprint completes: the destination block holds the copy where the
vector has no fraction, else the six-tap or, with INTERP = 1, the bilinear prediction, of the reference bytes as they
were before the command; every other byte and all else are unchanged. The order of writes to bytes a stride makes
coincide is the model's (log 14). -/
def Obligations.McPredPredicts : Prop :=
  ∀ (size : BitVec 2) (chroma : Bool) (s : State), (∀ a ∈ s.footprintOf (.mcPred size chroma), s.admits a = true) →
    ∃ (t : State) (w h : Nat) (col row : Int),
      [(4, 4), (8, 4), (8, 8), (16, 16)][size.toNat]? = some (w, h) ∧
      col = (if chroma then chromaMv (s.ctrl.getLsbD 3) ((s.arg 2).extractLsb' 0 16).toInt
        else ((s.arg 2).extractLsb' 0 16).toInt) ∧
      row = (if chroma then chromaMv (s.ctrl.getLsbD 3) ((s.arg 2).extractLsb' 16 16).toInt
        else ((s.arg 2).extractLsb' 16 16).toInt) ∧
      exec (.mcPred size chroma) s = .next t ∧ t = { s with mem := t.mem, done := true, busy := false } ∧
      let base := pixAddr (s.arg 0) (s.arg 1) (row / 8) (col / 8)
      let fx := (col % 8).toNat
      let fy := (row % 8).toNat
      let ref := refPixel s.mem base (s.arg 1)
      let stores := fun Q : Nat → Nat → Int => StoresBlock s.mem t.mem (s.arg 3) (s.arg 4) w h Q
      (fx = 0 → fy = 0 → stores fun r c => ref r c) ∧
      (¬ (fx = 0 ∧ fy = 0) → s.ctrl.getLsbD 2 = false → stores fun r c => sixTapAt ref fx fy r c) ∧
      (¬ (fx = 0 ∧ fy = 0) → s.ctrl.getLsbD 2 = true → stores fun r c => bilinearAt ref fx fy r c)

/-- R202, R203: the taps of every phase. R204 (phase 0 is the identity), R201 (at full-pixel positions six-tap equals the
copy): on u8 reference pixels, a phase of 0 leaves its direction unfiltered; the same of bilinear (R205). -/
def Obligations.PhaseZeroIsIdentity : Prop :=
  ((List.range 8).map sixTapTaps =
    [[0, 0, 128, 0, 0, 0], [0, -6, 123, 12, -1, 0], [2, -11, 108, 36, -8, 1], [0, -9, 93, 50, -6, 0],
     [3, -16, 77, 77, -16, 3], [0, -6, 50, 93, -9, 0], [1, -8, 36, 108, -11, 2], [0, -1, 12, 123, -6, 0]]) ∧
  ((List.range 8).map bilinearTaps =
    [(128, 0), (112, 16), (96, 32), (80, 48), (64, 64), (48, 80), (32, 96), (16, 112)]) ∧
  ∀ (ref : Int → Int → Int) (f : Nat) (r c : Int), (∀ i j : Int, IsPixel (ref i j)) → f < 8 →
    sixTapAt ref 0 0 r c = ref r c ∧ sixTapAt ref f 0 r c = sixTapSum f (fun j => ref r (c + j)) ∧
      sixTapAt ref 0 f r c = sixTapSum f (fun i => ref (r + i) c) ∧ bilinearAt ref 0 0 r c = ref r c ∧
      bilinearAt ref f 0 r c = bilinearFirst ref f r c ∧
      bilinearAt ref 0 f r c = (ref r c * (128 - 16 * f) + ref (r + 1) c * (16 * f) + 64) / 128

/-- R206: a chroma vector is half the luma vector rounded away from zero, and with FULLPIXEL rounded down to a multiple
of 8. -/
def Obligations.ChromaVectorRule : Prop :=
  (∀ v : Int, (0 ≤ v → chromaMv false v = (v + 1) / 2) ∧ (v < 0 → chromaMv false v = -((1 - v) / 2))) ∧
  (∀ v : Int, chromaMv true v % 8 = 0 ∧ chromaMv true v ≤ chromaMv false v ∧ chromaMv false v < chromaMv true v + 8) ∧
  (([-13, -7, -1, 0, 1, 2, 3, 5, 6, 13] : List Int).map (chromaMv false) = [-7, -4, -1, 0, 1, 1, 2, 3, 3, 7]) ∧
  (([-13, -7, -1, 0, 1, 2, 3, 5, 6, 13] : List Int).map (chromaMv true) = [-8, -8, -8, 0, 0, 0, 0, 0, 0, 0])

/-! The loop filter. -/

/-- R231: the limits for every sharpness and level; every value fits in a u8. -/
def Obligations.LimitTables : Prop :=
  ∀ sh l : Nat, sh ≤ 7 → l ≤ 63 →
    let b0 := if sh = 0 then l else if sh ≤ 4 then l / 2 else l / 4
    let b1 := if 0 < sh ∧ 9 - sh < b0 then 9 - sh else b0
    let b := max b1 1
    ((limTable sh).getD l 0#8).toNat = b ∧ ((blimTable sh).getD l 0#8).toNat = 2 * l + b ∧
      ((mblimTable sh).getD l 0#8).toNat = 2 * (l + 2) + b ∧ 2 * (l + 2) + b ≤ 193

/-- R240, R241: LF_FRAME_INIT completes; afterwards the limit tables and LAST_SHARP are those of CTRL.SHARPNESS (where it
differs from LAST_SHARP; else they stay), every entry of LVL is the level of R241, and nothing else has changed. -/
def Obligations.LfFrameInitBuildsTables : Prop :=
  ∀ s : State, ∃ t : State, exec .lfFrameInit s = .next t ∧
    t = { s with
      lim := t.lim, blim := t.blim, mblim := t.mblim, lastSharp := t.lastSharp, lvl := t.lvl, done := true,
      busy := false } ∧
    t.lastSharp = s.ctrl.extractLsb' 8 3 ∧
    (s.ctrl.extractLsb' 8 3 = s.lastSharp → t.lim = s.lim ∧ t.blim = s.blim ∧ t.mblim = s.mblim) ∧
    (s.ctrl.extractLsb' 8 3 ≠ s.lastSharp → ∀ l : Nat, l < 64 →
      t.limAt l = limOf t.lastSharp.toNat l ∧ t.blimAt l = 2 * l + limOf t.lastSharp.toNat l ∧
        t.mblimAt l = 2 * (l + 2) + limOf t.lastSharp.toNat l) ∧
    ∀ g : Nat, g < 4 →
      let level : Int := (s.lfCfg.extractLsb' 0 6).toNat
      let segment : Int := (s.lfSeg.extractLsb' (8 * g) 8).toInt
      let refDelta := fun f : Nat => (s.lfRefd.extractLsb' (8 * f) 8).toInt
      let modeDelta := fun m : Nat => (s.lfModed.extractLsb' (8 * m) 8).toInt
      let clamp := fun x : Int => min (max x 0) 63
      let ls := if s.lfCfg.getLsbD 8 then clamp (if s.lfCfg.getLsbD 9 then segment else level + segment) else level
      (s.lfCfg.getLsbD 10 = false → ∀ f m : Nat, f < 4 → m < 4 → (t.lvlAt g f m : Int) = ls) ∧
      (s.lfCfg.getLsbD 10 = true →
        (t.lvlAt g 0 0 : Int) = clamp (ls + refDelta 0 + modeDelta 0) ∧
        (t.lvlAt g 0 1 : Int) = clamp (ls + refDelta 0) ∧ t.lvlAt g 0 2 = 0 ∧ t.lvlAt g 0 3 = 0 ∧
        ∀ f : Nat, 1 ≤ f → f < 4 → t.lvlAt g f 0 = 0 ∧
          ∀ m : Nat, 1 ≤ m → m < 4 → (t.lvlAt g f m : Int) = clamp (ls + refDelta f + modeDelta m))

/-- R221 to R224, on pixels as integers (x^ is x - 128, what is stored is y + 128: R220): the two masks, and the new
pixels of the three filters; with mask 0 every output equals its input, and with hev set only p0 and q0 move. -/
def Obligations.PixelFiltersFollowTheRules : Prop :=
  ∀ (p3 p2 p1 p0 q0 q1 q2 q3 : Byte) (mask hev : Bool) (limit blimit thresh : Nat),
    let d := fun x y : Byte => ((x.toNat : Int) - y.toNat).natAbs
    let sg := fun x : Byte => (x.toNat : Int) - 128
    let sc := fun v : Int => min (max v (-128)) 127
    let only := fun (b : Bool) (v : Int) => if b then v else 0
    (filterMask limit blimit p3 p2 p1 p0 q0 q1 q2 q3 = true ↔
      d p3 p2 ≤ limit ∧ d p2 p1 ≤ limit ∧ d p1 p0 ≤ limit ∧ d q1 q0 ≤ limit ∧ d q2 q1 ≤ limit ∧ d q3 q2 ≤ limit ∧
        d p0 q0 * 2 + d p1 q1 / 2 ≤ blimit) ∧
    (hevMask thresh p1 p0 q0 q1 = true ↔ thresh < d p1 p0 ∨ thresh < d q1 q0) ∧
    (∃ a b x y : Byte, innerFilter mask hev p1 p0 q0 q1 = (a, b, x, y) ∧
      (let f := only mask (sc (only hev (sc (sg p1 - sg q1)) + 3 * (sg q0 - sg p0)))
       let f1 := sc (f + 4) / 8
       let f2 := sc (f + 3) / 8
       let o := only (!hev) ((f1 + 1) / 2)
       sg x = sc (sg q0 - f1) ∧ sg b = sc (sg p0 + f2) ∧ sg y = sc (sg q1 - o) ∧ sg a = sc (sg p1 + o)) ∧
      (mask = false → a = p1 ∧ b = p0 ∧ x = q0 ∧ y = q1) ∧ (hev = true → a = p1 ∧ y = q1)) ∧
    (∃ c a b x y z : Byte, mbFilter mask hev p2 p1 p0 q0 q1 q2 = (c, a, b, x, y, z) ∧
      (let f := only mask (sc (sc (sg p1 - sg q1) + 3 * (sg q0 - sg p0)))
       let qs := sc (sg q0 - sc (only hev f + 4) / 8)
       let ps := sc (sg p0 + sc (only hev f + 3) / 8)
       let u := fun k : Int => sc ((63 + only (!hev) f * k) / 128)
       sg x = sc (qs - u 27) ∧ sg b = sc (ps + u 27) ∧ sg y = sc (sg q1 - u 18) ∧ sg a = sc (sg p1 + u 18) ∧
         sg z = sc (sg q2 - u 9) ∧ sg c = sc (sg p2 + u 9)) ∧
      (mask = false → c = p2 ∧ a = p1 ∧ b = p0 ∧ x = q0 ∧ y = q1 ∧ z = q2) ∧
      (hev = true → c = p2 ∧ a = p1 ∧ y = q1 ∧ z = q2)) ∧
    (∃ b x : Byte, simpleFilter blimit p1 p0 q0 q1 = (b, x) ∧
      (let f := only (decide (d p0 q0 * 2 + d p1 q1 / 2 ≤ blimit)) (sc (sc (sg p1 - sg q1) + 3 * (sg q0 - sg p0)))
       sg x = sc (sg q0 - sc (f + 4) / 8) ∧ sg b = sc (sg p0 + sc (f + 3) / 8)) ∧
      (blimit < d p0 q0 * 2 + d p1 q1 / 2 → b = p0 ∧ x = q0))

/-- R228, R225 to R227: LF_EDGE of a kind 0..2 with an admitted footprint completes: the edge at ARG0 with pitch ARG1, 8
or 16 positions and the strengths of ARG2 is filtered position after position; every byte outside its write range, the
registers and the tables are unchanged. Of every edge: the byte X(i, k), the read and write ranges of each kind, and what
each kind passes to its filter. Where two offsets of one position name one byte the last in ascending order counts
(log 14); limit = blimit = 255 is no exception to R221's test (log 18). -/
def Obligations.LfEdgeFiltersTheEdge : Prop :=
  (∀ (dir : Bool) (kind : BitVec 2) (cnt : Bool) (s : State), kind.toNat ≤ 2 →
    (∀ a ∈ s.footprintOf (.lfEdge dir kind cnt), s.admits a = true) →
    ∃ (t : State) (e : EdgeJob) (k : EdgeKind), exec (.lfEdge dir kind cnt) s = .next t ∧
      t = { s with mem := t.mem, done := true, busy := false } ∧
      [EdgeKind.mb, .inner, .simple][kind.toNat]? = some k ∧
      e = { dir := if dir then .v else .h, kind := k, start := s.arg 0, pitch := s.arg 1,
            count := if cnt then 16 else 8, limit := ((s.arg 2).extractLsb' 0 8).toNat,
            blimit := ((s.arg 2).extractLsb' 8 8).toNat, thresh := ((s.arg 2).extractLsb' 16 8).toNat } ∧
      e.Done s.mem t.mem ∧ ∀ a : Addr, a ∉ e.written → Memory.read t.mem a = Memory.read s.mem a) ∧
  (readOffsets .mb = [-4, -3, -2, -1, 0, 1, 2, 3] ∧ readOffsets .inner = [-4, -3, -2, -1, 0, 1, 2, 3] ∧
    readOffsets .simple = [-2, -1, 0, 1] ∧ writeOffsets .mb = [-3, -2, -1, 0, 1, 2] ∧
    writeOffsets .inner = [-2, -1, 0, 1] ∧ writeOffsets .simple = [-1, 0]) ∧
  ∀ e : EdgeJob,
    (∀ (i : Nat) (k : Int),
      (e.dir = .h → e.addr i k = BitVec.ofInt 32 (e.start.toNat + i + k * e.pitch.toNat)) ∧
      (e.dir = .v → e.addr i k = BitVec.ofInt 32 (e.start.toNat + i * e.pitch.toNat + k))) ∧
    (∀ a : Addr, a ∈ e.written ↔ ∃ (i : Nat) (k : Int), i < e.count ∧ k ∈ writeOffsets e.kind ∧ e.addr i k = a) ∧
    ∀ x : Int → Byte,
      let m := filterMask e.limit e.blimit (x (-4)) (x (-3)) (x (-2)) (x (-1)) (x 0) (x 1) (x 2) (x 3)
      let h := hevMask e.thresh (x (-2)) (x (-1)) (x 0) (x 1)
      (e.kind = .mb → ∃ p2 p1 p0 q0 q1 q2 : Byte, e.filter x = [p2, p1, p0, q0, q1, q2] ∧
        mbFilter m h (x (-3)) (x (-2)) (x (-1)) (x 0) (x 1) (x 2) = (p2, p1, p0, q0, q1, q2)) ∧
      (e.kind = .inner → ∃ p1 p0 q0 q1 : Byte, e.filter x = [p1, p0, q0, q1] ∧
        innerFilter m h (x (-2)) (x (-1)) (x 0) (x 1) = (p1, p0, q0, q1)) ∧
      (e.kind = .simple → ∃ p0 q0 : Byte, e.filter x = [p0, q0] ∧
        simpleFilter e.blimit (x (-2)) (x (-1)) (x 0) (x 1) = (p0, q0))

/-- R230: LF_MB with a legal mode, an inter mode exactly with an inter reference, and an admitted footprint completes: the
edges of its list are filtered one after another; every byte outside their write ranges, the registers and the tables
are unchanged. A macroblock whose level is 0 has no edges, and every byte is unmodified, whatever is admitted (R243).
Where two offsets of one position name one byte the last in ascending order counts (log 14). -/
def Obligations.LfMbFiltersItsEdges : Prop :=
  ∀ (seg ref : BitVec 2) (mode : BitVec 4) (skip top leftMb : Bool) (s : State), mode.toNat ≤ 9 →
    (ref = 0#2 ↔ mode.toNat ≤ 4) →
    let es := s.edgesOfMb seg ref mode skip top leftMb
    (∀ e ∈ es, ∀ a ∈ e.footprint, s.admits a = true) →
    ∃ t : State, exec (.lfMb seg ref mode skip top leftMb) s = .next t ∧
      t = { s with mem := t.mem, done := true, busy := false } ∧ EdgesDone es s.mem t.mem ∧
      (∀ a : Addr, (∀ e ∈ es, a ∉ e.written) → Memory.read t.mem a = Memory.read s.mem a) ∧
      (s.lvlAt seg.toNat ref.toNat ([1, 1, 1, 1, 0, 2, 2, 1, 2, 3].getD mode.toNat 0) = 0 → es = [] ∧ t.mem = s.mem)

/-- R230: the list of edges of LF_MB at a level other than 0, each edge written as direction, kind, first byte, pitch,
length and (limit, blimit, thresh): the normal variant's by LEFTMB, inner, TOP, inner; the simple variant's, of luma
alone, likewise; TOP and LEFTMB and inner leave out what they leave out. -/
def Obligations.LfMbEdgeList : Prop :=
  ∀ (seg ref : BitVec 2) (mode : BitVec 4) (skip top leftMb : Bool) (s : State), mode.toNat ≤ 9 →
    let lvl := s.lvlAt seg.toNat ref.toNat ([1, 1, 1, 1, 0, 2, 2, 1, 2, 3].getD mode.toNat 0)
    let inner := !skip || decide (mode = 4#4) || decide (mode = 9#4)
    let es := s.edgesOfMb seg ref mode skip top leftMb
    let Y := s.arg 0
    let U := s.arg 1
    let V := s.arg 2
    let YS := s.arg 3
    let CS := s.arg 4
    let t := if s.ctrl.getLsbD 5 then (if 40 ≤ lvl then 3 else if 20 ≤ lvl then 2 else if 15 ≤ lvl then 1 else 0)
      else (if 40 ≤ lvl then 2 else if 15 ≤ lvl then 1 else 0)
    let only := fun (b : Bool) (l : List EdgeJob) => if b then l else []
    let M := fun (d : EdgeDir) (x p : Word) (n : Nat) => EdgeJob.mk d .mb x p n (s.limAt lvl) (s.mblimAt lvl) t
    let B := fun (d : EdgeDir) (x p : Word) (n : Nat) => EdgeJob.mk d .inner x p n (s.limAt lvl) (s.blimAt lvl) t
    let S := fun (d : EdgeDir) (x : Word) (l : Nat) => EdgeJob.mk d .simple x YS 16 0 l 0
    (lvl = 0 → es = []) ∧
    (lvl ≠ 0 → s.ctrl.getLsbD 4 = false →
      es = only leftMb [M .v Y YS 16, M .v U CS 8, M .v V CS 8] ++
        only inner [B .v (Y + 4#32) YS 16, B .v (Y + 8#32) YS 16, B .v (Y + 12#32) YS 16, B .v (U + 4#32) CS 8,
          B .v (V + 4#32) CS 8] ++
        only top [M .h Y YS 16, M .h U CS 8, M .h V CS 8] ++
        only inner [B .h (Y + 4#32 * YS) YS 16, B .h (Y + 8#32 * YS) YS 16, B .h (Y + 12#32 * YS) YS 16,
          B .h (U + 4#32 * CS) CS 8, B .h (V + 4#32 * CS) CS 8]) ∧
    (lvl ≠ 0 → s.ctrl.getLsbD 4 = true →
      es = only leftMb [S .v Y (s.mblimAt lvl)] ++
        only inner [S .v (Y + 4#32) (s.blimAt lvl), S .v (Y + 8#32) (s.blimAt lvl), S .v (Y + 12#32) (s.blimAt lvl)] ++
        only top [S .h Y (s.mblimAt lvl)] ++
        only inner [S .h (Y + 4#32 * YS) (s.blimAt lvl), S .h (Y + 8#32 * YS) (s.blimAt lvl),
          S .h (Y + 12#32 * YS) (s.blimAt lvl)])
end

