-- ==== Sys2Proof/Laws/Memory.lean ====
section
/-! SUPPORT. Frame memory: a read after a write, what a list of writes leaves, and the canonical form, which every
memory operation keeps. -/

namespace Sys2Proof.Machine.Memory

theorem read_erase (m : Memory) (a b : Addr) :
    read (erase m a) b = if a = b then Config.unlistedByte else read m b := by
  induction m with
  | nil => simp [erase, read]
  | cons e m ih =>
    obtain ⟨k, v⟩ := e
    unfold erase at ih ⊢
    by_cases hk : k = a.toNat
    · by_cases hab : a = b <;> simp_all [read]
      intro h; exact absurd (BitVec.eq_of_toNat_eq h) hab
    · by_cases hab : a = b <;> simp_all [read]

theorem read_insert (m : Memory) (a b : Addr) (v : Byte) (h : ∀ e ∈ m, e.1 ≠ a.toNat) :
    read (insert m a.toNat v) b = if a = b then v else read m b := by
  induction m with
  | nil => by_cases hab : a = b <;> simp_all [insert, read, BitVec.toNat_eq]
  | cons e m ih =>
    obtain ⟨k, w⟩ := e
    have hk : k ≠ a.toNat := h (k, w) (by simp)
    have ih' := ih fun e he => h e (by simp [he])
    by_cases hlt : a.toNat < k
    · by_cases hab : a = b <;> simp_all [insert, read, BitVec.toNat_eq]
    · rw [insert, if_neg hlt, read, read, ih']
      by_cases hab : a = b
      · subst hab; simp [hk]
      · simp [hab]

theorem erase_ne (m : Memory) (a : Addr) : ∀ e ∈ erase m a, e.1 ≠ a.toNat := by
  simp [erase]

/-- A read after a write: the byte written at its address, the old byte elsewhere. -/
theorem read_write (m : Memory) (a b : Addr) (v : Byte) : read (write m a v) b = if a = b then v else read m b := by
  unfold write
  split
  · subst v; exact read_erase m a b
  · rw [read_insert _ _ _ _ (erase_ne m a), read_erase]
    split <;> rfl

@[simp] theorem read_write_same (m : Memory) (a : Addr) (v : Byte) : read (write m a v) a = v := by simp [read_write]

theorem read_write_other (m : Memory) {a b : Addr} (h : a ≠ b) (v : Byte) : read (write m a v) b = read m b := by
  simp [read_write, h]

@[simp] theorem writeAll_nil (m : Memory) : writeAll m [] = m := rfl

@[simp] theorem writeAll_cons (m : Memory) (w : Addr × Byte) (ws : List (Addr × Byte)) :
    writeAll m (w :: ws) = writeAll (write m w.1 w.2) ws := rfl

theorem writeAll_append (m : Memory) (ws vs : List (Addr × Byte)) :
    writeAll m (ws ++ vs) = writeAll (writeAll m ws) vs := by simp [writeAll]

/-- The frame of a list of writes: every address it does not write reads as before. -/
theorem read_writeAll_of_not_mem (ws : List (Addr × Byte)) (m : Memory) (a : Addr) (h : a ∉ ws.map Prod.fst) :
    read (writeAll m ws) a = read m a := by
  induction ws generalizing m with
  | nil => rfl
  | cons w ws ih =>
    simp only [List.map_cons, List.mem_cons, not_or] at h
    rw [writeAll_cons, ih _ h.2, read_write_other _ (Ne.symm h.1)]

/-- The last write to an address is what it reads afterwards. -/
theorem read_writeAll_last (pre post : List (Addr × Byte)) (m : Memory) (a : Addr) (v : Byte)
    (h : a ∉ post.map Prod.fst) : read (writeAll m (pre ++ (a, v) :: post)) a = v := by
  rw [writeAll_append, writeAll_cons, read_writeAll_of_not_mem _ _ _ h]
  exact read_write_same _ _ _

theorem wfFrom_mono {lo lo' : Nat} (h : lo' ≤ lo) (m : Memory) (hm : wfFrom lo m = true) : wfFrom lo' m = true := by
  cases m with
  | nil => rfl
  | cons e m =>
    simp only [wfFrom, Bool.and_eq_true, decide_eq_true_eq] at hm ⊢
    exact ⟨⟨⟨by omega, hm.1.1.2⟩, hm.1.2⟩, hm.2⟩

theorem wfFrom_erase (m : Memory) (a : Addr) (lo : Nat) (h : wfFrom lo m = true) : wfFrom lo (erase m a) = true := by
  induction m generalizing lo with
  | nil => rfl
  | cons e m ih =>
    simp only [wfFrom, Bool.and_eq_true, decide_eq_true_eq] at h
    by_cases he : e.1 = a.toNat
    · have : erase (e :: m) a = erase m a := by simp [erase, he]
      rw [this]
      exact wfFrom_mono (by omega) _ (ih _ h.2)
    · have : erase (e :: m) a = e :: erase m a := by simp [erase, he]
      rw [this]
      simp only [wfFrom, Bool.and_eq_true, decide_eq_true_eq]
      exact ⟨h.1, ih _ h.2⟩

theorem wfFrom_insert (m : Memory) (k : Nat) (v : Byte) (lo : Nat) (h : wfFrom lo m = true) (hlo : lo ≤ k)
    (hk : k < Config.addrSpace) (hv : v ≠ Config.unlistedByte) (hm : ∀ e ∈ m, e.1 ≠ k) :
    wfFrom lo (insert m k v) = true := by
  induction m generalizing lo with
  | nil => simp [insert, wfFrom, hlo, hk, hv]
  | cons e m ih =>
    simp only [wfFrom, Bool.and_eq_true, decide_eq_true_eq] at h
    have hek : e.1 ≠ k := hm e (by simp)
    by_cases hlt : k < e.1
    · simp only [insert, hlt, ↓reduceIte, wfFrom, Bool.and_eq_true, decide_eq_true_eq, bne_iff_ne]
      exact ⟨⟨⟨hlo, hk⟩, hv⟩, ⟨⟨by omega, h.1.1.2⟩, by simpa using h.1.2⟩, h.2⟩
    · simp only [insert, hlt, ↓reduceIte, wfFrom, Bool.and_eq_true, decide_eq_true_eq]
      exact ⟨h.1, ih _ h.2 (by omega) fun e he => hm e (by simp [he])⟩

/-- A write keeps the canonical form. -/
theorem wf_write (m : Memory) (a : Addr) (v : Byte) (h : wf m = true) : wf (write m a v) = true := by
  unfold write
  split
  · exact wfFrom_erase m a 0 h
  · exact wfFrom_insert _ _ _ 0 (wfFrom_erase m a 0 h) (by omega) a.isLt (by assumption) (erase_ne m a)

/-- A list of writes keeps the canonical form. -/
theorem wf_writeAll (ws : List (Addr × Byte)) (m : Memory) (h : wf m = true) : wf (writeAll m ws) = true := by
  induction ws generalizing m with
  | nil => exact h
  | cons w ws ih => exact ih _ (wf_write m _ _ h)

/-- The reset memory, which lists nothing, is canonical. -/
theorem wf_nil : wf [] = true := rfl

theorem read_of_wfFrom_lt (m : Memory) (lo : Nat) (h : wfFrom lo m = true) (a : Addr) (ha : a.toNat < lo) :
    read m a = Config.unlistedByte := by
  induction m generalizing lo with
  | nil => rfl
  | cons e m ih =>
    simp only [wfFrom, Bool.and_eq_true, decide_eq_true_eq] at h
    rw [read, if_neg (by omega)]
    exact ih _ h.2 (by omega)

theorem exists_addr {k : Nat} (h : k < Config.addrSpace) : ∃ a : Addr, a.toNat = k :=
  ⟨BitVec.ofNat 32 k, by rw [BitVec.toNat_ofNat]; exact Nat.mod_eq_of_lt h⟩

theorem read_cons_self {e : Host.Cell} {m : Memory} {a : Addr} (h : a.toNat = e.1) : read (e :: m) a = e.2 :=
  if_pos h.symm

theorem read_cons_other {e : Host.Cell} {m : Memory} {a : Addr} (h : e.1 ≠ a.toNat) : read (e :: m) a = read m a :=
  if_neg h

/-- Equal memories are equal data: two canonical memories that read alike are the same list. -/
theorem eq_of_read_eq (m n : Memory) (lo : Nat) (hm : wfFrom lo m = true) (hn : wfFrom lo n = true)
    (h : ∀ a : Addr, read m a = read n a) : m = n := by
  induction m generalizing n lo with
  | nil =>
    cases n with
    | nil => rfl
    | cons f n =>
      simp only [wfFrom, Bool.and_eq_true, decide_eq_true_eq, bne_iff_ne] at hn
      obtain ⟨a, ha⟩ := exists_addr hn.1.1.2
      exact absurd ((read_cons_self ha).symm.trans (h a).symm) hn.1.2
  | cons e m ih =>
    simp only [wfFrom, Bool.and_eq_true, decide_eq_true_eq, bne_iff_ne] at hm
    obtain ⟨a, ha⟩ := exists_addr hm.1.1.2
    cases n with
    | nil => exact absurd ((read_cons_self ha).symm.trans (h a)) hm.1.2
    | cons f n =>
      simp only [wfFrom, Bool.and_eq_true, decide_eq_true_eq, bne_iff_ne] at hn
      obtain ⟨b, hb⟩ := exists_addr hn.1.1.2
      have key : e.1 = f.1 := by
        rcases Nat.lt_trichotomy e.1 f.1 with hlt | heq | hgt
        · have := h a
          rw [read_cons_self ha, read_cons_other (by omega), read_of_wfFrom_lt n _ hn.2 _ (by omega)] at this
          exact absurd this hm.1.2
        · exact heq
        · have := h b
          rw [read_cons_self hb, read_cons_other (by omega), read_of_wfFrom_lt m _ hm.2 _ (by omega)] at this
          exact absurd this.symm hn.1.2
      have hv : e.2 = f.2 := by
        have := h a
        rwa [read_cons_self ha, read_cons_self (ha.trans key)] at this
      obtain rfl : e = f := Prod.ext key hv
      congr 1
      refine ih n _ hm.2 hn.2 fun c => ?_
      by_cases hc : e.1 = c.toNat
      · rw [read_of_wfFrom_lt m _ hm.2 _ (by omega), read_of_wfFrom_lt n _ hn.2 _ (by omega)]
      · have := h c
        rwa [read_cons_other hc, read_cons_other hc] at this

end Sys2Proof.Machine.Memory
end

