-- ==== Sys2Proof/Laws/Ops.lean ====
section
/-! SUPPORT. The shared operations: the end of a command, the check of a footprint, and what storing a block leaves in
memory. -/

namespace Sys2Proof.Machine

@[simp] theorem complete_ok (s t : State) : complete s (.ok t) = .next t.finish := rfl

@[simp] theorem complete_error (s : State) (e : CmdError) : complete s (.error e) = .next (s.fail e) := rfl

/-- A command ends in a next state: the completion of what it computed, or the failure of the state it began in. -/
theorem complete_next {s t : State} {r : Except CmdError State} (h : complete s r = .next t) :
    (∃ u, r = .ok u ∧ t = u.finish) ∨ ∃ e, r = .error e ∧ t = s.fail e := by
  cases r with
  | ok u => exact .inl ⟨u, rfl, by simpa using h.symm⟩
  | error e => exact .inr ⟨e, rfl, by simpa using h.symm⟩

theorem complete_total (s : State) (r : Except CmdError State) : ∃ t, complete s r = .next t := by
  cases r <;> simp

theorem State.guarded_of_admits {s : State} {fp : List Addr} (h : s.admitsAll fp = true) (f : State) :
    s.guarded fp f = .ok f := if_pos h

theorem State.guarded_of_not_admits {s : State} {fp : List Addr} (h : s.admitsAll fp = false) (f : State) :
    s.guarded fp f = .error .memFault := by simp [State.guarded, h]

/-- What a guarded effect is: the effect, with its whole footprint admitted, or MEM_FAULT. -/
theorem State.guarded_cases (s : State) (fp : List Addr) (f : State) :
    (s.admitsAll fp = true ∧ s.guarded fp f = .ok f) ∨ (s.admitsAll fp = false ∧ s.guarded fp f = .error .memFault) := by
  cases h : s.admitsAll fp
  · exact .inr ⟨rfl, State.guarded_of_not_admits h f⟩
  · exact .inl ⟨rfl, State.guarded_of_admits h f⟩

@[simp] theorem State.admitsAll_append (s : State) (as bs : List Addr) :
    s.admitsAll (as ++ bs) = (s.admitsAll as && s.admitsAll bs) := by simp [State.admitsAll]

theorem State.admitsAll_iff (s : State) (fp : List Addr) : s.admitsAll fp = true ↔ ∀ a ∈ fp, s.admits a = true := by
  simp [State.admitsAll]

/-- Writes at the addresses adr 0, adr 1, ...: the last of those at an address decides what it reads. -/
theorem Memory.read_writeAll_range (adr : Nat → Addr) (val : Nat → Byte) (m : Memory) (n k : Nat) (hk : k < n)
    (last : ∀ k', k' < n → adr k' = adr k → k' ≤ k) :
    Memory.read (Memory.writeAll m ((List.range n).map fun k => (adr k, val k))) (adr k) = val k := by
  induction n with
  | zero => omega
  | succ n ih =>
    rw [List.range_succ, List.map_append, Memory.writeAll_append]
    by_cases h : k = n
    · subst h; exact Memory.read_write_same _ _ _
    · have hne : adr n ≠ adr k := fun e => by have := last n (by omega) e; omega
      exact (Memory.read_write_other _ hne _).trans (ih (by omega) fun k' hk' e => last k' (by omega) e)

theorem mem_blockWrites_addrs {base stride : Word} {w h : Nat} {f : Nat → Nat → Int} {a : Addr}
    (ha : a ∈ (blockWrites base stride w h f).map Prod.fst) :
    ∃ r c : Nat, r < h ∧ c < w ∧ pixAddr base stride r c = a := by
  simp only [blockWrites, List.map_map, List.mem_map, List.mem_range, Function.comp] at ha
  obtain ⟨k, hk, rfl⟩ := ha
  have hw : 0 < w := Nat.pos_of_ne_zero fun h0 => by simp [h0] at hk
  exact ⟨k / w, k % w, Nat.div_lt_of_lt_mul hk, Nat.mod_lt _ hw, rfl⟩

/-- The bytes of a stored block, and the frame around it. -/
theorem storesBlock_storeBlock (s : State) (base stride : Word) (w h : Nat) (f : Nat → Nat → Int) :
    StoresBlock s.mem (s.storeBlock base stride w h f).mem base stride w h f := by
  constructor
  · intro r c hr hc last
    have hw : 0 < w := by omega
    have hd : (r * w + c) / w = r := by rw [Nat.mul_comm, Nat.mul_add_div hw, Nat.div_eq_of_lt hc]; rfl
    have hm : (r * w + c) % w = c := by rw [Nat.mul_comm, Nat.mul_add_mod, Nat.mod_eq_of_lt hc]
    have hlt : r * w + c < w * h := by
      have : r * w + c < (r + 1) * w := by rw [Nat.add_mul]; omega
      calc r * w + c < (r + 1) * w := this
        _ ≤ h * w := Nat.mul_le_mul_right _ hr
        _ = w * h := Nat.mul_comm _ _
    have key := Memory.read_writeAll_range (fun k => pixAddr base stride (k / w : Nat) (k % w : Nat))
      (fun k => byte (f (k / w) (k % w))) s.mem (w * h) (r * w + c) hlt fun k' hk' e => by
        have := last (k' / w) (k' % w) (Nat.div_lt_of_lt_mul hk') (Nat.mod_lt _ hw) (by
          simpa only [hd, hm] using e)
        rwa [Nat.div_add_mod'] at this
    simp only [hd, hm] at key
    exact key
  · intro a ha
    refine Memory.read_writeAll_of_not_mem _ _ _ fun hmem => ?_
    obtain ⟨r, c, hr, hc, e⟩ := mem_blockWrites_addrs hmem
    exact ha r c hr hc e

theorem State.wf_storeBlock {s : State} (hs : Memory.wf s.mem = true) (base stride : Word) (w h : Nat)
    (f : Nat → Nat → Int) : Memory.wf (s.storeBlock base stride w h f).mem = true := Memory.wf_writeAll _ _ hs

@[simp] theorem length_blockAddrs (base stride : Word) (w h : Nat) : (blockAddrs base stride w h).length = w * h := by
  simp [blockAddrs]

/-- The footprint of a block is its bytes. -/
theorem mem_blockAddrs {base stride : Word} {w h : Nat} {a : Addr} :
    a ∈ blockAddrs base stride w h ↔ ∃ r c : Nat, r < h ∧ c < w ∧ pixAddr base stride r c = a := by
  constructor
  · intro ha
    refine mem_blockWrites_addrs (f := fun _ _ => 0) ?_
    simpa [blockWrites, blockAddrs, Function.comp_def] using ha
  · rintro ⟨r, c, hr, hc, rfl⟩
    simp only [blockAddrs, List.mem_map, List.mem_range]
    have hw : 0 < w := by omega
    refine ⟨r * w + c, ?_, ?_⟩
    · calc r * w + c < (r + 1) * w := by rw [Nat.add_mul]; omega
        _ ≤ h * w := Nat.mul_le_mul_right _ hr
        _ = w * h := Nat.mul_comm _ _
    · rw [Nat.mul_comm r w, Nat.mul_add_div hw, Nat.div_eq_of_lt hc, Nat.mul_add_mod, Nat.mod_eq_of_lt hc]; rfl

/-- An entry of a tabulated file. -/
theorem tabulate_getD {α : Type} (n : Nat) (f : Nat → α) (d : α) (k : Nat) :
    (tabulate n f).getD k d = if k < n then f k else d := by
  by_cases h : k < n
  · simp [tabulate, Vector.getD, h]
  · simp [tabulate, Vector.getD, h]

end Sys2Proof.Machine
end

