-- ==== Sys2Proof/Laws/Decoder.lean ====
section
/-! SUPPORT. The boolean decoder: what a refill loads (R102) and what a decision leaves (R105), on the decoder states
that a BD_INIT and its decisions reach. -/

namespace Sys2Proof.Machine

theorem toInt_ofInt_32 {x : Int} (h1 : -2147483648 ≤ x) (h2 : x < 2147483648) : (BitVec.ofInt 32 x).toInt = x := by
  rw [BitVec.toInt_ofInt]; exact Int.bmod_eq_of_le (by omega) (by omega)

theorem vsBits_cases (vs : ValueSize) : vsBits vs = 32 ∨ vsBits vs = 64 := by cases vs <;> simp [vsBits]

/-- The shift a normalisation needs: at most 7, and it brings an interval width back to [128, 255] (R100). -/
theorem norm_spec (r : Nat) (h0 : 0 < r) (h : r < 256) : 128 ≤ r * 2 ^ norm r ∧ r * 2 ^ norm r < 256 ∧ norm r ≤ 7 := by
  unfold norm
  split_ifs <;> omega

/-! The loop of Refill. -/

/-- The loop changes neither BD_RANGE nor BD_END, and adds n to BD_POS and 8n to BD_COUNT. -/
theorem loadBytes_registers (vs : ValueSize) (m : Memory) (n : Nat) (shift : Int) (bd : BoolDecoder)
    (hpos : bd.pos.toNat + n ≤ 2 ^ 32) (hlo : -8 ≤ bd.count.toInt) (hhi : bd.count.toInt + 8 * n < 2147483648) :
    let z := loadBytes vs m n shift bd
    z.range = bd.range ∧ z.stop = bd.stop ∧ z.pos.toNat = bd.pos.toNat + n ∧ z.count.toInt = bd.count.toInt + 8 * n := by
  induction n generalizing shift bd with
  | zero => simp [loadBytes]
  | succ n ih =>
    have hc : (BitVec.ofInt 32 (bd.count.toInt + 8)).toInt = bd.count.toInt + 8 :=
      toInt_ofInt_32 (by omega) (by omega)
    have hp : (bd.pos + 1#33).toNat = bd.pos.toNat + 1 := by
      rw [BitVec.toNat_add]; simp; omega
    have := ih (shift - 8)
      { bd with
        count := BitVec.ofInt 32 (bd.count.toInt + 8)
        value := orByteAt vs bd.value (Memory.read m (bd.pos.setWidth 32)) shift
        pos := bd.pos + 1#33 } (by rw [hp]; omega) (by rw [hc]; omega) (by rw [hc]; omega)
    simp only [hc, hp] at this
    simp only [loadBytes]
    refine ⟨this.1, this.2.1, ?_, ?_⟩
    · rw [this.2.2.1]; omega
    · rw [this.2.2.2]; push_cast; omega

/-- How many bytes a refill loads: floor(shift / 8) + 1 when more remain, else all that remain (R102). -/
def refillLoad (vs : ValueSize) (bd : BoolDecoder) : Nat :=
  if refillShift vs bd + 8 < refillBitsLeft bd then (refillShift vs bd / 8 + 1).toNat
  else bd.stop.toNat - bd.pos.toNat

/-- The refill adds the sentinel: the rest of the buffer fits (R102). -/
def refillEnds (vs : ValueSize) (bd : BoolDecoder) : Bool := decide (refillBitsLeft bd ≤ refillShift vs bd + 8)

/-- Refill is its loop, run refillLoad times, after the sentinel where it is due. -/
theorem refill_eq (vs : ValueSize) (m : Memory) (bd : BoolDecoder) (hpos : bd.pos.toNat ≤ bd.stop.toNat)
    (hcount : bd.count.toInt < 0) (hlo : -8 ≤ bd.count.toInt) :
    refill vs m bd = loadBytes vs m (refillLoad vs bd) (refillShift vs bd)
      (if refillEnds vs bd then { bd with count := BitVec.ofInt 32 (bd.count.toInt + Config.lotsOfBits) } else bd) := by
  have hs : 0 ≤ refillShift vs bd := by rcases vsBits_cases vs with h | h <;> simp only [refillShift, h] <;> omega
  have hl : refillBitsLeft bd = 8 * ((bd.stop.toNat - bd.pos.toNat : Nat) : Int) := by
    simp only [refillBitsLeft]; omega
  simp only [refill, refillLoad, refillEnds, loadCount]
  by_cases hx : refillBitsLeft bd ≤ refillShift vs bd + 8
  · have h0 : 0 ≤ refillShift vs bd + 8 - refillBitsLeft bd := by omega
    have hnx : ¬ refillShift vs bd + 8 < refillBitsLeft bd := by omega
    have hnx' : ¬ refillShift vs bd + 8 - refillBitsLeft bd < 0 := by omega
    simp only [h0, if_true, hx, decide_true, hnx, if_false, hnx', false_or]
    by_cases hz : refillBitsLeft bd = 0
    · have : bd.stop.toNat - bd.pos.toNat = 0 := by omega
      simp [hz, this, loadBytes]
    · have hle : refillShift vs bd + 8 - refillBitsLeft bd ≤ refillShift vs bd := by omega
      have hk : ((refillShift vs bd - (refillShift vs bd + 8 - refillBitsLeft bd)) / 8 + 1).toNat
          = bd.stop.toNat - bd.pos.toNat := by rw [hl]; omega
      simp only [ne_eq, hz, not_false_eq_true, if_true, hle, hk]
  · have h0 : ¬ 0 ≤ refillShift vs bd + 8 - refillBitsLeft bd := by omega
    have hlt : refillShift vs bd + 8 < refillBitsLeft bd := by omega
    have hlt' : refillShift vs bd + 8 - refillBitsLeft bd < 0 := by omega
    simp [h0, hx, hlt, hlt', hs]

/-- The registers a refill leaves. -/
theorem refill_registers (vs : ValueSize) (m : Memory) (bd : BoolDecoder) (hpos : bd.pos.toNat ≤ bd.stop.toNat)
    (hstop : bd.stop.toNat ≤ 2 ^ 32) (hcount : bd.count.toInt < 0) (hlo : -8 ≤ bd.count.toInt) :
    let z := refill vs m bd
    z.range = bd.range ∧ z.stop = bd.stop ∧ z.pos.toNat = bd.pos.toNat + refillLoad vs bd ∧
      bd.pos.toNat + refillLoad vs bd ≤ bd.stop.toNat ∧
      z.count.toInt = bd.count.toInt + 8 * refillLoad vs bd + (if refillEnds vs bd then Config.lotsOfBits else 0) ∧
      bd.count.toInt + 8 * refillLoad vs bd ≤ vsBits vs - 8 ∧
      (refillEnds vs bd = true → refillLoad vs bd = bd.stop.toNat - bd.pos.toNat) ∧
      (refillEnds vs bd = false →
        bd.pos.toNat + refillLoad vs bd < bd.stop.toNat ∧ 0 ≤ bd.count.toInt + 8 * refillLoad vs bd) := by
  have hl : refillBitsLeft bd = 8 * ((bd.stop.toNat - bd.pos.toNat : Nat) : Int) := by
    simp only [refillBitsLeft]; omega
  have hsh : refillShift vs bd = vsBits vs - 16 - bd.count.toInt := by simp only [refillShift]; omega
  have hvs := vsBits_cases vs
  have hle : bd.pos.toNat + refillLoad vs bd ≤ bd.stop.toNat := by
    unfold refillLoad; split
    · rw [hsh, hl] at *; omega
    · omega
  have hcap : bd.count.toInt + 8 * refillLoad vs bd ≤ vsBits vs - 8 := by
    unfold refillLoad; split
    · rw [hsh] at *; omega
    · rw [hsh, hl] at *; omega
  have hends : refillEnds vs bd = true → refillLoad vs bd = bd.stop.toNat - bd.pos.toNat := by
    intro h
    simp only [refillEnds, decide_eq_true_eq] at h
    unfold refillLoad
    rw [if_neg (by omega)]
  have hnends : refillEnds vs bd = false →
      bd.pos.toNat + refillLoad vs bd < bd.stop.toNat ∧ 0 ≤ bd.count.toInt + 8 * refillLoad vs bd := by
    intro h
    simp only [refillEnds, decide_eq_false_iff_not] at h
    unfold refillLoad
    rw [if_pos (by omega)]
    rw [hsh, hl] at *; omega
  simp only
  rw [refill_eq vs m bd hpos hcount hlo]
  by_cases he : refillEnds vs bd = true
  · have hc : (BitVec.ofInt 32 (bd.count.toInt + Config.lotsOfBits)).toInt = bd.count.toInt + Config.lotsOfBits :=
      toInt_ofInt_32 (by simp only [Config.lotsOfBits]; omega) (by simp only [Config.lotsOfBits]; omega)
    have := loadBytes_registers vs m (refillLoad vs bd) (refillShift vs bd)
      { bd with count := BitVec.ofInt 32 (bd.count.toInt + Config.lotsOfBits) } (by simp only; omega)
      (by simp only [hc]; simp only [Config.lotsOfBits]; omega) (by simp only [hc]; simp only [Config.lotsOfBits]; omega)
    simp only [hc] at this
    simp only [he, if_true]
    exact ⟨this.1, this.2.1, this.2.2.1, hle, by rw [this.2.2.2]; omega, hcap, fun _ => hends he, by simp⟩
  · have he' : refillEnds vs bd = false := by simpa using he
    have := loadBytes_registers vs m (refillLoad vs bd) (refillShift vs bd) bd (by omega) hlo (by omega)
    simp only [he', Bool.false_eq_true, if_false]
    exact ⟨this.1, this.2.1, this.2.2.1, hle, by rw [this.2.2.2]; omega, hcap, by simp, fun _ => hnends he'⟩

/-! BD_VALUE. -/

theorem toNat_orByteAt (vs : ValueSize) (v : BitVec 64) (b : Byte) (shift : Int) :
    (orByteAt vs v b shift).toNat = v.toNat ||| b.toNat * 2 ^ shift.toNat % 2 ^ vsBits vs := by
  have : b.toNat * 2 ^ shift.toNat % 2 ^ vsBits vs < 2 ^ 64 := by
    rcases vsBits_cases vs with h | h <;> rw [h] <;> omega
  rw [orByteAt, BitVec.toNat_or, BitVec.toNat_ofNat, Nat.mod_eq_of_lt this]

/-- The loop keeps BD_VALUE in its VS bits. -/
theorem loadBytes_value_lt (vs : ValueSize) (m : Memory) (n : Nat) (shift : Int) (bd : BoolDecoder)
    (h : bd.value.toNat < 2 ^ vsBits vs) : (loadBytes vs m n shift bd).value.toNat < 2 ^ vsBits vs := by
  induction n generalizing shift bd with
  | zero => exact h
  | succ n ih =>
    refine ih _ _ ?_
    simp only [toNat_orByteAt]
    exact Nat.or_lt_two_pow h (Nat.mod_lt _ (Nat.two_pow_pos _))

/-- The byte a loop loads at its iteration j. -/
def loadedByte (m : Memory) (bd : BoolDecoder) (j : Nat) : Byte := Memory.read m (BitVec.ofNat 32 (bd.pos.toNat + j))

theorem setWidth_pos (bd : BoolDecoder) : bd.pos.setWidth 32 = BitVec.ofNat 32 bd.pos.toNat := by
  apply BitVec.eq_of_toNat_eq; simp

theorem getLsbD_orByteAt (vs : ValueSize) (v : BitVec 64) (b : Byte) (shift : Int) (k : Nat) (h0 : 0 ≤ shift)
    (h8 : shift + 8 ≤ vsBits vs) :
    (orByteAt vs v b shift).getLsbD k = (v.getLsbD k || (decide (shift ≤ k) && b.getLsbD (k - shift).toNat)) := by
  obtain ⟨s, rfl⟩ := Int.eq_ofNat_of_zero_le h0
  have hle : s + 8 ≤ vsBits vs := by exact_mod_cast h8
  have hlt : b.toNat * 2 ^ s < 2 ^ vsBits vs := by
    calc b.toNat * 2 ^ s < 2 ^ 8 * 2 ^ s := Nat.mul_lt_mul_of_pos_right b.isLt (Nat.two_pow_pos _)
      _ = 2 ^ (8 + s) := (Nat.pow_add ..).symm
      _ ≤ 2 ^ vsBits vs := Nat.pow_le_pow_right (by omega) (by omega)
  have h64 : vsBits vs ≤ 64 := by rcases vsBits_cases vs with h | h <;> omega
  simp only [orByteAt, BitVec.getLsbD_or, BitVec.getLsbD_ofNat, Int.toNat_natCast]
  rw [Nat.mod_eq_of_lt hlt, ← Nat.shiftLeft_eq, Nat.testBit_shiftLeft]
  have hk : ((k : Int) - (s : Int)).toNat = k - s := by omega
  rw [hk]
  by_cases hks : s ≤ k
  · by_cases h64k : k < 64
    · simp [hks, h64k, BitVec.getLsbD]
    · have : b.getLsbD (k - s) = false := BitVec.getLsbD_of_ge _ _ (by omega)
      simp only [BitVec.getLsbD] at this
      simp [hks, h64k, BitVec.getLsbD, this]
  · simp [hks]

/-- The bits of BD_VALUE after the loop: those it held, and those of byte j at position shift - 8j and up. -/
theorem loadBytes_value_bits (vs : ValueSize) (m : Memory) (n : Nat) (shift : Int) (bd : BoolDecoder) (k : Nat)
    (hpos : bd.pos.toNat + n ≤ 2 ^ 32) (h0 : 8 * ((n : Int) - 1) ≤ shift) (h8 : shift + 8 ≤ vsBits vs) :
    (loadBytes vs m n shift bd).value.getLsbD k = (bd.value.getLsbD k || (List.range n).any fun j =>
      decide (shift - 8 * (j : Int) ≤ k) && (loadedByte m bd j).getLsbD (k - (shift - 8 * (j : Int))).toNat) := by
  induction n generalizing shift bd with
  | zero => simp [loadBytes]
  | succ n ih =>
    have hp : (bd.pos + 1#33).toNat = bd.pos.toNat + 1 := by
      rw [BitVec.toNat_add]; simp; omega
    rw [loadBytes, ih _ _ (by simp only [hp]; omega) (by push_cast at h0; omega) (by omega)]
    simp only
    rw [getLsbD_orByteAt vs _ _ _ _ (by push_cast at h0; omega) h8, List.range_succ_eq_map, List.any_cons, List.any_map,
      Bool.or_assoc]
    have hb : ∀ j : Nat, loadedByte m
        { bd with
          count := BitVec.ofInt 32 (bd.count.toInt + 8)
          value := orByteAt vs bd.value (Memory.read m (bd.pos.setWidth 32)) shift
          pos := bd.pos + 1#33 } j = loadedByte m bd (j + 1) := by
      intro j; simp only [loadedByte, hp]; rw [Nat.add_right_comm, Nat.add_assoc]
    simp only [hb, Function.comp_def]
    congr 2
    · simp only [loadedByte, setWidth_pos, Nat.add_zero, Nat.cast_zero, mul_zero, sub_zero]
    · congr 1; funext j
      have : shift - 8 - 8 * (j : Int) = shift - 8 * ((j + 1 : Nat) : Int) := by push_cast; omega
      rw [this]

/-- A refill keeps BD_VALUE in its VS bits. -/
theorem refill_value_lt (vs : ValueSize) (m : Memory) (bd : BoolDecoder) (hpos : bd.pos.toNat ≤ bd.stop.toNat)
    (hcount : bd.count.toInt < 0) (hlo : -8 ≤ bd.count.toInt) (h : bd.value.toNat < 2 ^ vsBits vs) :
    (refill vs m bd).value.toNat < 2 ^ vsBits vs := by
  rw [refill_eq vs m bd hpos hcount hlo]
  exact loadBytes_value_lt _ _ _ _ _ (by split <;> exact h)

/-- The loop reads only the bytes it loads. -/
theorem loadBytes_congr (vs : ValueSize) (m m' : Memory) (n : Nat) (shift : Int) (bd : BoolDecoder)
    (hpos : bd.pos.toNat + n ≤ 2 ^ 32)
    (h : ∀ a : Addr, bd.pos.toNat ≤ a.toNat → a.toNat < bd.pos.toNat + n → Memory.read m a = Memory.read m' a) :
    loadBytes vs m n shift bd = loadBytes vs m' n shift bd := by
  induction n generalizing shift bd with
  | zero => rfl
  | succ n ih =>
    have hp : (bd.pos + 1#33).toNat = bd.pos.toNat + 1 := by
      rw [BitVec.toNat_add]; simp; omega
    have hr : Memory.read m (bd.pos.setWidth 32) = Memory.read m' (bd.pos.setWidth 32) := by
      refine h _ ?_ ?_ <;> simp <;> omega
    rw [loadBytes, loadBytes, hr]
    refine ih _ _ ?_ ?_
    · simp only [hp]; omega
    · intro a h1 h2
      simp only [hp] at h1 h2
      exact h a (by omega) (by omega)

/-- A refill reads only the unread bytes of the stream buffer. -/
theorem refill_congr (vs : ValueSize) (m m' : Memory) (bd : BoolDecoder) (hpos : bd.pos.toNat ≤ bd.stop.toNat)
    (hstop : bd.stop.toNat ≤ 2 ^ 32) (hcount : bd.count.toInt < 0) (hlo : -8 ≤ bd.count.toInt)
    (h : ∀ a : Addr, bd.pos.toNat ≤ a.toNat → a.toNat < bd.stop.toNat → Memory.read m a = Memory.read m' a) :
    refill vs m bd = refill vs m' bd := by
  have hle := (refill_registers vs m bd hpos hstop hcount hlo).2.2.2.1
  rw [refill_eq vs m bd hpos hcount hlo, refill_eq vs m' bd hpos hcount hlo]
  split <;> exact loadBytes_congr _ _ _ _ _ _ (by show bd.pos.toNat + _ ≤ _; omega) fun a h1 h2 => h a h1 (by
    change a.toNat < bd.pos.toNat + _ at h2; omega)

/-! One decision. -/

/-- The split lies strictly inside the range (R105). -/
theorem splitOf_bounds (range p : Byte) (h : 128 ≤ range.toNat) :
    1 ≤ splitOf range p ∧ splitOf range p ≤ range.toNat - 1 := by
  have hp := p.isLt
  have hr := range.isLt
  have e : splitOf range p = 1 + (((range.toNat : Int) - 1) * (p.toNat : Int)) / 256 := by
    simp [splitOf, shr]
  rw [e]
  have hp0 : (0 : Int) ≤ p.toNat := by omega
  have h1 : 0 ≤ ((range.toNat : Int) - 1) * (p.toNat : Int) := Int.mul_nonneg (by omega) hp0
  have h2 : ((range.toNat : Int) - 1) * (p.toNat : Int) ≤ ((range.toNat : Int) - 1) * 255 :=
    Int.mul_le_mul_of_nonneg_left (by omega) (by omega)
  omega

/-- The decoder a decision works on: refilled where BD_COUNT is negative. -/
def refilled (vs : ValueSize) (m : Memory) (bd : BoolDecoder) : BoolDecoder :=
  if bd.count.toInt < 0 then refill vs m bd else bd

theorem decodeBool_eq (vs : ValueSize) (m : Memory) (p : Byte) (bd : BoolDecoder) :
    decodeBool vs m p bd = decide1 vs (splitOf bd.range p) (refilled vs m bd) := rfl

/-- After the refill BD_COUNT is not negative, and every register is in its range. -/
theorem refilled_inRange {vs : ValueSize} (m : Memory) {bd : BoolDecoder} (h : DecoderInRange vs bd) :
    DecoderInRange vs (refilled vs m bd) ∧ 0 ≤ (refilled vs m bd).count.toInt ∧
      (refilled vs m bd).range = bd.range ∧ (refilled vs m bd).stop = bd.stop ∧
      bd.pos.toNat ≤ (refilled vs m bd).pos.toNat := by
  obtain ⟨h1, h2, h3, h4, h5, h6⟩ := h
  unfold refilled
  split
  · rename_i hc
    obtain ⟨r1, r2, r3, r4, r5, r6, r7, r8⟩ := refill_registers vs m bd h2 h3 hc (by omega)
    have hv := refill_value_lt vs m bd h2 hc (by omega) h4
    have hcount : 0 ≤ (refill vs m bd).count.toInt ∧
        (refill vs m bd).count.toInt ≤ Config.lotsOfBits + vsBits vs - 8 := by
      rw [r5]
      cases he : refillEnds vs bd
      · have := (r8 he).2
        simp only [Config.lotsOfBits, Bool.false_eq_true, if_false]; omega
      · simp only [Config.lotsOfBits, if_true]; omega
    refine ⟨⟨?_, ?_, ?_, hv, ?_, hcount.2⟩, hcount.1, r1, r2, ?_⟩
    · rw [r1]; exact h1
    · rw [r2, r3]; exact r4
    · rw [r2]; exact h3
    · omega
    · rw [r3]; omega
  · exact ⟨⟨h1, h2, h3, h4, h5, h6⟩, by omega, rfl, rfl, le_refl _⟩

/-- What a decision on refilled registers leaves, as numbers (R105). -/
theorem decide1_spec {vs : ValueSize} {split : Int} {bd : BoolDecoder} (h : DecoderInRange vs bd)
    (hc : 0 ≤ bd.count.toInt) (h1 : 1 ≤ split) (h2 : split ≤ bd.range.toNat - 1) :
    let d := decide1 vs split bd
    let bit := split * 2 ^ (vsBits vs - 8) ≤ (bd.value.toNat : Int)
    let r : Int := if bit then bd.range.toNat - split else split
    let v : Int := if bit then bd.value.toNat - split * 2 ^ (vsBits vs - 8) else bd.value.toNat
    d.1 = (if bit then 1 else 0) ∧ (d.2.range.toNat : Int) = r * 2 ^ norm r.toNat ∧
      (d.2.value.toNat : Int) = v * 2 ^ norm r.toNat % 2 ^ vsBits vs ∧
      d.2.count.toInt = bd.count.toInt - norm r.toNat ∧ d.2.pos = bd.pos ∧ d.2.stop = bd.stop ∧
      0 < r ∧ r < 256 := by
  obtain ⟨g1, g2, g3, g4, g5, g6⟩ := h
  have hr := bd.range.isLt
  simp only [decide1, decide_eq_true_eq]
  generalize hbit : decide (split * 2 ^ (vsBits vs - 8) ≤ (bd.value.toNat : Int)) = bit
  have hr' : 0 < (if split * 2 ^ (vsBits vs - 8) ≤ (bd.value.toNat : Int) then (bd.range.toNat : Int) - split else split) ∧
      (if split * 2 ^ (vsBits vs - 8) ≤ (bd.value.toNat : Int) then (bd.range.toNat : Int) - split else split) < 256 := by
    split <;> omega
  generalize (if split * 2 ^ (vsBits vs - 8) ≤ (bd.value.toNat : Int) then (bd.range.toNat : Int) - split else split) = r at *
  generalize (if split * 2 ^ (vsBits vs - 8) ≤ (bd.value.toNat : Int) then
    (bd.value.toNat : Int) - split * 2 ^ (vsBits vs - 8) else (bd.value.toNat : Int)) = v at *
  obtain ⟨n, rfl⟩ := Int.eq_ofNat_of_zero_le (show 0 ≤ r by omega)
  have hn := norm_spec n (by omega) (by omega)
  simp only [Int.toNat_natCast]
  refine ⟨by first | rfl | simp [hbit], ?_, ?_, ?_, by trivial, by trivial, hr'.1, hr'.2⟩
  · have : ((n : Int) * 2 ^ norm n) = ((n * 2 ^ norm n : Nat) : Int) := by push_cast; rfl
    rw [this, BitVec.toNat_ofInt]
    omega
  · have hpos : (0 : Int) < 2 ^ vsBits vs := by positivity
    have e1 := Int.emod_nonneg (v * 2 ^ norm n) hpos.ne'
    have e2 := Int.emod_lt_of_pos (v * 2 ^ norm n) hpos
    have e3 : (2 : Int) ^ vsBits vs ≤ 2 ^ 64 := by rcases vsBits_cases vs with h | h <;> rw [h] <;> norm_num
    rw [BitVec.toNat_ofInt]
    generalize v * 2 ^ norm n % 2 ^ vsBits vs = z at *
    omega
  · exact toInt_ofInt_32 (by omega) (by simp only [Config.lotsOfBits] at g6; rcases vsBits_cases vs with h | h <;> rw [h] at g6 <;> omega)

/-- A decision keeps every register in its range, and BD_END; BD_POS does not fall. -/
theorem decodeBool_inRange {vs : ValueSize} (m : Memory) (p : Byte) {bd : BoolDecoder} (h : DecoderInRange vs bd) :
    DecoderInRange vs (decodeBool vs m p bd).2 ∧ (decodeBool vs m p bd).2.stop = bd.stop ∧
      bd.pos.toNat ≤ (decodeBool vs m p bd).2.pos.toNat ∧ (decodeBool vs m p bd).1 ≤ 1 := by
  obtain ⟨hr, hc, e1, e2, e3⟩ := refilled_inRange m h
  have hs := splitOf_bounds bd.range p h.1
  rw [decodeBool_eq]
  have hd := decide1_spec hr hc hs.1 (by rw [e1]; exact hs.2)
  simp only at hd
  obtain ⟨d1, d2, d3, d4, d5, d6, d7, d8⟩ := hd
  obtain ⟨g1, g2, g3, g4, g5, g6⟩ := hr
  generalize (if splitOf bd.range p * 2 ^ (vsBits vs - 8) ≤ ((refilled vs m bd).value.toNat : Int) then
    ((refilled vs m bd).range.toNat : Int) - splitOf bd.range p else splitOf bd.range p) = r at *
  obtain ⟨n, rfl⟩ := Int.eq_ofNat_of_zero_le (show 0 ≤ r by omega)
  have hn := norm_spec n (by omega) (by omega)
  simp only [Int.toNat_natCast] at *
  refine ⟨⟨?_, ?_, ?_, ?_, ?_, ?_⟩, ?_, ?_, ?_⟩
  · have : (((decide1 vs (splitOf bd.range p) (refilled vs m bd)).2.range.toNat : Nat) : Int) = ((n * 2 ^ norm n : Nat) : Int) := by
      rw [d2]; push_cast; rfl
    omega
  · rw [d5, d6]; exact g2
  · rw [d6]; exact g3
  · have hpos : (0 : Int) < 2 ^ vsBits vs := by positivity
    have := Int.emod_lt_of_pos ((if splitOf bd.range p * 2 ^ (vsBits vs - 8) ≤ ((refilled vs m bd).value.toNat : Int) then
      ((refilled vs m bd).value.toNat : Int) - splitOf bd.range p * 2 ^ (vsBits vs - 8) else
      ((refilled vs m bd).value.toNat : Int)) * 2 ^ norm n) hpos
    rw [← d3] at this
    exact_mod_cast this
  · omega
  · omega
  · rw [d6, e2]
  · rw [d5]; exact e3
  · rw [d1]; split <;> omega

/-- A decision reads only the unread bytes of the stream buffer. -/
theorem decodeBool_congr {vs : ValueSize} (m m' : Memory) (p : Byte) {bd : BoolDecoder} (h : DecoderInRange vs bd)
    (hm : ∀ a : Addr, bd.pos.toNat ≤ a.toNat → a.toNat < bd.stop.toNat → Memory.read m a = Memory.read m' a) :
    decodeBool vs m p bd = decodeBool vs m' p bd := by
  obtain ⟨h1, h2, h3, h4, h5, h6⟩ := h
  rw [decodeBool_eq, decodeBool_eq]
  congr 1
  unfold refilled
  split
  · exact refill_congr vs m m' bd h2 h3 (by assumption) (by omega) hm
  · rfl

end Sys2Proof.Machine
end

