-- ==== Sys2Proof/Laws/State.lean ====
section
/-! SUPPORT. What each named update of State leaves in each field. -/

namespace Sys2Proof.Machine.State

/-! The end of a command that completes changes DONE and BUSY alone. -/

@[simp] theorem finish_params (s : State) : s.finish.params = s.params := rfl
@[simp] theorem finish_args (s : State) : s.finish.args = s.args := rfl
@[simp] theorem finish_res0 (s : State) : s.finish.res0 = s.res0 := rfl
@[simp] theorem finish_busy (s : State) : s.finish.busy = false := rfl
@[simp] theorem finish_done (s : State) : s.finish.done = true := rfl
@[simp] theorem finish_cmdErr (s : State) : s.finish.cmdErr = s.cmdErr := rfl
@[simp] theorem finish_bdReady (s : State) : s.finish.bdReady = s.bdReady := rfl
@[simp] theorem finish_errCode (s : State) : s.finish.errCode = s.errCode := rfl
@[simp] theorem finish_ctrl (s : State) : s.finish.ctrl = s.ctrl := rfl
@[simp] theorem finish_lfCfg (s : State) : s.finish.lfCfg = s.lfCfg := rfl
@[simp] theorem finish_lfSeg (s : State) : s.finish.lfSeg = s.lfSeg := rfl
@[simp] theorem finish_lfRefd (s : State) : s.finish.lfRefd = s.lfRefd := rfl
@[simp] theorem finish_lfModed (s : State) : s.finish.lfModed = s.lfModed := rfl
@[simp] theorem finish_dq (s : State) : s.finish.dq = s.dq := rfl
@[simp] theorem finish_lastSharp (s : State) : s.finish.lastSharp = s.lastSharp := rfl
@[simp] theorem finish_bd (s : State) : s.finish.bd = s.bd := rfl
@[simp] theorem finish_prob (s : State) : s.finish.prob = s.prob := rfl
@[simp] theorem finish_treeRam (s : State) : s.finish.treeRam = s.treeRam := rfl
@[simp] theorem finish_coef (s : State) : s.finish.coef = s.coef := rfl
@[simp] theorem finish_eob (s : State) : s.finish.eob = s.eob := rfl
@[simp] theorem finish_lvl (s : State) : s.finish.lvl = s.lvl := rfl
@[simp] theorem finish_lim (s : State) : s.finish.lim = s.lim := rfl
@[simp] theorem finish_blim (s : State) : s.finish.blim = s.blim := rfl
@[simp] theorem finish_mblim (s : State) : s.finish.mblim = s.mblim := rfl
@[simp] theorem finish_mem (s : State) : s.finish.mem = s.mem := rfl
@[simp] theorem finish_host (s : State) : s.finish.host = s.host := rfl
@[simp] theorem finish_hostData (s : State) : s.finish.hostData = s.hostData := rfl
@[simp] theorem finish_freeCount (s : State) : s.finish.freeCount = s.freeCount := rfl

/-! The failure of a command changes DONE, BUSY, CMD_ERR and ERR_CODE alone. -/

@[simp] theorem fail_params (s : State) (e : CmdError) : (s.fail e).params = s.params := rfl
@[simp] theorem fail_args (s : State) (e : CmdError) : (s.fail e).args = s.args := rfl
@[simp] theorem fail_res0 (s : State) (e : CmdError) : (s.fail e).res0 = s.res0 := rfl
@[simp] theorem fail_busy (s : State) (e : CmdError) : (s.fail e).busy = false := rfl
@[simp] theorem fail_done (s : State) (e : CmdError) : (s.fail e).done = true := rfl
@[simp] theorem fail_cmdErr (s : State) (e : CmdError) : (s.fail e).cmdErr = true := rfl
@[simp] theorem fail_bdReady (s : State) (e : CmdError) : (s.fail e).bdReady = s.bdReady := rfl
@[simp] theorem fail_errCode (s : State) (e : CmdError) : (s.fail e).errCode = errCodeOf e := rfl
@[simp] theorem fail_ctrl (s : State) (e : CmdError) : (s.fail e).ctrl = s.ctrl := rfl
@[simp] theorem fail_lfCfg (s : State) (e : CmdError) : (s.fail e).lfCfg = s.lfCfg := rfl
@[simp] theorem fail_lfSeg (s : State) (e : CmdError) : (s.fail e).lfSeg = s.lfSeg := rfl
@[simp] theorem fail_lfRefd (s : State) (e : CmdError) : (s.fail e).lfRefd = s.lfRefd := rfl
@[simp] theorem fail_lfModed (s : State) (e : CmdError) : (s.fail e).lfModed = s.lfModed := rfl
@[simp] theorem fail_dq (s : State) (e : CmdError) : (s.fail e).dq = s.dq := rfl
@[simp] theorem fail_lastSharp (s : State) (e : CmdError) : (s.fail e).lastSharp = s.lastSharp := rfl
@[simp] theorem fail_bd (s : State) (e : CmdError) : (s.fail e).bd = s.bd := rfl
@[simp] theorem fail_prob (s : State) (e : CmdError) : (s.fail e).prob = s.prob := rfl
@[simp] theorem fail_treeRam (s : State) (e : CmdError) : (s.fail e).treeRam = s.treeRam := rfl
@[simp] theorem fail_coef (s : State) (e : CmdError) : (s.fail e).coef = s.coef := rfl
@[simp] theorem fail_eob (s : State) (e : CmdError) : (s.fail e).eob = s.eob := rfl
@[simp] theorem fail_lvl (s : State) (e : CmdError) : (s.fail e).lvl = s.lvl := rfl
@[simp] theorem fail_lim (s : State) (e : CmdError) : (s.fail e).lim = s.lim := rfl
@[simp] theorem fail_blim (s : State) (e : CmdError) : (s.fail e).blim = s.blim := rfl
@[simp] theorem fail_mblim (s : State) (e : CmdError) : (s.fail e).mblim = s.mblim := rfl
@[simp] theorem fail_mem (s : State) (e : CmdError) : (s.fail e).mem = s.mem := rfl
@[simp] theorem fail_host (s : State) (e : CmdError) : (s.fail e).host = s.host := rfl
@[simp] theorem fail_hostData (s : State) (e : CmdError) : (s.fail e).hostData = s.hostData := rfl
@[simp] theorem fail_freeCount (s : State) (e : CmdError) : (s.fail e).freeCount = s.freeCount := rfl

/-! Storing a block changes memory alone. -/

@[simp] theorem storeBlock_params (s : State) (base stride : Word) (w h : Nat) (f : Nat → Nat → Int) :
    (s.storeBlock base stride w h f).params = s.params := rfl
@[simp] theorem storeBlock_args (s : State) (base stride : Word) (w h : Nat) (f : Nat → Nat → Int) :
    (s.storeBlock base stride w h f).args = s.args := rfl
@[simp] theorem storeBlock_res0 (s : State) (base stride : Word) (w h : Nat) (f : Nat → Nat → Int) :
    (s.storeBlock base stride w h f).res0 = s.res0 := rfl
@[simp] theorem storeBlock_busy (s : State) (base stride : Word) (w h : Nat) (f : Nat → Nat → Int) :
    (s.storeBlock base stride w h f).busy = s.busy := rfl
@[simp] theorem storeBlock_done (s : State) (base stride : Word) (w h : Nat) (f : Nat → Nat → Int) :
    (s.storeBlock base stride w h f).done = s.done := rfl
@[simp] theorem storeBlock_cmdErr (s : State) (base stride : Word) (w h : Nat) (f : Nat → Nat → Int) :
    (s.storeBlock base stride w h f).cmdErr = s.cmdErr := rfl
@[simp] theorem storeBlock_bdReady (s : State) (base stride : Word) (w h : Nat) (f : Nat → Nat → Int) :
    (s.storeBlock base stride w h f).bdReady = s.bdReady := rfl
@[simp] theorem storeBlock_errCode (s : State) (base stride : Word) (w h : Nat) (f : Nat → Nat → Int) :
    (s.storeBlock base stride w h f).errCode = s.errCode := rfl
@[simp] theorem storeBlock_ctrl (s : State) (base stride : Word) (w h : Nat) (f : Nat → Nat → Int) :
    (s.storeBlock base stride w h f).ctrl = s.ctrl := rfl
@[simp] theorem storeBlock_lfCfg (s : State) (base stride : Word) (w h : Nat) (f : Nat → Nat → Int) :
    (s.storeBlock base stride w h f).lfCfg = s.lfCfg := rfl
@[simp] theorem storeBlock_lfSeg (s : State) (base stride : Word) (w h : Nat) (f : Nat → Nat → Int) :
    (s.storeBlock base stride w h f).lfSeg = s.lfSeg := rfl
@[simp] theorem storeBlock_lfRefd (s : State) (base stride : Word) (w h : Nat) (f : Nat → Nat → Int) :
    (s.storeBlock base stride w h f).lfRefd = s.lfRefd := rfl
@[simp] theorem storeBlock_lfModed (s : State) (base stride : Word) (w h : Nat) (f : Nat → Nat → Int) :
    (s.storeBlock base stride w h f).lfModed = s.lfModed := rfl
@[simp] theorem storeBlock_dq (s : State) (base stride : Word) (w h : Nat) (f : Nat → Nat → Int) :
    (s.storeBlock base stride w h f).dq = s.dq := rfl
@[simp] theorem storeBlock_lastSharp (s : State) (base stride : Word) (w h : Nat) (f : Nat → Nat → Int) :
    (s.storeBlock base stride w h f).lastSharp = s.lastSharp := rfl
@[simp] theorem storeBlock_bd (s : State) (base stride : Word) (w h : Nat) (f : Nat → Nat → Int) :
    (s.storeBlock base stride w h f).bd = s.bd := rfl
@[simp] theorem storeBlock_prob (s : State) (base stride : Word) (w h : Nat) (f : Nat → Nat → Int) :
    (s.storeBlock base stride w h f).prob = s.prob := rfl
@[simp] theorem storeBlock_treeRam (s : State) (base stride : Word) (w h : Nat) (f : Nat → Nat → Int) :
    (s.storeBlock base stride w h f).treeRam = s.treeRam := rfl
@[simp] theorem storeBlock_coef (s : State) (base stride : Word) (w h : Nat) (f : Nat → Nat → Int) :
    (s.storeBlock base stride w h f).coef = s.coef := rfl
@[simp] theorem storeBlock_eob (s : State) (base stride : Word) (w h : Nat) (f : Nat → Nat → Int) :
    (s.storeBlock base stride w h f).eob = s.eob := rfl
@[simp] theorem storeBlock_lvl (s : State) (base stride : Word) (w h : Nat) (f : Nat → Nat → Int) :
    (s.storeBlock base stride w h f).lvl = s.lvl := rfl
@[simp] theorem storeBlock_lim (s : State) (base stride : Word) (w h : Nat) (f : Nat → Nat → Int) :
    (s.storeBlock base stride w h f).lim = s.lim := rfl
@[simp] theorem storeBlock_blim (s : State) (base stride : Word) (w h : Nat) (f : Nat → Nat → Int) :
    (s.storeBlock base stride w h f).blim = s.blim := rfl
@[simp] theorem storeBlock_mblim (s : State) (base stride : Word) (w h : Nat) (f : Nat → Nat → Int) :
    (s.storeBlock base stride w h f).mblim = s.mblim := rfl
@[simp] theorem storeBlock_mem (s : State) (base stride : Word) (w h : Nat) (f : Nat → Nat → Int) :
    (s.storeBlock base stride w h f).mem = Memory.writeAll s.mem (blockWrites base stride w h f) := rfl
@[simp] theorem storeBlock_host (s : State) (base stride : Word) (w h : Nat) (f : Nat → Nat → Int) :
    (s.storeBlock base stride w h f).host = s.host := rfl
@[simp] theorem storeBlock_hostData (s : State) (base stride : Word) (w h : Nat) (f : Nat → Nat → Int) :
    (s.storeBlock base stride w h f).hostData = s.hostData := rfl
@[simp] theorem storeBlock_freeCount (s : State) (base stride : Word) (w h : Nat) (f : Nat → Nat → Int) :
    (s.storeBlock base stride w h f).freeCount = s.freeCount := rfl

/-! Setting the luma DCs changes COEF alone. -/

@[simp] theorem setLumaDcs_params (s : State) (o : Nat → Int) : (s.setLumaDcs o).params = s.params := rfl
@[simp] theorem setLumaDcs_args (s : State) (o : Nat → Int) : (s.setLumaDcs o).args = s.args := rfl
@[simp] theorem setLumaDcs_res0 (s : State) (o : Nat → Int) : (s.setLumaDcs o).res0 = s.res0 := rfl
@[simp] theorem setLumaDcs_busy (s : State) (o : Nat → Int) : (s.setLumaDcs o).busy = s.busy := rfl
@[simp] theorem setLumaDcs_done (s : State) (o : Nat → Int) : (s.setLumaDcs o).done = s.done := rfl
@[simp] theorem setLumaDcs_cmdErr (s : State) (o : Nat → Int) : (s.setLumaDcs o).cmdErr = s.cmdErr := rfl
@[simp] theorem setLumaDcs_bdReady (s : State) (o : Nat → Int) : (s.setLumaDcs o).bdReady = s.bdReady := rfl
@[simp] theorem setLumaDcs_errCode (s : State) (o : Nat → Int) : (s.setLumaDcs o).errCode = s.errCode := rfl
@[simp] theorem setLumaDcs_ctrl (s : State) (o : Nat → Int) : (s.setLumaDcs o).ctrl = s.ctrl := rfl
@[simp] theorem setLumaDcs_lfCfg (s : State) (o : Nat → Int) : (s.setLumaDcs o).lfCfg = s.lfCfg := rfl
@[simp] theorem setLumaDcs_lfSeg (s : State) (o : Nat → Int) : (s.setLumaDcs o).lfSeg = s.lfSeg := rfl
@[simp] theorem setLumaDcs_lfRefd (s : State) (o : Nat → Int) : (s.setLumaDcs o).lfRefd = s.lfRefd := rfl
@[simp] theorem setLumaDcs_lfModed (s : State) (o : Nat → Int) : (s.setLumaDcs o).lfModed = s.lfModed := rfl
@[simp] theorem setLumaDcs_dq (s : State) (o : Nat → Int) : (s.setLumaDcs o).dq = s.dq := rfl
@[simp] theorem setLumaDcs_lastSharp (s : State) (o : Nat → Int) : (s.setLumaDcs o).lastSharp = s.lastSharp := rfl
@[simp] theorem setLumaDcs_bd (s : State) (o : Nat → Int) : (s.setLumaDcs o).bd = s.bd := rfl
@[simp] theorem setLumaDcs_prob (s : State) (o : Nat → Int) : (s.setLumaDcs o).prob = s.prob := rfl
@[simp] theorem setLumaDcs_treeRam (s : State) (o : Nat → Int) : (s.setLumaDcs o).treeRam = s.treeRam := rfl
@[simp] theorem setLumaDcs_coef (s : State) (o : Nat → Int) :
    (s.setLumaDcs o).coef = tabulate 400 fun h => if h % 16 = 0 ∧ h / 16 < 16 then half (o (h / 16)) else s.coef.getD h 0#16 := rfl
@[simp] theorem setLumaDcs_eob (s : State) (o : Nat → Int) : (s.setLumaDcs o).eob = s.eob := rfl
@[simp] theorem setLumaDcs_lvl (s : State) (o : Nat → Int) : (s.setLumaDcs o).lvl = s.lvl := rfl
@[simp] theorem setLumaDcs_lim (s : State) (o : Nat → Int) : (s.setLumaDcs o).lim = s.lim := rfl
@[simp] theorem setLumaDcs_blim (s : State) (o : Nat → Int) : (s.setLumaDcs o).blim = s.blim := rfl
@[simp] theorem setLumaDcs_mblim (s : State) (o : Nat → Int) : (s.setLumaDcs o).mblim = s.mblim := rfl
@[simp] theorem setLumaDcs_mem (s : State) (o : Nat → Int) : (s.setLumaDcs o).mem = s.mem := rfl
@[simp] theorem setLumaDcs_host (s : State) (o : Nat → Int) : (s.setLumaDcs o).host = s.host := rfl
@[simp] theorem setLumaDcs_hostData (s : State) (o : Nat → Int) : (s.setLumaDcs o).hostData = s.hostData := rfl
@[simp] theorem setLumaDcs_freeCount (s : State) (o : Nat → Int) : (s.setLumaDcs o).freeCount = s.freeCount := rfl

/-! Rebuilding the limits changes LIM, BLIM, MBLIM and LAST_SHARP alone. -/

@[simp] theorem rebuildLimits_params (s : State) : s.rebuildLimits.params = s.params := rfl
@[simp] theorem rebuildLimits_args (s : State) : s.rebuildLimits.args = s.args := rfl
@[simp] theorem rebuildLimits_res0 (s : State) : s.rebuildLimits.res0 = s.res0 := rfl
@[simp] theorem rebuildLimits_busy (s : State) : s.rebuildLimits.busy = s.busy := rfl
@[simp] theorem rebuildLimits_done (s : State) : s.rebuildLimits.done = s.done := rfl
@[simp] theorem rebuildLimits_cmdErr (s : State) : s.rebuildLimits.cmdErr = s.cmdErr := rfl
@[simp] theorem rebuildLimits_bdReady (s : State) : s.rebuildLimits.bdReady = s.bdReady := rfl
@[simp] theorem rebuildLimits_errCode (s : State) : s.rebuildLimits.errCode = s.errCode := rfl
@[simp] theorem rebuildLimits_ctrl (s : State) : s.rebuildLimits.ctrl = s.ctrl := rfl
@[simp] theorem rebuildLimits_lfCfg (s : State) : s.rebuildLimits.lfCfg = s.lfCfg := rfl
@[simp] theorem rebuildLimits_lfSeg (s : State) : s.rebuildLimits.lfSeg = s.lfSeg := rfl
@[simp] theorem rebuildLimits_lfRefd (s : State) : s.rebuildLimits.lfRefd = s.lfRefd := rfl
@[simp] theorem rebuildLimits_lfModed (s : State) : s.rebuildLimits.lfModed = s.lfModed := rfl
@[simp] theorem rebuildLimits_dq (s : State) : s.rebuildLimits.dq = s.dq := rfl
@[simp] theorem rebuildLimits_lastSharp (s : State) : s.rebuildLimits.lastSharp = s.sharpness := rfl
@[simp] theorem rebuildLimits_bd (s : State) : s.rebuildLimits.bd = s.bd := rfl
@[simp] theorem rebuildLimits_prob (s : State) : s.rebuildLimits.prob = s.prob := rfl
@[simp] theorem rebuildLimits_treeRam (s : State) : s.rebuildLimits.treeRam = s.treeRam := rfl
@[simp] theorem rebuildLimits_coef (s : State) : s.rebuildLimits.coef = s.coef := rfl
@[simp] theorem rebuildLimits_eob (s : State) : s.rebuildLimits.eob = s.eob := rfl
@[simp] theorem rebuildLimits_lvl (s : State) : s.rebuildLimits.lvl = s.lvl := rfl
@[simp] theorem rebuildLimits_lim (s : State) : s.rebuildLimits.lim = limTable s.sharpness.toNat := rfl
@[simp] theorem rebuildLimits_blim (s : State) : s.rebuildLimits.blim = blimTable s.sharpness.toNat := rfl
@[simp] theorem rebuildLimits_mblim (s : State) : s.rebuildLimits.mblim = mblimTable s.sharpness.toNat := rfl
@[simp] theorem rebuildLimits_mem (s : State) : s.rebuildLimits.mem = s.mem := rfl
@[simp] theorem rebuildLimits_host (s : State) : s.rebuildLimits.host = s.host := rfl
@[simp] theorem rebuildLimits_hostData (s : State) : s.rebuildLimits.hostData = s.hostData := rfl
@[simp] theorem rebuildLimits_freeCount (s : State) : s.rebuildLimits.freeCount = s.freeCount := rfl

/-! A write to STATUS changes DONE, CMD_ERR and ERR_CODE alone. -/

@[simp] theorem writeStatus_params (s : State) (v : Word) : (s.writeStatus v).params = s.params := rfl
@[simp] theorem writeStatus_args (s : State) (v : Word) : (s.writeStatus v).args = s.args := rfl
@[simp] theorem writeStatus_res0 (s : State) (v : Word) : (s.writeStatus v).res0 = s.res0 := rfl
@[simp] theorem writeStatus_busy (s : State) (v : Word) : (s.writeStatus v).busy = s.busy := rfl
@[simp] theorem writeStatus_done (s : State) (v : Word) : (s.writeStatus v).done = (s.done && !v.getLsbD 1) := rfl
@[simp] theorem writeStatus_cmdErr (s : State) (v : Word) :
    (s.writeStatus v).cmdErr = (s.cmdErr && !v.getLsbD 3) := rfl
@[simp] theorem writeStatus_bdReady (s : State) (v : Word) : (s.writeStatus v).bdReady = s.bdReady := rfl
@[simp] theorem writeStatus_errCode (s : State) (v : Word) :
    (s.writeStatus v).errCode = if v.getLsbD 3 then 0#4 else s.errCode := rfl
@[simp] theorem writeStatus_ctrl (s : State) (v : Word) : (s.writeStatus v).ctrl = s.ctrl := rfl
@[simp] theorem writeStatus_lfCfg (s : State) (v : Word) : (s.writeStatus v).lfCfg = s.lfCfg := rfl
@[simp] theorem writeStatus_lfSeg (s : State) (v : Word) : (s.writeStatus v).lfSeg = s.lfSeg := rfl
@[simp] theorem writeStatus_lfRefd (s : State) (v : Word) : (s.writeStatus v).lfRefd = s.lfRefd := rfl
@[simp] theorem writeStatus_lfModed (s : State) (v : Word) : (s.writeStatus v).lfModed = s.lfModed := rfl
@[simp] theorem writeStatus_dq (s : State) (v : Word) : (s.writeStatus v).dq = s.dq := rfl
@[simp] theorem writeStatus_lastSharp (s : State) (v : Word) : (s.writeStatus v).lastSharp = s.lastSharp := rfl
@[simp] theorem writeStatus_bd (s : State) (v : Word) : (s.writeStatus v).bd = s.bd := rfl
@[simp] theorem writeStatus_prob (s : State) (v : Word) : (s.writeStatus v).prob = s.prob := rfl
@[simp] theorem writeStatus_treeRam (s : State) (v : Word) : (s.writeStatus v).treeRam = s.treeRam := rfl
@[simp] theorem writeStatus_coef (s : State) (v : Word) : (s.writeStatus v).coef = s.coef := rfl
@[simp] theorem writeStatus_eob (s : State) (v : Word) : (s.writeStatus v).eob = s.eob := rfl
@[simp] theorem writeStatus_lvl (s : State) (v : Word) : (s.writeStatus v).lvl = s.lvl := rfl
@[simp] theorem writeStatus_lim (s : State) (v : Word) : (s.writeStatus v).lim = s.lim := rfl
@[simp] theorem writeStatus_blim (s : State) (v : Word) : (s.writeStatus v).blim = s.blim := rfl
@[simp] theorem writeStatus_mblim (s : State) (v : Word) : (s.writeStatus v).mblim = s.mblim := rfl
@[simp] theorem writeStatus_mem (s : State) (v : Word) : (s.writeStatus v).mem = s.mem := rfl
@[simp] theorem writeStatus_host (s : State) (v : Word) : (s.writeStatus v).host = s.host := rfl
@[simp] theorem writeStatus_hostData (s : State) (v : Word) : (s.writeStatus v).hostData = s.hostData := rfl
@[simp] theorem writeStatus_freeCount (s : State) (v : Word) : (s.writeStatus v).freeCount = s.freeCount := rfl

/-! A reset keeps the parameters, frame memory and the host's own fields, and sets every other field. -/

@[simp] theorem resetRegisters_params (s : State) : s.resetRegisters.params = s.params := rfl
@[simp] theorem resetRegisters_args (s : State) : s.resetRegisters.args = Vector.replicate 8 0#32 := rfl
@[simp] theorem resetRegisters_res0 (s : State) : s.resetRegisters.res0 = 0#32 := rfl
@[simp] theorem resetRegisters_busy (s : State) : s.resetRegisters.busy = false := rfl
@[simp] theorem resetRegisters_done (s : State) : s.resetRegisters.done = false := rfl
@[simp] theorem resetRegisters_cmdErr (s : State) : s.resetRegisters.cmdErr = false := rfl
@[simp] theorem resetRegisters_bdReady (s : State) : s.resetRegisters.bdReady = false := rfl
@[simp] theorem resetRegisters_errCode (s : State) : s.resetRegisters.errCode = 0#4 := rfl
@[simp] theorem resetRegisters_ctrl (s : State) : s.resetRegisters.ctrl = 0#32 := rfl
@[simp] theorem resetRegisters_lfCfg (s : State) : s.resetRegisters.lfCfg = 0#32 := rfl
@[simp] theorem resetRegisters_lfSeg (s : State) : s.resetRegisters.lfSeg = 0#32 := rfl
@[simp] theorem resetRegisters_lfRefd (s : State) : s.resetRegisters.lfRefd = 0#32 := rfl
@[simp] theorem resetRegisters_lfModed (s : State) : s.resetRegisters.lfModed = 0#32 := rfl
@[simp] theorem resetRegisters_dq (s : State) : s.resetRegisters.dq = 0#32 := rfl
@[simp] theorem resetRegisters_lastSharp (s : State) : s.resetRegisters.lastSharp = 0#3 := rfl
@[simp] theorem resetRegisters_bd (s : State) : s.resetRegisters.bd = BoolDecoder.reset := rfl
@[simp] theorem resetRegisters_prob (s : State) : s.resetRegisters.prob = Vector.replicate 16 128#8 := rfl
@[simp] theorem resetRegisters_treeRam (s : State) : s.resetRegisters.treeRam = Vector.replicate 32 0#8 := rfl
@[simp] theorem resetRegisters_coef (s : State) : s.resetRegisters.coef = Vector.replicate 400 0#16 := rfl
@[simp] theorem resetRegisters_eob (s : State) : s.resetRegisters.eob = Vector.replicate 25 0#8 := rfl
@[simp] theorem resetRegisters_lvl (s : State) : s.resetRegisters.lvl = Vector.replicate 64 0#8 := rfl
@[simp] theorem resetRegisters_lim (s : State) : s.resetRegisters.lim = limTable 0 := rfl
@[simp] theorem resetRegisters_blim (s : State) : s.resetRegisters.blim = blimTable 0 := rfl
@[simp] theorem resetRegisters_mblim (s : State) : s.resetRegisters.mblim = mblimTable 0 := rfl
@[simp] theorem resetRegisters_mem (s : State) : s.resetRegisters.mem = s.mem := rfl
@[simp] theorem resetRegisters_host (s : State) : s.resetRegisters.host = s.host := rfl
@[simp] theorem resetRegisters_hostData (s : State) : s.resetRegisters.hostData = s.hostData := rfl
@[simp] theorem resetRegisters_freeCount (s : State) : s.resetRegisters.freeCount = s.freeCount := rfl

end Sys2Proof.Machine.State
end

