-- ==== Sys2Proof/Laws/Exec.lean ====
section
/-! SUPPORT. What a command can do, said once: every command ends in a next state, and one that completes without error
has the effect of its row of Effect. -/

namespace Sys2Proof.Machine

/-- u is what a command computes from s when it completes without error, before the end of the command. -/
def Effect (i : Instr) (s u : State) : Prop :=
  match i with
  | .nop => u = s
  | .bdInit =>
    (s.arg 0).toNat + (s.arg 1).toNat ≤ Config.addrSpace ∧ s.admitsAll (streamAddrs (s.arg 0) (s.arg 1).toNat) = true ∧
      u = { s with bd := refill s.params.vs s.mem (bdStart (s.arg 0).toNat (s.arg 1).toNat), bdReady := true }
  | .bdBool p =>
    s.bdReady = true ∧
      u = { s with
        bd := (decodeBool s.params.vs s.mem p s.bd).2, res0 := BitVec.ofNat 32 (decodeBool s.params.vs s.mem p s.bd).1 }
  | .bdLiteral k =>
    s.bdReady = true ∧
      u = { s with
        bd := (decodeLiteral s.params.vs s.mem k.toNat s.bd).2
        res0 := BitVec.ofNat 32 (decodeLiteral s.params.vs s.mem k.toNat s.bd).1 }
  | .treeRead tree start =>
    s.bdReady = true ∧ ∃ (t : List Int) (sym : Nat) (bd : BoolDecoder), s.treeOf tree = some t ∧
      treeWalk s.params.vs s.mem s.probAt t Config.maxTreeSteps start.toNat s.bd = .ok (sym, bd) ∧
      u = { s with bd := bd, res0 := BitVec.ofNat 32 sym }
  | .dequant _ | .iwht | .iwhtDc | .iwhtAuto => u = { s with coef := u.coef }
  | .coefClear => u = { s with coef := u.coef, eob := u.eob }
  | .idctAdd _ | .idctDcAdd _ | .idctAutoAdd _ | .intraB4 _ | .intraY16 _ _ _ | .intraUv8 _ _ _ | .aboveRightCopy
  | .mcPred _ _ => ∃ ws : List (Addr × Byte), u = { s with mem := Memory.writeAll s.mem ws }
  | .lfFrameInit =>
    u = { (if s.sharpness ≠ s.lastSharp then s.rebuildLimits else s) with
      lvl := tabulate 64 fun n => byte (s.levelOf (n / 16) (n / 4 % 4) (n % 4)) }
  | .lfMb _ _ _ _ _ _ | .lfEdge _ _ _ => ∃ es : List EdgeJob, u = { s with mem := runEdges es s.mem }

theorem State.guarded_ok {s f u : State} {fp : List Addr} (h : s.guarded fp f = .ok u) :
    s.admitsAll fp = true ∧ u = f := by
  rcases s.guarded_cases fp f with ⟨ha, hg⟩ | ⟨_, hg⟩ <;> rw [hg] at h
  · exact ⟨ha, (Except.ok.inj h).symm⟩
  · cases h

theorem State.idctAdd_ok {s u : State} {b : Nat} (h : s.idctAdd b = .ok u) :
    ∃ ws : List (Addr × Byte), u = { s with mem := Memory.writeAll s.mem ws } := ⟨_, (State.guarded_ok h).2⟩

theorem State.idctDcAdd_ok {s u : State} {b : Nat} (h : s.idctDcAdd b = .ok u) :
    ∃ ws : List (Addr × Byte), u = { s with mem := Memory.writeAll s.mem ws } := ⟨_, (State.guarded_ok h).2⟩

theorem State.intraBlock_ok {s u : State} {n : Nat} {mode : BitVec 4} {up left : Bool}
    (h : s.intraBlock n mode up left = .ok u) :
    ∃ ws : List (Addr × Byte), u = { s with mem := Memory.writeAll s.mem ws } := by
  unfold State.intraBlock at h
  split at h
  · cases h
  · exact ⟨_, (State.guarded_ok h).2⟩

/-- What a command can do. -/
theorem exec_effect (i : Instr) (s : State) : ∃ r, exec i s = complete s r ∧ ∀ u, r = .ok u → Effect i s u := by
  cases i with
  | nop => exact ⟨.ok s, rfl, fun u h => (Except.ok.inj h).symm⟩
  | bdInit =>
    refine ⟨_, rfl, fun u h => ?_⟩
    split at h
    · cases h
    · obtain ⟨ha, rfl⟩ := State.guarded_ok h
      exact ⟨by omega, ha, rfl⟩
  | bdBool p =>
    refine ⟨_, rfl, fun u h => ?_⟩
    split at h
    · exact ⟨by assumption, (Except.ok.inj h).symm⟩
    · cases h
  | bdLiteral k =>
    refine ⟨_, rfl, fun u h => ?_⟩
    split at h
    · exact ⟨by assumption, (Except.ok.inj h).symm⟩
    · cases h
  | treeRead tree start =>
    refine ⟨_, rfl, fun u h => ?_⟩
    split at h
    · cases h
    · split at h
      · cases h
      · split at h
        · split at h
          · exact ⟨by assumption, _, _, _, by assumption, by assumption, (Except.ok.inj h).symm⟩
          · cases h
        · cases h
  | dequant b =>
    refine ⟨_, rfl, fun u h => ?_⟩
    split at h
    · cases h
    · cases h; rfl
  | iwht => exact ⟨.ok s.iwht, rfl, fun u h => by cases h; rfl⟩
  | iwhtDc => exact ⟨.ok s.iwhtDc, rfl, fun u h => by cases h; rfl⟩
  | iwhtAuto =>
    refine ⟨.ok (if 1 < s.eobAt 24 then s.iwht else s.iwhtDc), rfl, fun u h => ?_⟩
    cases h
    show _ = _
    split <;> rfl
  | idctAdd b =>
    refine ⟨_, rfl, fun u h => ?_⟩
    split at h
    · cases h
    · exact State.idctAdd_ok h
  | idctDcAdd b =>
    refine ⟨_, rfl, fun u h => ?_⟩
    split at h
    · cases h
    · exact State.idctDcAdd_ok h
  | idctAutoAdd b =>
    refine ⟨_, rfl, fun u h => ?_⟩
    split at h
    · cases h
    · split at h
      · exact State.idctAdd_ok h
      · exact State.idctDcAdd_ok h
  | coefClear => exact ⟨.ok _, rfl, fun u h => by cases h; rfl⟩
  | intraB4 mode =>
    refine ⟨_, rfl, fun u h => ?_⟩
    split at h
    · cases h
    · exact ⟨_, (State.guarded_ok h).2⟩
  | intraY16 mode up left => exact ⟨_, rfl, fun u h => State.intraBlock_ok h⟩
  | intraUv8 mode up left => exact ⟨_, rfl, fun u h => State.intraBlock_ok h⟩
  | aboveRightCopy => exact ⟨_, rfl, fun u h => ⟨_, (State.guarded_ok h).2⟩⟩
  | mcPred size chroma => exact ⟨_, rfl, fun u h => ⟨_, (State.guarded_ok h).2⟩⟩
  | lfFrameInit => exact ⟨.ok _, rfl, fun u h => (Except.ok.inj h).symm⟩
  | lfMb seg ref mode skip top leftMb =>
    refine ⟨_, rfl, fun u h => ?_⟩
    split at h
    · cases h
    · split at h
      · cases h
      · exact ⟨_, (State.guarded_ok h).2⟩
  | lfEdge dir kind cnt =>
    refine ⟨_, rfl, fun u h => ?_⟩
    split at h
    · cases h
    · rename_i e _
      exact ⟨[e], (State.guarded_ok h).2⟩

/-- Every command ends in a next state: the end of its effect, or a failure that changes STATUS alone. -/
theorem exec_cases (i : Instr) (s : State) :
    (∃ u, exec i s = .next u.finish ∧ Effect i s u) ∨ ∃ e, exec i s = .next (s.fail e) := by
  obtain ⟨r, hr, heff⟩ := exec_effect i s
  cases r with
  | ok u => exact .inl ⟨u, hr, heff u rfl⟩
  | error e => exact .inr ⟨e, hr⟩

/-- The filtering of an edge keeps the canonical form of memory. -/
theorem EdgeJob.wf_run (e : EdgeJob) (m : Memory) (h : Memory.wf m = true) : Memory.wf (e.run m) = true := by
  unfold EdgeJob.run
  generalize List.range e.count = l
  induction l generalizing m with
  | nil => exact h
  | cons i l ih => exact ih _ (Memory.wf_writeAll _ _ h)

theorem wf_runEdges (es : List EdgeJob) (m : Memory) (h : Memory.wf m = true) : Memory.wf (runEdges es m) = true := by
  induction es generalizing m with
  | nil => exact h
  | cons e es ih => exact ih _ (e.wf_run m h)

/-- A command's effect keeps the canonical form of memory. -/
theorem Effect.wf {i : Instr} {s u : State} (h : Effect i s u) (hs : Memory.wf s.mem = true) : Memory.wf u.mem = true := by
  cases i <;> simp only [Effect] at h
  case nop => rw [h]; exact hs
  case bdInit => rw [h.2.2]; exact hs
  case bdBool => rw [h.2]; exact hs
  case bdLiteral => rw [h.2]; exact hs
  case treeRead => obtain ⟨_, _, _, _, _, _, rfl⟩ := h; exact hs
  case lfFrameInit => rw [h]; simp only; split <;> exact hs
  case lfMb => obtain ⟨es, rfl⟩ := h; exact wf_runEdges es _ hs
  case lfEdge => obtain ⟨es, rfl⟩ := h; exact wf_runEdges es _ hs
  all_goals first
    | (obtain ⟨ws, rfl⟩ := h; exact Memory.wf_writeAll ws _ hs)
    | (rw [h]; exact hs)

end Sys2Proof.Machine
end

