-- ==== Sys2Proof/Laws/DecodingCommands.lean ====
section
/-! SUPPORT. Runs of decisions: what a literal, a tree walk and BD_INIT leave in the decoder's registers. -/

namespace Sys2Proof.Machine

/-- A later decoder of the same stream: its registers in range, the same end, no byte unread again. -/
structure Follows (vs : ValueSize) (bd bd' : BoolDecoder) : Prop where
  inRange : DecoderInRange vs bd'
  stop : bd'.stop = bd.stop
  pos : bd.pos.toNat ≤ bd'.pos.toNat

theorem Follows.trans {vs : ValueSize} {a b c : BoolDecoder} (h : Follows vs a b) (h' : Follows vs b c) : Follows vs a c :=
  ⟨h'.inRange, h'.stop.trans h.stop, le_trans h.pos h'.pos⟩

theorem follows_decodeBool {vs : ValueSize} (m : Memory) (p : Byte) {bd : BoolDecoder} (h : DecoderInRange vs bd) :
    Follows vs bd (decodeBool vs m p bd).2 :=
  have ⟨h1, h2, h3, _⟩ := decodeBool_inRange m p h
  ⟨h1, h2, h3⟩

theorem follows_decodeLiteral {vs : ValueSize} (m : Memory) (k : Nat) {bd : BoolDecoder} (h : DecoderInRange vs bd) :
    Follows vs bd (decodeLiteral vs m k bd).2 := by
  induction k generalizing bd with
  | zero => exact ⟨h, rfl, le_refl _⟩
  | succ k ih =>
    have h1 := follows_decodeBool m 128#8 h
    exact h1.trans (ih h1.inRange)

theorem follows_treeWalk {vs : ValueSize} {m : Memory} {probAt : Nat → Byte} {t : List Int} {steps i sym : Nat}
    {bd bd' : BoolDecoder} (h : DecoderInRange vs bd) (hw : treeWalk vs m probAt t steps i bd = .ok (sym, bd')) :
    Follows vs bd bd' := by
  induction steps generalizing i bd with
  | zero => cases hw
  | succ n ih =>
    simp only [treeWalk] at hw
    split at hw
    · cases hw
    · have h1 := follows_decodeBool m (probAt (i / 2)) h
      split at hw
      · cases hw; exact h1
      · exact h1.trans (ih h1.inRange hw)

/-- A decision is 0 or 1, in every state. -/
theorem decodeBool_bit (vs : ValueSize) (m : Memory) (p : Byte) (bd : BoolDecoder) :
    (decodeBool vs m p bd).1 = 0 ∨ (decodeBool vs m p bd).1 = 1 := by
  rw [decodeBool_eq, decide1]
  simp only
  split <;> simp

/-- The value of k literal bits is below 2^k. -/
theorem decodeLiteral_lt (vs : ValueSize) (m : Memory) (k : Nat) (bd : BoolDecoder) :
    (decodeLiteral vs m k bd).1 < 2 ^ k := by
  induction k generalizing bd with
  | zero => simp [decodeLiteral]
  | succ k ih =>
    have hz := ih (decodeBool vs m 128#8 bd).2
    simp only [decodeLiteral]
    rcases decodeBool_bit vs m 128#8 bd with h | h <;> rw [h, Nat.pow_succ] <;> omega

theorem bdStart_pos {a n : Nat} (h : a + n ≤ 2 ^ 32) : (bdStart a n).pos.toNat = a := by
  simp [bdStart]; omega

theorem bdStart_stop {a n : Nat} (h : a + n ≤ 2 ^ 32) : (bdStart a n).stop.toNat = a + n := by
  simp [bdStart]; omega

theorem bdStart_count (a n : Nat) : (bdStart a n).count.toInt = -8 := by
  show (BitVec.ofInt 32 (-8)).toInt = -8
  decide

/-- After BD_INIT every register is in its range, BD_RANGE is 255, and the unread bytes are in the buffer. -/
theorem bdInit_inRange (vs : ValueSize) (m : Memory) {a n : Nat} (h : a + n ≤ 2 ^ 32) :
    let bd := refill vs m (bdStart a n)
    DecoderInRange vs bd ∧ bd.range = 255#8 ∧ bd.stop.toNat = a + n ∧ a ≤ bd.pos.toNat ∧ 0 ≤ bd.count.toInt := by
  have hp := bdStart_pos h
  have hst := bdStart_stop h
  have hc := bdStart_count a n
  obtain ⟨r1, r2, r3, r4, r5, r6, r7, r8⟩ :=
    refill_registers vs m (bdStart a n) (by omega) (by omega) (by omega) (by omega)
  have hv := refill_value_lt vs m (bdStart a n) (by omega) (by omega) (by omega) (Nat.two_pow_pos _)
  have hcount : 0 ≤ (refill vs m (bdStart a n)).count.toInt ∧
      (refill vs m (bdStart a n)).count.toInt ≤ Config.lotsOfBits + vsBits vs - 8 := by
    rw [r5]
    cases he : refillEnds vs (bdStart a n)
    · have := (r8 he).2
      simp only [Config.lotsOfBits, Bool.false_eq_true, if_false]; omega
    · simp only [Config.lotsOfBits, if_true]; omega
  have hr : (refill vs m (bdStart a n)).range = 255#8 := r1
  refine ⟨⟨?_, ?_, ?_, hv, ?_, hcount.2⟩, hr, ?_, ?_, hcount.1⟩
  · rw [hr]; decide
  · rw [r2, r3]; exact r4
  · rw [r2, hst]; exact h
  · omega
  · rw [r2, hst]
  · rw [r3, hp]; omega

/-- The footprint of BD_INIT is its buffer. -/
theorem mem_streamAddrs {a : Word} {n : Nat} (h : a.toNat + n ≤ 2 ^ 32) {x : Addr} :
    x ∈ streamAddrs a n ↔ a.toNat ≤ x.toNat ∧ x.toNat < a.toNat + n := by
  simp only [streamAddrs, rowAddrs, List.mem_map, List.mem_range]
  have key : ∀ j : Nat, j < n → (pixAddr a 0#32 0 (0 + (j : Int))).toNat = a.toNat + j := by
    intro j hj
    have e : ((a.toNat : Int) + 0 * ((0#32 : Word).toNat : Int) + (0 + (j : Int))) = ((a.toNat + j : Nat) : Int) := by
      push_cast; omega
    rw [pixAddr, toAddr, e, BitVec.ofInt_natCast, BitVec.toNat_ofNat, Nat.mod_eq_of_lt (by omega)]
  constructor
  · rintro ⟨j, hj, rfl⟩
    rw [key j hj]; omega
  · rintro ⟨h1, h2⟩
    refine ⟨x.toNat - a.toNat, by omega, ?_⟩
    apply BitVec.eq_of_toNat_eq
    rw [key _ (by omega)]; omega

end Sys2Proof.Machine
end

