-- ==== Sys2Proof/Laws/Filters.lean ====
section
/-! SUPPORT. The signed pixels of the loop filter as integers (rule R220): x^ is x - 128, and s2u stores y + 128. -/

namespace Sys2Proof.Machine

/-- x^ is x - 128 (R220). -/
theorem toSigned_eq (x : Byte) : toSigned x = (x.toNat : Int) - 128 := by
  revert x; decide +kernel

theorem sclamp_range (v : Int) : -128 ≤ sclamp v ∧ sclamp v ≤ 127 := by
  unfold sclamp; omega

/-- s2u stores y + 128, for every y in the signed range (R220). -/
theorem toUnsigned_toNat {y : Int} (h : -128 ≤ y) (h' : y ≤ 127) : ((toUnsigned y).toNat : Int) = y + 128 := by
  have table : ∀ k : Fin 256, ((toUnsigned ((k : Nat) - 128 : Int)).toNat : Int) = ((k : Nat) - 128 : Int) + 128 := by
    decide +kernel
  have hk := table ⟨(y + 128).toNat, by omega⟩
  have e : (((y + 128).toNat : Nat) : Int) - 128 = y := by omega
  simpa only [e] using hk

/-- What every filter stores: the saturated value. -/
theorem toUnsigned_sclamp (v : Int) : ((toUnsigned (sclamp v)).toNat : Int) = sclamp v + 128 :=
  toUnsigned_toNat (sclamp_range v).1 (sclamp_range v).2

/-- The edge test as an inequality of integers (R221). -/
theorem edgeTest_iff (blimit : Nat) (p1 p0 q0 q1 : Byte) :
    edgeTest blimit p1 p0 q0 q1 = true ↔ absDiff p0 q0 * 2 + absDiff p1 q1 / 2 ≤ blimit := by
  simp only [edgeTest, decide_eq_true_eq]

end Sys2Proof.Machine
end

