-- ==== Sys2Proof/Laws/Footprint.lean ====
section
/-! SUPPORT. The address lists of footprints as windows of bytes (rules R12, R13): one lemma per list. -/

namespace Sys2Proof.Machine

/-- An address of a window, by row and column. -/
theorem mem_windowAddrs {base stride : Word} {r0 c0 : Int} {rows cols : Nat} {a : Addr} :
    a ∈ windowAddrs base stride r0 c0 rows cols ↔
      InWindow a base.toNat stride.toNat r0 (r0 + rows - 1) c0 (c0 + cols - 1) := by
  simp only [windowAddrs, List.mem_map, List.mem_range, InWindow, pixAddr, toAddr]
  constructor
  · rintro ⟨k, hk, rfl⟩
    have hw : 0 < cols := Nat.pos_of_ne_zero fun h0 => by simp [h0] at hk
    have h1 : k / cols < rows := Nat.div_lt_of_lt_mul hk
    have h2 : k % cols < cols := Nat.mod_lt _ hw
    generalize k / cols = i at h1 ⊢
    generalize k % cols = j at h2 ⊢
    exact ⟨r0 + i, c0 + j, by omega, by omega, by omega, by omega, rfl⟩
  · rintro ⟨r, c, h1, h2, h3, h4, rfl⟩
    obtain ⟨i, hi⟩ := Int.eq_ofNat_of_zero_le (show 0 ≤ r - r0 by omega)
    obtain ⟨j, hj⟩ := Int.eq_ofNat_of_zero_le (show 0 ≤ c - c0 by omega)
    have hjc : j < cols := by omega
    have hw : 0 < cols := by omega
    refine ⟨i * cols + j, ?_, ?_⟩
    · calc i * cols + j < (i + 1) * cols := by rw [Nat.add_mul]; omega
        _ ≤ rows * cols := Nat.mul_le_mul_right _ (by omega)
        _ = cols * rows := Nat.mul_comm _ _
    · rw [Nat.mul_comm i cols, Nat.mul_add_div hw, Nat.div_eq_of_lt hjc, Nat.mul_add_mod, Nat.mod_eq_of_lt hjc]
      congr 1
      have e1 : r0 + ((i + 0 : Nat) : Int) = r := by omega
      have e2 : c0 + (j : Int) = c := by omega
      rw [e1, e2]

/-- A block is the window at row 0, column 0. -/
theorem blockAddrs_eq (base stride : Word) (w h : Nat) : blockAddrs base stride w h = windowAddrs base stride 0 0 h w := by
  simp [blockAddrs, windowAddrs]

/-- A row of bytes is a window of one row. -/
theorem rowAddrs_eq (base : Word) (j0 : Int) (n : Nat) : rowAddrs base j0 n = windowAddrs base 0#32 0 j0 1 n := by
  simp only [rowAddrs, windowAddrs, Nat.mul_one]
  refine List.map_congr_left fun k hk => ?_
  have hk : k < n := List.mem_range.mp hk
  simp [Nat.div_eq_of_lt hk, Nat.mod_eq_of_lt hk]

/-- A column of bytes is a window of one column. -/
theorem colAddrs_eq (base stride : Word) (n : Nat) : colAddrs base stride n = windowAddrs base stride 0 0 n 1 := by
  simp [colAddrs, windowAddrs, Nat.mod_one]

/-- The bytes an edge reads, by position and offset (R225, R226). -/
theorem EdgeJob.mem_footprint {e : EdgeJob} {a : Addr} :
    a ∈ e.footprint ↔ ∃ (i : Nat) (k : Int), i < e.count ∧ k ∈ readOffsets e.kind ∧ e.addr i k = a := by
  simp only [EdgeJob.footprint, List.mem_flatMap, List.mem_map, List.mem_range]
  exact ⟨fun ⟨i, hi, k, hk, h⟩ => ⟨i, k, hi, hk, h⟩, fun ⟨i, k, hi, hk, h⟩ => ⟨i, hi, k, hk, h⟩⟩

/-- A window at a base reduced modulo 2^32 is the window at the exact base (R12). -/
theorem inWindow_toAddr {a : Addr} {b stride r0 r1 c0 c1 : Int} :
    InWindow a (toAddr b).toNat stride r0 r1 c0 c1 ↔ InWindow a b stride r0 r1 c0 c1 := by
  have key : ∀ x : Int, (BitVec.ofInt 32 ((toAddr b).toNat + x) : Addr) = BitVec.ofInt 32 (b + x) := fun x => by
    apply BitVec.eq_of_toNat_eq
    simp only [toAddr, BitVec.toNat_ofInt]
    omega
  simp only [InWindow, Int.add_assoc, key]

end Sys2Proof.Machine
end

