-- ==== Sys2Proof/Laws/PerInstr.lean ====
section
/-! SUPPORT. Statements made once per command: `EncodeOpcode` says that the low byte of a command's encoding is the opcode
of its row in the opcode map (rules R80, R84). -/

namespace Sys2Proof.Laws.EncodeOpcode

open Sys2Proof

/-- The low byte of the encoding of a command is the opcode of its mnemonic's row. -/
def Statement (i : Instr) : Prop :=
  ∃ op low, (op, i.mnemonic, low) ∈ opcodeRows ∧ (encode i).toNat % 256 = op

/-- Appending a low byte: that byte is the value modulo 256. -/
theorem low_byte {n : Nat} (x : BitVec n) (b : BitVec 8) : (x ++ b).toNat % 256 = b.toNat := by
  have h : (2 : Nat) ^ 8 = 256 := rfl
  rw [BitVec.toNat_append, Nat.shiftLeft_eq, ← h, Nat.mul_comm, ← Nat.two_pow_add_eq_or_of_lt b.isLt,
    Nat.mul_add_mod, Nat.mod_eq_of_lt b.isLt]

theorem nop : Statement .nop := ⟨0x00, 8, by decide, rfl⟩

theorem bdInit : Statement .bdInit := ⟨0x01, 8, by decide, rfl⟩

theorem bdBool (prob : BitVec 8) : Statement (.bdBool prob) := ⟨0x02, 16, by simp [opcodeRows, Instr.mnemonic], low_byte _ _⟩

theorem bdLiteral (nbits : BitVec 5) : Statement (.bdLiteral nbits) :=
  ⟨0x03, 13, by simp [opcodeRows, Instr.mnemonic], low_byte _ _⟩

theorem treeRead (tree : BitVec 4) (start : BitVec 5) : Statement (.treeRead tree start) :=
  ⟨0x10, 17, by simp [opcodeRows, Instr.mnemonic], low_byte _ _⟩

theorem dequant (blk : BitVec 5) : Statement (.dequant blk) :=
  ⟨0x20, 13, by simp [opcodeRows, Instr.mnemonic], low_byte _ _⟩

theorem iwht : Statement .iwht := ⟨0x21, 8, by decide, rfl⟩

theorem iwhtDc : Statement .iwhtDc := ⟨0x22, 8, by decide, rfl⟩

theorem iwhtAuto : Statement .iwhtAuto := ⟨0x23, 8, by decide, rfl⟩

theorem idctAdd (blk : BitVec 5) : Statement (.idctAdd blk) :=
  ⟨0x24, 13, by simp [opcodeRows, Instr.mnemonic], low_byte _ _⟩

theorem idctDcAdd (blk : BitVec 5) : Statement (.idctDcAdd blk) :=
  ⟨0x25, 13, by simp [opcodeRows, Instr.mnemonic], low_byte _ _⟩

theorem idctAutoAdd (blk : BitVec 5) : Statement (.idctAutoAdd blk) :=
  ⟨0x26, 13, by simp [opcodeRows, Instr.mnemonic], low_byte _ _⟩

theorem coefClear : Statement .coefClear := ⟨0x27, 8, by decide, rfl⟩

theorem intraB4 (mode : BitVec 4) : Statement (.intraB4 mode) :=
  ⟨0x30, 12, by simp [opcodeRows, Instr.mnemonic], low_byte _ _⟩

theorem intraY16 (mode : BitVec 4) (up left : Bool) : Statement (.intraY16 mode up left) :=
  ⟨0x31, 14, by simp [opcodeRows, Instr.mnemonic], low_byte _ _⟩

theorem intraUv8 (mode : BitVec 4) (up left : Bool) : Statement (.intraUv8 mode up left) :=
  ⟨0x32, 14, by simp [opcodeRows, Instr.mnemonic], low_byte _ _⟩

theorem aboveRightCopy : Statement .aboveRightCopy := ⟨0x33, 8, by decide, rfl⟩

theorem mcPred (size : BitVec 2) (chroma : Bool) : Statement (.mcPred size chroma) :=
  ⟨0x40, 11, by simp [opcodeRows, Instr.mnemonic], low_byte _ _⟩

theorem lfFrameInit : Statement .lfFrameInit := ⟨0x50, 8, by decide, rfl⟩

theorem lfMb (seg ref : BitVec 2) (mode : BitVec 4) (skip top leftMb : Bool) :
    Statement (.lfMb seg ref mode skip top leftMb) :=
  ⟨0x51, 19, by simp [opcodeRows, Instr.mnemonic], low_byte _ _⟩

theorem lfEdge (dir : Bool) (kind : BitVec 2) (cnt : Bool) : Statement (.lfEdge dir kind cnt) :=
  ⟨0x52, 12, by simp [opcodeRows, Instr.mnemonic], low_byte _ _⟩

end Sys2Proof.Laws.EncodeOpcode
end

