-- ==== Sys2Proof/Laws/Stream.lean ====
section
/-! SUPPORT. The stream behind BD_VALUE: an ideal decoder that holds the whole stream in one register of L bits and never
refills, and the decoder of either VS as a view of its top bits (R63, R102, R105). -/

namespace Sys2Proof.Machine

/-- The bytes at pos, ..., pos + r - 1 as the top of a number of w bits, the first byte highest. -/
def unread (m : Memory) : Nat → Nat → Nat → Nat
  | 0, _, _ => 0
  | r + 1, pos, w => (Memory.read m (BitVec.ofNat 32 pos)).toNat * 2 ^ (w - 8) + unread m r (pos + 1) (w - 8)

theorem unread_lt (m : Memory) (r pos w : Nat) (h : 8 * r ≤ w) : unread m r pos w < 2 ^ w := by
  induction r generalizing pos w with
  | zero => exact Nat.two_pow_pos _
  | succ r ih =>
    have hb := (Memory.read m (BitVec.ofNat 32 pos)).isLt
    have := ih (pos + 1) (w - 8) (by omega)
    have e : 2 ^ w = 2 ^ 8 * 2 ^ (w - 8) := by rw [← Nat.pow_add]; congr 1; omega
    rw [unread, e]
    calc _ < (Memory.read m (BitVec.ofNat 32 pos)).toNat * 2 ^ (w - 8) + 2 ^ (w - 8) := by omega
      _ = ((Memory.read m (BitVec.ofNat 32 pos)).toNat + 1) * 2 ^ (w - 8) := by rw [Nat.add_mul, Nat.one_mul]
      _ ≤ 2 ^ 8 * 2 ^ (w - 8) := Nat.mul_le_mul_right _ hb

theorem unread_split (m : Memory) (n r pos w : Nat) :
    unread m (n + r) pos w = unread m n pos w + unread m r (pos + n) (w - 8 * n) := by
  induction n generalizing pos w with
  | zero => simp [unread]
  | succ n ih =>
    rw [show n + 1 + r = (n + r) + 1 by omega, unread, unread, ih]
    rw [show pos + 1 + n = pos + (n + 1) by omega, show w - 8 - 8 * n = w - 8 * (n + 1) by omega]
    omega

theorem unread_scale (m : Memory) (r pos w k : Nat) (h : 8 * r ≤ w) :
    unread m r pos (w + k) = unread m r pos w * 2 ^ k := by
  induction r generalizing pos w with
  | zero => simp [unread]
  | succ r ih =>
    rw [unread, unread, show w + k - 8 = (w - 8) + k by omega, ih _ _ (by omega), Nat.pow_add]
    ring

theorem unread_dvd (m : Memory) (r pos w : Nat) (h : 8 * r ≤ w) : 2 ^ (w - 8 * r) ∣ unread m r pos w := by
  have := unread_scale m r pos (8 * r) (w - 8 * r) (le_refl _)
  rw [show 8 * r + (w - 8 * r) = w by omega] at this
  rw [this]; exact Dvd.intro_left _ rfl

/-- Where the low w bits of BD_VALUE are free, the loop adds the bytes it loads there. -/
theorem loadBytes_value_add (vs : ValueSize) (m : Memory) (n w : Nat) (shift : Int) (bd : BoolDecoder)
    (hpos : bd.pos.toNat + n ≤ 2 ^ 32) (hs : shift = (w : Int) - 8) (hn : 8 * n ≤ w) (hw : w ≤ vsBits vs)
    (hv : 2 ^ w ∣ bd.value.toNat) :
    (loadBytes vs m n shift bd).value.toNat = bd.value.toNat + unread m n bd.pos.toNat w := by
  induction n generalizing w shift bd with
  | zero => simp [loadBytes, unread]
  | succ n ih =>
    have hp : (bd.pos + 1#33).toNat = bd.pos.toNat + 1 := by
      rw [BitVec.toNat_add]; simp; omega
    have hb := (Memory.read m (BitVec.ofNat 32 bd.pos.toNat)).isLt
    have hval : (orByteAt vs bd.value (Memory.read m (bd.pos.setWidth 32)) shift).toNat
        = bd.value.toNat + (Memory.read m (BitVec.ofNat 32 bd.pos.toNat)).toNat * 2 ^ (w - 8) := by
      have hsn : shift.toNat = w - 8 := by omega
      rw [toNat_orByteAt, setWidth_pos, hsn]
      have hlt : (Memory.read m (BitVec.ofNat 32 bd.pos.toNat)).toNat * 2 ^ (w - 8) < 2 ^ w := by
        have e : 2 ^ w = 2 ^ 8 * 2 ^ (w - 8) := by rw [← Nat.pow_add]; congr 1; omega
        rw [e]; exact Nat.mul_lt_mul_of_pos_right hb (Nat.two_pow_pos _)
      rw [Nat.mod_eq_of_lt (lt_of_lt_of_le hlt (Nat.pow_le_pow_right (by omega) hw))]
      obtain ⟨q, hq⟩ := hv
      rw [hq, Nat.two_pow_add_eq_or_of_lt hlt]
    rw [loadBytes, ih (w - 8) _ _ (by simp only [hp]; omega) (by omega) (by omega) (by omega) ?_]
    · simp only [hval, hp, unread]; omega
    · simp only [hval]
      exact Dvd.dvd.add (dvd_trans (pow_dvd_pow 2 (by omega)) hv) (Dvd.intro_left _ rfl)

/-- The decoder holds the top of the number X of L bits, and memory the rest: with q bits of the stream loaded and not
yet consumed, BD_VALUE is X's top q bits and the unread bytes are the bits below; once nothing is unread, BD_VALUE is
all of X. -/
structure Tracks (L : Nat) (vs : ValueSize) (m : Memory) (bd : BoolDecoder) (X : Nat) : Prop where
  wide : vsBits vs ≤ L
  ordered : bd.pos.toNat ≤ bd.stop.toNat
  inSpace : bd.stop.toNat ≤ 2 ^ 32
  fits : bd.value.toNat < 2 ^ vsBits vs
  ended : bd.pos.toNat = bd.stop.toNat → bd.value.toNat * 2 ^ (L - vsBits vs) = X
  running : bd.pos.toNat < bd.stop.toNat → ∃ q : Nat, bd.count.toInt = (q : Int) - 8 ∧ q ≤ vsBits vs ∧
    q + 8 * (bd.stop.toNat - bd.pos.toNat) ≤ L ∧ 2 ^ (vsBits vs - q) ∣ bd.value.toNat ∧
    bd.value.toNat * 2 ^ (L - vsBits vs) + unread m (bd.stop.toNat - bd.pos.toNat) bd.pos.toNat (L - q) = X

/-- A refill keeps the number behind the decoder. -/
theorem Tracks.refill {L : Nat} {vs : ValueSize} {m : Memory} {bd : BoolDecoder} {X : Nat} (h : Tracks L vs m bd X)
    (hcount : bd.count.toInt < 0) (hlo : -8 ≤ bd.count.toInt) : Tracks L vs m (refill vs m bd) X := by
  obtain ⟨r1, r2, r3, r4, r5, r6, r7, r8⟩ := refill_registers vs m bd h.ordered h.inSpace hcount hlo
  have hv := refill_value_lt vs m bd h.ordered hcount hlo h.fits
  have hsp := h.inSpace
  have hvs := vsBits_cases vs
  refine ⟨h.wide, by rw [r2, r3]; exact r4, by rw [r2]; exact h.inSpace, hv, ?_, ?_⟩
  · intro he
    rw [r2, r3] at he
    rcases Nat.lt_or_eq_of_le h.ordered with hlt | heq
    · obtain ⟨q, hq, hqv, hqL, hdvd, hX⟩ := h.running hlt
      have hk : refillLoad vs bd = bd.stop.toNat - bd.pos.toNat := by omega
      have hval : (Machine.refill vs m bd).value.toNat
          = bd.value.toNat + unread m (refillLoad vs bd) bd.pos.toNat (vsBits vs - q) := by
        rw [refill_eq vs m bd h.ordered hcount hlo]
        split
        · exact loadBytes_value_add vs m _ (vsBits vs - q) _ { bd with count := _ } (by change bd.pos.toNat + _ ≤ _; omega)
            (by simp only [refillShift]; omega) (by omega) (by omega) hdvd
        · exact loadBytes_value_add vs m _ (vsBits vs - q) _ bd (by omega)
            (by simp only [refillShift]; omega) (by omega) (by omega) hdvd
      rw [hval, hk, ← hX, Nat.add_mul, ← unread_scale _ _ _ _ _ (by omega)]
      have := h.wide
      rw [show vsBits vs - q + (L - vsBits vs) = L - q by omega]
    · have hk : refillLoad vs bd = 0 := by omega
      have hval : (Machine.refill vs m bd).value = bd.value := by
        rw [refill_eq vs m bd h.ordered hcount hlo, hk]; split <;> rfl
      rw [hval]; exact h.ended heq
  · intro hlt'
    rw [r2, r3] at hlt'
    obtain ⟨q, hq, hqv, hqL, hdvd, hX⟩ := h.running (by omega)
    have hends : refillEnds vs bd = false := by
      cases he : refillEnds vs bd
      · rfl
      · have := r7 he; omega
    have hval : (Machine.refill vs m bd).value.toNat
        = bd.value.toNat + unread m (refillLoad vs bd) bd.pos.toNat (vsBits vs - q) := by
      rw [refill_eq vs m bd h.ordered hcount hlo, hends]
      exact loadBytes_value_add vs m _ (vsBits vs - q) _ bd (by omega)
        (by simp only [refillShift]; omega) (by omega) (by omega) hdvd
    refine ⟨q + 8 * refillLoad vs bd, ?_, ?_, ?_, ?_, ?_⟩
    · rw [r5, hends]; push_cast; omega
    · omega
    · rw [r2, r3]; omega
    · rw [hval]
      refine Dvd.dvd.add (dvd_trans (pow_dvd_pow 2 (by omega)) hdvd) ?_
      have := unread_dvd m (refillLoad vs bd) bd.pos.toNat (vsBits vs - q) (by omega)
      rwa [show vsBits vs - (q + 8 * refillLoad vs bd) = vsBits vs - q - 8 * refillLoad vs bd by omega]
    · have hw := h.wide
      rw [hval, r2, r3, ← hX, Nat.add_mul, ← unread_scale _ _ _ _ _ (by omega)]
      rw [show vsBits vs - q + (L - vsBits vs) = L - q by omega]
      have := unread_split m (refillLoad vs bd) (bd.stop.toNat - (bd.pos.toNat + refillLoad vs bd)) bd.pos.toNat (L - q)
      rw [show refillLoad vs bd + (bd.stop.toNat - (bd.pos.toNat + refillLoad vs bd)) = bd.stop.toNat - bd.pos.toNat by omega] at this
      rw [this, show L - (q + 8 * refillLoad vs bd) = L - q - 8 * refillLoad vs bd by omega]
      omega

/-- The decision the ideal decoder makes: 1 when the top of X reaches the split. -/
def idealBit (L : Nat) (split X : Nat) : Nat := if split * 2 ^ (L - 8) ≤ X then 1 else 0

/-- What the ideal decoder holds after a decision that shifts by sh. -/
def idealNext (L : Nat) (split X sh : Nat) : Nat :=
  (if split * 2 ^ (L - 8) ≤ X then X - split * 2 ^ (L - 8) else X) * 2 ^ sh % 2 ^ L

theorem norm_le (r : Nat) : norm r ≤ 7 := by unfold norm; split_ifs <;> omega

/-- Nat form of the value a decision leaves. -/
theorem decide1_value {vs : ValueSize} {split : Nat} {bd : BoolDecoder} (h : bd.value.toNat < 2 ^ vsBits vs) :
    let bit := split * 2 ^ (vsBits vs - 8) ≤ bd.value.toNat
    let sh := norm ((if bit then (bd.range.toNat : Int) - split else split).toNat)
    (decide1 vs split bd).1 = (if bit then 1 else 0) ∧
      (decide1 vs split bd).2.value.toNat =
        (if bit then bd.value.toNat - split * 2 ^ (vsBits vs - 8) else bd.value.toNat) * 2 ^ sh % 2 ^ vsBits vs ∧
      (decide1 vs split bd).2.count = BitVec.ofInt 32 (bd.count.toInt - sh) ∧
      (decide1 vs split bd).2.pos = bd.pos ∧ (decide1 vs split bd).2.stop = bd.stop := by
  have hc : ((split : Int) * 2 ^ (vsBits vs - 8) ≤ (bd.value.toNat : Int)) ↔ split * 2 ^ (vsBits vs - 8) ≤ bd.value.toNat := by
    constructor <;> intro h <;> exact_mod_cast h
  simp only [decide1, decide_eq_true_eq, hc]
  refine ⟨trivial, ?_, trivial, trivial, trivial⟩
  generalize norm _ = sh
  have e64 : (2 : Nat) ^ vsBits vs ≤ 2 ^ 64 := Nat.pow_le_pow_right (by omega) (by rcases vsBits_cases vs with h | h <;> omega)
  have key : ∀ v : Nat, (BitVec.ofInt 64 ((v : Int) * 2 ^ sh % 2 ^ vsBits vs)).toNat = v * 2 ^ sh % 2 ^ vsBits vs := by
    intro v
    have : ((v : Int) * 2 ^ sh % 2 ^ vsBits vs) = ((v * 2 ^ sh % 2 ^ vsBits vs : Nat) : Int) := by push_cast; rfl
    rw [this, BitVec.ofInt_natCast, BitVec.toNat_ofNat, Nat.mod_eq_of_lt]
    exact lt_of_lt_of_le (Nat.mod_lt _ (Nat.two_pow_pos _)) e64
  by_cases hb : split * 2 ^ (vsBits vs - 8) ≤ bd.value.toNat
  · simp only [hb, if_true]
    have : (bd.value.toNat : Int) - split * 2 ^ (vsBits vs - 8) = ((bd.value.toNat - split * 2 ^ (vsBits vs - 8) : Nat) : Int) := by
      push_cast [Nat.cast_sub hb]; rfl
    rw [this]; exact key _
  · simp only [hb, if_false]; exact key _

/-- A decision of a decoder that tracks X is the ideal decoder's decision on X, and the decoder after it tracks what the
ideal decoder then holds. -/
theorem Tracks.decide {L : Nat} {vs : ValueSize} {m : Memory} {bd : BoolDecoder} {X : Nat} (h : Tracks L vs m bd X)
    (hcount : 0 ≤ bd.count.toInt) (split : Nat) :
    let sh := norm ((if idealBit L split X = 1 then (bd.range.toNat : Int) - split else split).toNat)
    (decide1 vs split bd).1 = idealBit L split X ∧ Tracks L vs m (decide1 vs split bd).2 (idealNext L split X sh) := by
  have hw := h.wide
  have hvs := vsBits_cases vs
  obtain ⟨d1, d2, d3, d4, d5⟩ := decide1_value (split := split) h.fits
  set V := bd.value.toNat with hV
  set P := 2 ^ (L - vsBits vs) with hP
  have hPpos : 0 < P := Nat.two_pow_pos _
  have hSP : split * 2 ^ (L - 8) = split * 2 ^ (vsBits vs - 8) * P := by
    rw [hP, Nat.mul_assoc, ← Nat.pow_add]; congr 2; omega
  have hLP : 2 ^ L = 2 ^ vsBits vs * P := by rw [hP, ← Nat.pow_add]; congr 1; omega
  -- the rest below the register, U
  obtain ⟨U, hX, hcmp⟩ : ∃ U, V * P + U = X ∧ (split * 2 ^ (vsBits vs - 8) ≤ V ↔ split * 2 ^ (L - 8) ≤ X) := by
    rcases Nat.lt_or_eq_of_le h.ordered with hlt | heq
    · obtain ⟨q, hq, hqv, hqL, hdvd, hX⟩ := h.running hlt
      rw [← hV] at hdvd hX; rw [← hP] at hX
      refine ⟨_, hX, ?_⟩
      have hU := unread_lt m (bd.stop.toNat - bd.pos.toNat) bd.pos.toNat (L - q) (by omega)
      rw [hSP]
      constructor
      · intro hle
        have := Nat.mul_le_mul_right P hle
        omega
      · intro hle
        by_contra hlt'
        have hdvd2 : 2 ^ (vsBits vs - q) ∣ split * 2 ^ (vsBits vs - 8) :=
          Dvd.dvd.mul_left (pow_dvd_pow 2 (by omega)) _
        obtain ⟨a, ha⟩ := hdvd
        obtain ⟨b, hb⟩ := hdvd2
        have hab : a < b := by
          by_contra hge
          exact hlt' (by rw [ha, hb]; exact Nat.mul_le_mul_left _ (by omega))
        have h1 : V + 2 ^ (vsBits vs - q) ≤ split * 2 ^ (vsBits vs - 8) := by
          rw [ha, hb, ← Nat.mul_succ]; exact Nat.mul_le_mul_left _ hab
        have h2 := Nat.mul_le_mul_right P h1
        have h3 : 2 ^ (vsBits vs - q) * P = 2 ^ (L - q) := by
          rw [hP, ← Nat.pow_add]; congr 1; omega
        rw [Nat.add_mul, h3] at h2
        omega
    · have hX := h.ended heq
      rw [← hV, ← hP] at hX
      refine ⟨0, hX, ?_⟩
      rw [← hX, hSP]
      exact ⟨fun hle => Nat.mul_le_mul_right P hle, fun hle => Nat.le_of_mul_le_mul_right hle hPpos⟩
  have hbit : (idealBit L split X = 1) ↔ split * 2 ^ (vsBits vs - 8) ≤ V := by
    rw [hcmp]; unfold idealBit; split <;> simp_all
  simp only [hbit]
  set sh := norm ((if split * 2 ^ (vsBits vs - 8) ≤ V then (bd.range.toNat : Int) - split else split).toNat) with hsh
  have hsh7 : sh ≤ 7 := norm_le _
  refine ⟨?_, ?_⟩
  · rw [d1]; unfold idealBit; simp only [hcmp]
  -- what is left of the register and of X after the subtraction
  set V1 := if split * 2 ^ (vsBits vs - 8) ≤ V then V - split * 2 ^ (vsBits vs - 8) else V with hV1
  have hX1 : (if split * 2 ^ (L - 8) ≤ X then X - split * 2 ^ (L - 8) else X) = V1 * P + U := by
    by_cases hb : split * 2 ^ (vsBits vs - 8) ≤ V
    · rw [if_pos (hcmp.1 hb), hV1, if_pos hb, Nat.sub_mul, hSP]
      have := Nat.mul_le_mul_right P hb
      omega
    · rw [if_neg (fun hh => hb (hcmp.2 hh)), hV1, if_neg hb]; exact hX.symm
  have hnext : idealNext L split X sh = (V1 * 2 ^ sh % 2 ^ vsBits vs * P + U * 2 ^ sh) % 2 ^ L := by
    have e : V1 * 2 ^ sh * P % 2 ^ L = V1 * 2 ^ sh % 2 ^ vsBits vs * P := by rw [hLP, Nat.mul_mod_mul_right]
    rw [idealNext, hX1, Nat.add_mul, Nat.mul_right_comm, ← e, Nat.mod_add_mod]
  have hd2 : (decide1 vs split bd).2.value.toNat = V1 * 2 ^ sh % 2 ^ vsBits vs := d2
  have hlt : V1 * 2 ^ sh % 2 ^ vsBits vs < 2 ^ vsBits vs := Nat.mod_lt _ (Nat.two_pow_pos _)
  refine ⟨hw, by rw [d4, d5]; exact h.ordered, by rw [d5]; exact h.inSpace, by rw [hd2]; exact hlt, ?_, ?_⟩
  · intro he
    rw [d4, d5] at he
    have hU0 : U = 0 := by have := h.ended he; rw [← hV, ← hP] at this; omega
    rw [hd2, hnext, hU0, Nat.zero_mul, Nat.add_zero, ← hP]
    refine (Nat.mod_eq_of_lt ?_).symm
    rw [hLP]; exact Nat.mul_lt_mul_of_pos_right hlt hPpos
  · intro he
    rw [d4, d5] at he ⊢
    obtain ⟨q, hq, hqv, hqL, hdvd, hXq⟩ := h.running he
    rw [← hV] at hdvd hXq; rw [← hP] at hXq
    have hUq : U = unread m (bd.stop.toNat - bd.pos.toNat) bd.pos.toNat (L - q) := by omega
    have hdvd1 : 2 ^ (vsBits vs - q) ∣ V1 := by
      rw [hV1]; split
      · exact Nat.dvd_sub hdvd (Dvd.dvd.mul_left (pow_dvd_pow 2 (by omega)) _)
      · exact hdvd
    have hdvd' : 2 ^ (vsBits vs - (q - sh)) ∣ V1 * 2 ^ sh % 2 ^ vsBits vs := by
      rw [show vsBits vs - (q - sh) = (vsBits vs - q) + sh by omega, Nat.pow_add]
      refine (Nat.dvd_mod_iff ?_).2 (Nat.mul_dvd_mul hdvd1 (dvd_refl _))
      rw [← Nat.pow_add]; exact pow_dvd_pow 2 (by omega)
    have hUlt : U * 2 ^ sh < 2 ^ (L - (q - sh)) := by
      rw [hUq, ← unread_scale _ _ _ _ _ (by omega), show L - q + sh = L - (q - sh) by omega]
      exact unread_lt _ _ _ _ (by omega)
    refine ⟨q - sh, ?_, by omega, by omega, by rw [hd2]; exact hdvd', ?_⟩
    · rw [d3, toInt_ofInt_32 (by omega) (by omega)]; omega
    · rw [hd2, hnext, ← hP, show L - (q - sh) = L - q + sh by omega, unread_scale _ _ _ _ _ (by omega), ← hUq]
      refine (Nat.mod_eq_of_lt ?_).symm
      obtain ⟨a, ha⟩ := hdvd'
      have hpw : 2 ^ vsBits vs = 2 ^ (vsBits vs - (q - sh)) * 2 ^ (q - sh) := by rw [← Nat.pow_add]; congr 1; omega
      have halt : a < 2 ^ (q - sh) := by
        rw [ha, hpw] at hlt; exact Nat.lt_of_mul_lt_mul_left hlt
      have h1 : V1 * 2 ^ sh % 2 ^ vsBits vs + 2 ^ (vsBits vs - (q - sh)) ≤ 2 ^ vsBits vs := by
        rw [ha, ← Nat.mul_succ]; conv_rhs => rw [hpw]
        exact Nat.mul_le_mul_left _ halt
      have h2 := Nat.mul_le_mul_right P h1
      have h3 : 2 ^ (vsBits vs - (q - sh)) * P = 2 ^ (L - (q - sh)) := by
        rw [hP, ← Nat.pow_add]; congr 1; omega
      rw [Nat.add_mul, h3, ← hLP] at h2
      omega

end Sys2Proof.Machine
end

