-- ==== Sys2Proof/Laws/Window.lean ====
section
/-! SUPPORT. What a write to the register window can do, and where a read finds the entries of the files. -/

namespace Sys2Proof.Machine

theorem State.writeReg_status (s : State) (v : Word) : s.writeReg 0x008 v = s.writeStatus v := rfl

theorem State.writeReg_ctrl (s : State) (v : Word) : s.writeReg 0x00C v = s.writeCtrl v := rfl

/-- A write to CTRL without SOFT_RESET. -/
theorem State.writeCtrl_configures (s : State) {v : Word} (h : v.getLsbD 0 = false) :
    s.writeCtrl v = { s with ctrl := v &&& ctrlMask } := by
  unfold State.writeCtrl; rw [if_neg (by rw [h]; exact Bool.false_ne_true)]

theorem State.writeCtrl_resets (s : State) {v : Word} (h : v.getLsbD 0 = true) : s.writeCtrl v = s.resetRegisters := by
  unfold State.writeCtrl; rw [if_pos h]

/-- What holds of both branches holds of a choice. -/
theorem ite_of_both {α : Type} {P : α → Prop} {c : Prop} [Decidable c] {a b : α} (ha : P a) (hb : P b) :
    P (if c then a else b) := by split <;> assumption

/-- t is s with the registers the host writes, other than CTRL, changed, and the reserved bits of LF_CFG still 0. -/
def State.Configured (s t : State) : Prop :=
  t = { s with
    lfCfg := t.lfCfg, lfSeg := t.lfSeg, lfRefd := t.lfRefd, lfModed := t.lfModed, dq := t.dq, args := t.args,
    prob := t.prob, treeRam := t.treeRam, coef := t.coef, eob := t.eob } ∧
  (t.lfCfg = s.lfCfg ∨ ∃ v, t.lfCfg = v &&& lfCfgMask)

/-- A write to any register but STATUS and CTRL changes the host-written registers alone. -/
theorem State.writeReg_other (s : State) {off : Nat} (h8 : off ≠ 0x008) (hC : off ≠ 0x00C) (v : Word) :
    s.Configured (s.writeReg off v) := by
  unfold State.writeReg
  rw [if_neg h8, if_neg hC]
  repeat' refine ite_of_both ?_ ?_
  all_goals first
    | exact ⟨rfl, .inl rfl⟩
    | exact ⟨rfl, .inr ⟨v, rfl⟩⟩

/-! The words of the files. -/

/-- Lane j of the word of four bytes is byte j (R63 c). -/
theorem wordOfBytes_lane (b0 b1 b2 b3 : Byte) {j : Nat} (hj : j < 4) :
    (wordOfBytes b0 b1 b2 b3).extractLsb' (8 * j) 8 = [b0, b1, b2, b3].getD j 0#8 := by
  obtain rfl | rfl | rfl | rfl : j = 0 ∨ j = 1 ∨ j = 2 ∨ j = 3 := by omega
  all_goals
    refine BitVec.eq_of_getLsbD_eq fun i hi => ?_
    simp only [wordOfBytes, BitVec.getLsbD_extractLsb', BitVec.getLsbD_append, hi, decide_true, Bool.true_and]
    repeat' split
    all_goals first | omega | (simp; congr 1; omega) | simp

/-- Lane j of the word of two halfwords is halfword j (R63 c). -/
theorem wordOfHalves_lane (h0 h1 : Half) {j : Nat} (hj : j < 2) :
    (wordOfHalves h0 h1).extractLsb' (16 * j) 16 = [h0, h1].getD j 0#16 := by
  obtain rfl | rfl : j = 0 ∨ j = 1 := by omega
  all_goals
    refine BitVec.eq_of_getLsbD_eq fun i hi => ?_
    simp only [wordOfHalves, BitVec.getLsbD_extractLsb', BitVec.getLsbD_append, hi, decide_true, Bool.true_and]
    repeat' split
    all_goals first | omega | (simp; congr 1; omega) | simp

/-- Entry k of a file of bytes stands in lane k % 4 of its word k / 4 (R39, R40, R42 to R44). -/
theorem fileWord_lane {n : Nat} (v : Vector Byte n) (k : Nat) :
    (fileWord v (k / 4)).extractLsb' (8 * (k % 4)) 8 = v.getD k 0#8 := by
  rw [fileWord, wordOfBytes_lane _ _ _ _ (Nat.mod_lt _ (by decide))]
  have hk := Nat.div_add_mod k 4
  obtain h | h | h | h : k % 4 = 0 ∨ k % 4 = 1 ∨ k % 4 = 2 ∨ k % 4 = 3 := by omega
  all_goals rw [h] at hk ⊢; simp only [List.getD_cons_zero, List.getD_cons_succ]; congr 1

/-- Halfword h of COEF stands in lane h % 2 of word h / 2 (R41). -/
theorem coefWord_lane (v : Vector Half 400) (h : Nat) :
    (coefWord v (h / 2)).extractLsb' (16 * (h % 2)) 16 = v.getD h 0#16 := by
  rw [coefWord, wordOfHalves_lane _ _ (Nat.mod_lt _ (by decide))]
  have hk := Nat.div_add_mod h 2
  obtain e | e : h % 2 = 0 ∨ h % 2 = 1 := by omega
  all_goals rw [e] at hk ⊢; simp only [List.getD_cons_zero, List.getD_cons_succ]; congr 1

/-! Where each file stands in the window (R20). -/

theorem State.readReg_prob (s : State) {k : Nat} (h : k < 4) : s.readReg (0x080 + 4 * k) = fileWord s.prob k := by
  unfold State.readReg
  repeat rw [if_neg (by omega)]
  rw [if_pos (by omega)]
  congr 1; omega

theorem State.readReg_treeRam (s : State) {k : Nat} (h : k < 8) : s.readReg (0x090 + 4 * k) = fileWord s.treeRam k := by
  unfold State.readReg
  repeat rw [if_neg (by omega)]
  rw [if_pos (by omega)]
  congr 1; omega

theorem State.readReg_coef (s : State) {k : Nat} (h : k < 200) : s.readReg (0x100 + 4 * k) = coefWord s.coef k := by
  unfold State.readReg
  repeat rw [if_neg (by omega)]
  rw [if_pos (by omega)]
  congr 1; omega

theorem State.readReg_eob (s : State) {k : Nat} (h : k < 7) : s.readReg (0x420 + 4 * k) = fileWord s.eob k := by
  unfold State.readReg
  repeat rw [if_neg (by omega)]
  rw [if_pos (by omega)]
  congr 1; omega

theorem State.readReg_lvl (s : State) {k : Nat} (h : k < 16) : s.readReg (0x440 + 4 * k) = fileWord s.lvl k := by
  unfold State.readReg
  repeat rw [if_neg (by omega)]
  rw [if_pos (by omega)]
  congr 1; omega

theorem State.readReg_lim (s : State) {k : Nat} (h : k < 16) : s.readReg (0x480 + 4 * k) = fileWord s.lim k := by
  unfold State.readReg
  repeat rw [if_neg (by omega)]
  rw [if_pos (by omega)]
  congr 1; omega

theorem State.readReg_blim (s : State) {k : Nat} (h : k < 16) : s.readReg (0x4C0 + 4 * k) = fileWord s.blim k := by
  unfold State.readReg
  repeat rw [if_neg (by omega)]
  rw [if_pos (by omega)]
  congr 1; omega

theorem State.readReg_mblim (s : State) {k : Nat} (h : k < 16) : s.readReg (0x500 + 4 * k) = fileWord s.mblim k := by
  unfold State.readReg
  repeat rw [if_neg (by omega)]
  rw [if_pos (by omega)]
  congr 1; omega

end Sys2Proof.Machine
end

