-- ==== Sys2Proof/Tests/Slice0.lean ====
section
/-! SUPPORT. The model's own tests: words of every format against the patterns of R90, ill-formed commands, one or two
single steps per command with expected values from 95_test_vectors.md, and for every statement with hypotheses a
concrete state and operands that meet them. -/

namespace Sys2Proof.Tests

open Sys2Proof Sys2Proof.Machine

set_option Elab.async false

/-! Decoding: every word below is written out from the patterns of R90. -/

theorem test_decode_nop : decode 0b00000000000000000000000000000000#32 = .ok .nop := by decide

theorem test_decode_bdInit : decode 0b00000000000000000000000000000001#32 = .ok .bdInit := by decide

theorem test_decode_bdBool : decode 0b00000000000000001100100000000010#32 = .ok (.bdBool 0b11001000#8) := by decide

theorem test_decode_bdLiteral : decode 0b00000000000000000001011000000011#32 = .ok (.bdLiteral 0b10110#5) := by decide

theorem test_decode_treeRead : decode 0b00000000000000010110100100010000#32 = .ok (.treeRead 0b1001#4 0b10110#5) := by
  decide

theorem test_decode_dequant : decode 0b00000000000000000001100000100000#32 = .ok (.dequant 0b11000#5) := by decide

theorem test_decode_iwht : decode 0b00000000000000000000000000100001#32 = .ok .iwht := by decide

theorem test_decode_iwhtDc : decode 0b00000000000000000000000000100010#32 = .ok .iwhtDc := by decide

theorem test_decode_iwhtAuto : decode 0b00000000000000000000000000100011#32 = .ok .iwhtAuto := by decide

theorem test_decode_idctAdd : decode 0b00000000000000000001011100100100#32 = .ok (.idctAdd 0b10111#5) := by decide

theorem test_decode_idctDcAdd : decode 0b00000000000000000000110100100101#32 = .ok (.idctDcAdd 0b01101#5) := by decide

theorem test_decode_idctAutoAdd : decode 0b00000000000000000000010100100110#32 = .ok (.idctAutoAdd 0b00101#5) := by
  decide

theorem test_decode_coefClear : decode 0b00000000000000000000000000100111#32 = .ok .coefClear := by decide

theorem test_decode_intraB4 : decode 0b00000000000000000000100100110000#32 = .ok (.intraB4 0b1001#4) := by decide

theorem test_decode_intraY16 :
    decode 0b00000000000000000001001100110001#32 = .ok (.intraY16 0b0011#4 true false) := by decide

theorem test_decode_intraUv8 :
    decode 0b00000000000000000010001000110010#32 = .ok (.intraUv8 0b0010#4 false true) := by decide

theorem test_decode_aboveRightCopy : decode 0b00000000000000000000000000110011#32 = .ok .aboveRightCopy := by decide

theorem test_decode_mcPred : decode 0b00000000000000000000011001000000#32 = .ok (.mcPred 0b10#2 true) := by decide

theorem test_decode_lfFrameInit : decode 0b00000000000000000000000001010000#32 = .ok .lfFrameInit := by decide

theorem test_decode_lfMb :
    decode 0b00000000000000110111011001010001#32 = .ok (.lfMb 0b10#2 0b01#2 0b0111#4 true true false) := by decide

theorem test_decode_lfEdge :
    decode 0b00000000000000000000101101010010#32 = .ok (.lfEdge true 0b01#2 true) := by decide

/-- An opcode outside the map, also with bit 31 set; a reserved bit of three formats, also beside a reserved MODE
(V-ENC, corner cases). -/
theorem test_decode_refusals :
    decode 0x00000004#32 = .error .illegalOpcode ∧ decode 0x80000004#32 = .error .illegalOpcode ∧
      decode 0x80000000#32 = .error .reservedField ∧ decode 0x00010002#32 = .error .reservedField ∧
      decode 0x00002003#32 = .error .reservedField ∧ decode 0x00004531#32 = .error .reservedField := by decide

/-! WellFormed: an ill-formed command for each check, beside its well-formed neighbour (R86; V-ENC, corner cases). -/

theorem test_wellFormed_tree : (Instr.treeRead 10#4 0#5).fieldError = some .illegalMode ∧
    (Instr.treeRead 14#4 0#5).fieldError = some .illegalMode ∧ (Instr.treeRead 15#4 30#5).wellFormed = true := by decide

theorem test_wellFormed_start : (Instr.treeRead 3#4 1#5).fieldError = some .badParam ∧
    (Instr.treeRead 0#4 8#5).fieldError = some .badParam ∧ (Instr.treeRead 0#4 6#5).wellFormed = true := by decide

theorem test_wellFormed_dequant : (Instr.dequant 25#5).fieldError = some .badParam ∧
    (Instr.dequant 24#5).wellFormed = true := by decide

theorem test_wellFormed_idct : (Instr.idctAdd 24#5).fieldError = some .badParam ∧
    (Instr.idctDcAdd 24#5).fieldError = some .badParam ∧ (Instr.idctAutoAdd 24#5).fieldError = some .badParam ∧
    (Instr.idctAdd 23#5).wellFormed = true := by decide

theorem test_wellFormed_intraB4 : (Instr.intraB4 10#4).fieldError = some .illegalMode ∧
    (Instr.intraB4 9#4).wellFormed = true := by decide

theorem test_wellFormed_intraBlock : (Instr.intraY16 4#4 true true).fieldError = some .illegalMode ∧
    (Instr.intraUv8 4#4 true true).fieldError = some .illegalMode ∧
    (Instr.intraY16 3#4 true true).wellFormed = true := by decide

theorem test_wellFormed_lfMb : (Instr.lfMb 0#2 0#2 10#4 false false false).fieldError = some .illegalMode ∧
    (Instr.lfMb 0#2 1#2 0#4 false false false).fieldError = some .badParam ∧
    (Instr.lfMb 0#2 0#2 7#4 false false false).fieldError = some .badParam ∧
    (Instr.lfMb 0#2 1#2 7#4 false false false).wellFormed = true := by decide

theorem test_wellFormed_lfEdge : (Instr.lfEdge true 3#2 true).fieldError = some .illegalMode ∧
    (Instr.lfEdge true 2#2 true).wellFormed = true := by decide

/-! Single steps. -/

/-- The memory that holds the given bytes from address a on. -/
def bytesAt (a : Nat) (bs : List Nat) : Memory :=
  (bs.zipIdx.map fun z => (a + z.2, BitVec.ofNat 8 z.1)).filter fun e => e.2 != 0#8

/-- The reset state with the given ARG registers and memory. -/
def small (args : List Nat) (mem : Memory) : State :=
  { State.reset with args := tabulate 8 fun k => BitVec.ofNat 32 (args.getD k 0), mem := mem }

/-- s with the given coefficients in block b, from coefficient 0 on. -/
def withBlock (s : State) (b : Nat) (cs : List Int) : State :=
  { s with coef := tabulate 400 fun h => if h / 16 = b then half (cs.getD (h % 16) 0) else s.coef.getD h 0#16 }

/-- What f says of the state after one step that runs the command word w from s. -/
def view {α : Type} (w : Nat) (s : State) (f : State → α) : Option α :=
  match step (s.withFetchWord 32 w) with
  | .next t => some (f t)
  | .fault _ | .refused _ => none

/-- The n bytes of memory from a on. -/
def bytes (a n : Nat) (s : State) : List Nat := (List.range n).map fun k => (Memory.read s.mem (BitVec.ofNat 32 (a + k))).toNat

/-- The decoder after BD_INIT on a buffer at 0x1000, as V-BD-1 gives it. -/
def started (value : Nat) (count : Nat) (n : Nat) : State :=
  { small [0x1000, n] [] with
    bdReady := true
    bd := { value := BitVec.ofNat 64 value, count := BitVec.ofNat 32 count, range := 255#8, pos := BitVec.ofNat 33 (0x1000 + n),
            stop := BitVec.ofNat 33 (0x1000 + n) } }

/-- NOP leaves DONE alone set. -/
theorem test_nop : view 0x00000000 State.reset (fun t => t.statusWord) = some 0x00000002#32 := by decide +kernel

/-- V-BD-1, first row. -/
theorem test_bdInit : view 0x00000001 (small [0x1000, 4] (bytesAt 0x1000 [0x5A, 0xC3, 0x00, 0x00]))
    (fun t => (t.bd.value, t.bd.count, t.bd.range, t.readReg 0x070, t.statusWord)) =
      some (0x5AC3000000000000#64, 0x40000018#32, 255#8, 0x1004#32, 0x00000012#32) := by decide +kernel

/-- PROG-4: a buffer that leaves ADMIT = [0, 0x10000). -/
theorem test_bdInit_memFault : view 0x00000001
    { small [0xFFF8, 0x10] [] with params := { paramsReset with admitted := [⟨0, 0x10000⟩] } }
    (fun t => (t.statusWord, t.bd)) = some (0x0000050A#32, BoolDecoder.reset) := by decide +kernel

/-- V-BD-2, first row. -/
theorem test_bdBool : view 0x00000102 (started 0x5AC3000000000000 0x40000018 4)
    (fun t => (t.res0, t.bd.range, t.bd.value, t.bd.count)) =
      some (1#32, 254#8, 0x59C3000000000000#64, 0x40000018#32) := by decide +kernel

/-- PROG-1: a decoding command before BD_INIT. -/
theorem test_bdBool_notReady : view 0x00008002 State.reset (fun t => t.statusWord) = some 0x0000060A#32 := by
  decide +kernel

/-- V-BD-3. -/
theorem test_bdLiteral : view 0x00000803 (started 0x5AC3000000000000 0x40000018 4)
    (fun t => (t.res0, t.bd.range, t.bd.value, t.bd.count)) =
      some (0x5A#32, 128#8, 0x6180000000000000#64, 0x40000011#32) := by decide +kernel

/-- V-TR-2. -/
theorem test_treeRead : view 0x00000310 (started 0x9C31770012EE4001 0x40000038 8)
    (fun t => (t.res0, t.bd.range, t.bd.value, t.bd.count)) =
      some (1#32, 254#8, 0x70C5DC004BB90004#64, 0x40000036#32) := by decide +kernel

/-- V-TR-5, the escape: the decoder is restored. -/
theorem test_treeRead_badTree : view 0x00000F10
    (((started 0x9C31770012EE4001 0x40000038 8).writeReg 0x090 0xFE28FF02#32).writeReg 0x080 0x8080FFFF#32)
    (fun t => (t.statusWord, t.bd.value, t.bd.count, t.bd.range)) =
      some (0x0000071A#32, 0x9C31770012EE4001#64, 0x40000038#32, 255#8) := by decide +kernel

/-- V-DQ-2. -/
theorem test_dequant : view 0x00001820 (withBlock { State.reset with dq := 0x00140008#32 } 24 [10, 3, -2])
    (fun t => (t.readReg 0x400, t.readReg 0x404)) = some (0x003C0050#32, 0x0000FFD8#32) := by decide +kernel

/-- V-DQ-1: -2048 * 157 truncated. -/
theorem test_dequant_truncates : view 0x00000520 (withBlock { State.reset with dq := 0x0000009D#32 } 5 [-2048])
    (fun t => t.coefAt 5 0) = some 6144 := by decide +kernel

/-- V-WHT-1. -/
theorem test_iwht : view 0x00000021 (withBlock State.reset 24 [80, -16, 0, 8, 4, 0, 0, 0, 0, 0, 0, 0, -4, 0, 0, 0])
    (fun t => (List.range 16).map fun k => t.coefAt k 0) =
      some [9, 7, 13, 11, 10, 8, 14, 12, 8, 6, 12, 10, 9, 7, 13, 11] := by decide +kernel

/-- V-WHT-2. -/
theorem test_iwhtDc : view 0x00000022 (withBlock State.reset 24 [-5]) (fun t => (t.coefAt 0 0, t.coefAt 15 0)) =
    some (-1, -1) := by decide +kernel

/-- V-WHT-4, EOB[24] = 2. -/
theorem test_iwhtAuto : view 0x00000023 (withBlock (State.reset.writeReg 0x438 2#32) 24 [100, 50])
    (fun t => (List.range 4).map fun k => t.coefAt k 0) = some [19, 19, 6, 6] := by decide +kernel

/-- V-WHT-4, EOB[24] = 1. -/
theorem test_iwhtAuto_dc : view 0x00000023 (withBlock (State.reset.writeReg 0x438 1#32) 24 [100, 50])
    (fun t => (List.range 4).map fun k => t.coefAt k 0) = some [12, 12, 12, 12] := by decide +kernel

/-- The prediction block of V-DCT: 16 pixels of 128 at 0x100, the destination at 0x200. -/
def predicted : State := small [0x100, 4, 0x200, 4] (bytesAt 0x100 (List.replicate 16 128))

/-- The block of V-DCT-2. -/
def dctBlock : List Int := [-64, 35, 0, 0, 17, 0, 0, 0, 0, 0, 0, 0, 0, 0, 0, 9]

/-- V-DCT-2. -/
theorem test_idctAdd : view 0x00000324 (withBlock predicted 3 dctBlock) (bytes 0x200 16) =
    some [129, 124, 121, 117, 126, 125, 117, 116, 125, 119, 118, 113, 123, 120, 114, 112] := by decide +kernel

/-- V-DCT-1: the residual is not truncated, the sum is clamped. -/
theorem test_idctDcAdd : view 0x00000025 (withBlock predicted 0 [32767]) (bytes 0x200 16) =
    some (List.replicate 16 255) := by decide +kernel

/-- V-DCT-5, EOB[5] = 16. -/
theorem test_idctAutoAdd : view 0x00000526 (withBlock (predicted.writeReg 0x424 0x00001000#32) 5 dctBlock)
    (bytes 0x200 4) = some [129, 124, 121, 117] := by decide +kernel

/-- V-DCT-5, EOB[5] = 1. -/
theorem test_idctAutoAdd_dc : view 0x00000526 (withBlock (predicted.writeReg 0x424 0x00000100#32) 5 dctBlock)
    (bytes 0x200 16) = some (List.replicate 16 120) := by decide +kernel

/-- R150. -/
theorem test_coefClear : view 0x00000027 ((withBlock State.reset 24 [7]).writeReg 0x438 9#32)
    (fun t => (t.coefAt 24 0, t.eobAt 24)) = some (0, 0) := by decide +kernel

/-- The neighbours of V-IP-1. -/
def neighbours : State := small [0x6001, 0x6010, 1, 0x6020, 4]
  (bytesAt 0x6000 [5, 10, 20, 30, 40, 50, 60, 70, 80] ++ bytesAt 0x6010 [15, 25, 35, 45])

/-- V-IP-1, B_VR. -/
theorem test_intraB4_vr : view 0x00000630 neighbours (bytes 0x6020 16) =
    some [8, 15, 25, 35, 9, 11, 20, 30, 15, 8, 15, 25, 25, 9, 11, 20] := by decide +kernel

/-- V-IP-1, B_HD. -/
theorem test_intraB4_hd : view 0x00000830 neighbours (bytes 0x6020 16) =
    some [10, 9, 11, 20, 20, 15, 10, 9, 30, 25, 20, 15, 40, 35, 30, 25] := by decide +kernel

/-- The neighbours of V-IP-3 and V-IP-4: t = 90, a = 100 + c, l = 50 + r. -/
def ramps (sd : Nat) : State := small [0x6001, 0x6020, 1, 0x6100, sd]
  (bytesAt 0x6000 (90 :: (List.range 16).map (100 + ·)) ++ bytesAt 0x6020 ((List.range 16).map (50 + ·)))

/-- V-IP-3, DC with UP = LEFT = 1, all rows at one place (SD = 0). -/
theorem test_intraY16_dc : view 0x00003031 (ramps 0) (bytes 0x6100 17) = some (List.replicate 16 83 ++ [0]) := by
  decide +kernel

/-- V-IP-3, V, all rows at one place (SD = 0). -/
theorem test_intraY16_v : view 0x00003131 (ramps 0) (bytes 0x6100 4) = some [100, 101, 102, 103] := by decide +kernel

/-- V-IP-4, DC with LEFT alone. -/
theorem test_intraUv8_dc : view 0x00002032 (ramps 8) (bytes 0x6100 64) = some (List.replicate 64 54) := by
  decide +kernel

/-- V-IP-4, TM. -/
theorem test_intraUv8_tm : view 0x00003332 (ramps 8) (fun t => (bytes 0x6100 1 t, bytes 0x613F 1 t)) =
    some ([60], [74]) := by decide +kernel

/-- V-IP-6. -/
theorem test_aboveRightCopy : view 0x00000033 (small [0x7040, 64] (bytesAt 0x7010 [0x11, 0x22, 0x33, 0x44]))
    (fun t => (bytes 0x7110 4 t, bytes 0x7210 4 t, bytes 0x7310 4 t, t.mem.length)) =
      some ([0x11, 0x22, 0x33, 0x44], [0x11, 0x22, 0x33, 0x44], [0x11, 0x22, 0x33, 0x44], 16) := by decide +kernel

/-- The reference of V-MC-1, as PROG-6 writes it: rows -2..6 of columns -2..6, pixel (r, c) at 0x8022 + 16r + c. -/
def referenceBytes : Memory :=
  [(0x8000, 0x64#8), (0x8001, 0x33#8), (0x8002, 0x1C#8), (0x8003, 0x1F#8), (0x8004, 0x3C#8), (0x8005, 0x73#8), (0x8006, 0xC4#8), (0x8007, 0x2F#8), (0x8008, 0xB4#8)] ++
  [(0x8010, 0x45#8), (0x8011, 0x19#8), (0x8012, 0x07#8), (0x8013, 0x0F#8), (0x8014, 0x31#8), (0x8015, 0x6D#8), (0x8016, 0xC3#8), (0x8017, 0x33#8), (0x8018, 0xBD#8)] ++
  [(0x8020, 0x34#8), (0x8021, 0x0D#8), (0x8023, 0x0D#8), (0x8024, 0x34#8), (0x8025, 0x75#8), (0x8026, 0xD0#8), (0x8027, 0x45#8), (0x8028, 0xD4#8)] ++
  [(0x8030, 0x31#8), (0x8031, 0x0F#8), (0x8032, 0x07#8), (0x8033, 0x19#8), (0x8034, 0x45#8), (0x8035, 0x8B#8), (0x8036, 0xEB#8), (0x8037, 0x65#8), (0x8038, 0xF9#8)] ++
  [(0x8040, 0x3C#8), (0x8041, 0x1F#8), (0x8042, 0x1C#8), (0x8043, 0x33#8), (0x8044, 0x64#8), (0x8045, 0xAF#8), (0x8046, 0x14#8), (0x8047, 0x93#8), (0x8048, 0x2C#8)] ++
  [(0x8050, 0x55#8), (0x8051, 0x3D#8), (0x8052, 0x3F#8), (0x8053, 0x5B#8), (0x8054, 0x91#8), (0x8055, 0xE1#8), (0x8056, 0x4B#8), (0x8057, 0xCF#8), (0x8058, 0x6D#8)] ++
  [(0x8060, 0x7C#8), (0x8061, 0x69#8), (0x8062, 0x70#8), (0x8063, 0x91#8), (0x8064, 0xCC#8), (0x8065, 0x21#8), (0x8066, 0x90#8), (0x8067, 0x19#8), (0x8068, 0xBC#8)] ++
  [(0x8070, 0xB1#8), (0x8071, 0xA3#8), (0x8072, 0xAF#8), (0x8073, 0xD5#8), (0x8074, 0x15#8), (0x8075, 0x6F#8), (0x8076, 0xE3#8), (0x8077, 0x71#8), (0x8078, 0x19#8)] ++
  [(0x8080, 0xF4#8), (0x8081, 0xEB#8), (0x8082, 0xFC#8), (0x8083, 0x27#8), (0x8084, 0x6C#8), (0x8085, 0xCB#8), (0x8086, 0x44#8), (0x8087, 0xD7#8), (0x8088, 0x84#8)]

/-- MC_PRED of a 4x4 block from it, with the given vector. -/
def reference (vector : Nat) : State := small [0x8022, 16, vector, 0x8200, 4] referenceBytes

/-- V-MC-1, (2, 6), six-tap. -/
theorem test_mcPred_sixTap : view 0x00000040 (reference 0x00060002) (bytes 0x8200 16) =
    some [6, 29, 74, 172, 25, 51, 116, 141, 59, 87, 167, 185, 101, 155, 179, 80] := by decide +kernel

/-- V-MC-3, (7, 1), bilinear. -/
theorem test_mcPred_bilinear : view 0x00000040 { reference 0x00010007 with ctrl := 0x4#32 } (bytes 0x8200 16) =
    some [13, 49, 112, 200, 26, 68, 135, 200, 53, 100, 172, 46, 95, 145, 195, 99] := by decide +kernel

/-- R240's example. -/
theorem test_lfFrameInit : view 0x00000050 { State.reset with ctrl := 0x300#32, lfCfg := 0x3F#32 }
    (fun t => (t.lastSharp, t.limAt 63, t.blimAt 63, t.mblimAt 63, t.readReg 0x47C)) =
      some (3#3, 6, 132, 136, 0x3F3F3F3F#32) := by decide +kernel

/-- V-LF-6, fourth row. -/
theorem test_lfFrameInit_deltas : view 0x00000050
    { State.reset with lfCfg := 0x41E#32, lfRefd := 0xFEFE0002#32, lfModed := 0x0402FE04#32 }
    (fun t => (t.readReg 0x440, t.readReg 0x444, t.readReg 0x44C)) =
      some (0x00002024#32, 0x22201C00#32, 0x201E1A00#32) := by decide +kernel

/-- A column of rows of the eight given pixels from 0x5000 on, stride 8, with the given ARGs. -/
def edgeRows (n : Nat) (row : List Nat) (args : List Nat) : State :=
  small args ((List.range n).flatMap fun r => bytesAt (0x5000 + 8 * r) row)

/-- The macroblock's left edge with the simple filter at level 12, blimit 3*12 + 4 = 40: V-LF-1, simple. -/
theorem test_lfMb : view 0x00050051
    { edgeRows 16 [90, 92, 94, 96, 110, 112, 114, 116] [0x5004, 0, 0, 8, 0] with
      ctrl := 0x10#32, lvl := Vector.replicate 64 12#8 }
    (fun t => (bytes 0x5000 8 t, bytes 0x5078 8 t)) =
      some ([90, 92, 94, 99, 107, 112, 114, 116], [90, 92, 94, 99, 107, 112, 114, 116]) := by decide +kernel

/-- V-LF-7: an intra mode with an inter reference. -/
theorem test_lfMb_badParam : view 0x00000451 State.reset (fun t => t.statusWord) = some 0x0000040A#32 := by
  decide +kernel

/-- V-LF-1, mb. -/
theorem test_lfEdge_mb : view 0x00000152
    (edgeRows 8 [90, 92, 94, 96, 110, 112, 114, 116] [0x5004, 8, 0x0002280A]) (fun t => (bytes 0x5000 8 t, bytes 0x5038 8 t)) =
      some ([90, 94, 97, 101, 105, 109, 112, 116], [90, 94, 97, 101, 105, 109, 112, 116]) := by decide +kernel

/-- V-LF-3, inner: high edge variance. -/
theorem test_lfEdge_inner : view 0x00000352
    (edgeRows 8 [50, 60, 70, 80, 160, 150, 140, 130] [0x5004, 8, 0x0005C814]) (bytes 0x5038 8) =
      some [50, 60, 70, 95, 145, 150, 140, 130] := by decide +kernel

/-! The host's accesses. -/

/-- R291, R61: a soft reset clears the other bits written with it; a halfword access has no step. -/
theorem test_softReset : (match step { State.reset with dq := 5#32, host := [.regWrite 32 0x00C 0xFFFFFFFF#32] } with
    | .next t => some (t.ctrl, t.dq) | .fault _ | .refused _ => none) = some (0#32, 0#32) := by decide +kernel

/-! Witnesses: for each statement with hypotheses, a concrete state and operands that meet them together, at boundary
values of each clause. -/

/-- With the parameters of State.reset every address is admitted. -/
theorem admits_all (s : State) (h : s.params = paramsReset) (a : Addr) : s.admits a = true := by
  have ha : a.toNat < 4294967296 := a.isLt
  simp [State.admits, h, paramsReset, ha]

/-- s with the given accesses coming from the host. -/
def withHost (s : State) (hs : List HostAction) : State := { s with host := hs }

/-- A 32-bit write of the window at offset off, MMIO_BASE being 0. -/
def wr (off : Nat) (v : Word) : HostAction := .regWrite 32 off v

theorem witness_EncodeDecodeRoundTrip : decode 0x00037651#32 = .ok (.lfMb 2#2 1#2 7#4 true true false) := by decide

theorem witness_OpcodeMapMatchAndMask : (0x00, "NOP", 8) ∈ opcodeRows ∧ (0x52, "LF_EDGE", 12) ∈ opcodeRows ∧
    ((0x00000F52#32 : Word).toNat % 256 = 0x52 ∧ (0x00000F52#32 : Word).toNat / 2 ^ 12 = 0) ∧
    (0x00001052#32 : Word).toNat / 2 ^ 12 ≠ 0 ∧ decode 0x00000B52#32 = .ok (.lfEdge true 1#2 true) := by decide

/-- The first and the last opcode of each illegal range, with and without other bits. -/
theorem witness_IllegalOpcodesFail :
    ∀ w ∈ ([0x04, 0x0F, 0x11, 0x1F, 0x28, 0x2F, 0x34, 0x3F, 0x41, 0x4F, 0x53, 0xFFFFFFFF] : List Nat),
      (0x04 ≤ w % 256 ∧ w % 256 ≤ 0x0F) ∨ (0x11 ≤ w % 256 ∧ w % 256 ≤ 0x1F) ∨ (0x28 ≤ w % 256 ∧ w % 256 ≤ 0x2F) ∨
        (0x34 ≤ w % 256 ∧ w % 256 ≤ 0x3F) ∨ (0x41 ≤ w % 256 ∧ w % 256 ≤ 0x4F) ∨ 0x53 ≤ w % 256 := by decide

theorem witness_ReservedEncodingsFail_bits : (0x40, "MC_PRED", 11) ∈ opcodeRows ∧
    (0x00000840#32 : Word).toNat % 256 = 0x40 ∧ (0x00000840#32 : Word).toNat / 2 ^ 11 ≠ 0 := by decide

/-- The boundary values of the field clauses: TREE, MODE, REF with MODE, BLK. -/
theorem witness_ReservedEncodingsFail_fields :
    (10 ≤ (10#4 : BitVec 4).toNat ∧ (10#4 : BitVec 4).toNat ≤ 14 ∧ (14#4 : BitVec 4).toNat ≤ 14) ∧
      4 ≤ (4#4 : BitVec 4).toNat ∧ ((0#2 : BitVec 2) = 0#2 ∧ 4 < (5#4 : BitVec 4).toNat) ∧
      ((1#2 : BitVec 2) ≠ 0#2 ∧ (4#4 : BitVec 4).toNat < 5) ∧ 24 < (25#5 : BitVec 5).toNat ∧
      23 < (24#5 : BitVec 5).toNat := by decide

/-- START odd, and START at the end of the table, of a ROM tree and of TREE_RAM. -/
theorem witness_ReservedEncodingsFail_start :
    (∃ t, State.reset.treeOf 0#4 = some t ∧ t.length ≤ (8#5 : BitVec 5).toNat + 1) ∧
      (∃ t, State.reset.treeOf 15#4 = some t ∧ (31#5 : BitVec 5).toNat % 2 = 1) := ⟨⟨_, rfl, by decide⟩, ⟨_, rfl, by decide⟩⟩

/-- A write of a legal word, a write of an illegal one, and a read of CMD. -/
theorem witness_CommandWriteRunsDecodedCommand :
    (withHost State.reset [wr 4 0x25#32]).busy = false ∧
      (withHost State.reset [wr 4 0x25#32]).host = .regWrite 32 (State.reset.params.mmioBase + 0x004) 0x25#32 :: [] ∧
      decode 0x25#32 = .ok (.idctDcAdd 0#5) ∧ decode 0x04#32 = .error .illegalOpcode ∧
      (withHost State.reset [.regRead 32 4]).host = .regRead 32 (State.reset.params.mmioBase + 0x004) :: [] := by decide

/-- A halfword access, a misaligned one, and the last register of the window. -/
theorem witness_RegisterAccessOutsideInterfaceSticks :
    State.reset.params.mmioBase ≤ 4095 ∧ 4095 < State.reset.params.mmioBase + 4096 ∧
      (withHost State.reset [.regRead 16 0]).host = .regRead 16 0 :: [] ∧ (16 ≠ 32) ∧
      (withHost State.reset [.regRead 32 4095]).host = .regRead 32 4095 :: [] ∧
      (4095 - State.reset.params.mmioBase) % 4 ≠ 0 ∧
      (withHost State.reset [wr 4092 1#32]).host = .regWrite 32 4092 1#32 :: [] ∧
      (4092 - State.reset.params.mmioBase) % 4 = 0 := by decide

theorem witness_InterfaceRunsNeverStop :
    ∀ h ∈ (withHost State.reset [wr 4 1#32, .regRead 32 4092, .memWrite 0xFFFFFFFF#32 1#8, .resetInput]).host,
      HostAction.inInterface State.reset.params.mmioBase h := by
  simp [withHost, wr, HostAction.inInterface, State.reset, State.resetWith, paramsReset, Config.windowSize]

/-- A read and a write of the last register, a write of STATUS beside CMD, frame-memory accesses, and the two resets. -/
theorem witness_HostAccessesChangeOnlyTheirTarget :
    (withHost State.reset [.regRead 32 0xFFC]).busy = false ∧
      (withHost State.reset [.regRead 32 0xFFC]).host = .regRead 32 (State.reset.params.mmioBase + 0xFFC) :: [] ∧
      (∀ off ∈ ([0x000, 0x008, 0xFFC] : List Nat), off < 4096 ∧ off % 4 = 0 ∧ off ≠ 0x004 ∧
        (withHost State.reset [wr off 7#32]).host = .regWrite 32 (State.reset.params.mmioBase + off) 7#32 :: []) ∧
      (withHost State.reset [.memRead 0#32]).host = .memRead 0#32 :: [] ∧
      (withHost State.reset [.memWrite 0xFFFFFFFF#32 7#8]).host = .memWrite 0xFFFFFFFF#32 7#8 :: [] ∧
      (0#32 : Addr) ≠ 0xFFFFFFFF#32 ∧
      ¬ (0x00C = 0x00C ∧ (0x73E#32 : Word).getLsbD 0 = true) ∧ ¬ (0x040 ≤ 0x060 ∧ 0x060 < 0x060) := by decide

theorem witness_HostAccessesChangeOnlyTheirTarget_reset :
    (withHost State.reset [.resetInput]).host = .resetInput :: [] ∧
      HostAction.resets State.reset.params.mmioBase .resetInput := ⟨rfl, trivial⟩

/-- The first and last offsets of each clause. -/
theorem witness_ReservedSpaceReadsZero :
    (∀ off ∈ ([0x02C, 0x03C, 0x078, 0x07C, 0x0B0, 0x0FC, 0x43C, 0x540, 0xFFC] : List Nat), off % 4 = 0 ∧ off < 4096 ∧
      ((0x02C ≤ off ∧ off ≤ 0x03C) ∨ (0x078 ≤ off ∧ off ≤ 0x07C) ∨ (0x0B0 ≤ off ∧ off ≤ 0x0FC) ∨ off = 0x43C ∨
        0x540 ≤ off)) ∧
    (∀ off ∈ ([0x000, 0x010, 0x028, 0x060, 0x074, 0x440, 0x53C] : List Nat), off % 4 = 0 ∧ off < 4096 ∧
      (off = 0x000 ∨ off = 0x010 ∨ off = 0x028 ∨ (0x060 ≤ off ∧ off ≤ 0x074) ∨ (0x440 ≤ off ∧ off < 0x540))) := by
  decide

/-- The first and last entries of the files where R41 to R44 place them, and the last entry of each clause. -/
theorem test_window_lanes :
    (let s := { State.reset with
      coef := State.reset.coef.setIfInBounds 399 0x8001#16, lvl := State.reset.lvl.setIfInBounds 63 0x3F#8,
      eob := State.reset.eob.setIfInBounds 24 0x10#8, prob := State.reset.prob.setIfInBounds 0 7#8 }
    (s.readReg 0x41C, s.readReg 0x47C, s.readReg 0x438, s.readReg 0x080)) =
      (0x80010000#32, 0x3F000000#32, 0x00000010#32, 0x80808007#32) := by decide +kernel

/-- CTRL, LF_CFG, the first and last offsets of the full-word registers, and the last EOB word. -/
theorem witness_RegisterWritesReadBack :
    (0x7FE#32 : Word).getLsbD 0 = false ∧
      (∀ off ∈ ([0x018, 0x024, 0x040, 0x05C, 0x080, 0x0AC, 0x100, 0x434] : List Nat), off % 4 = 0 ∧
        ((0x018 ≤ off ∧ off ≤ 0x024) ∨ (0x040 ≤ off ∧ off < 0x060) ∨ (0x080 ≤ off ∧ off < 0x0B0) ∨
          (0x100 ≤ off ∧ off < 0x438))) ∧
      ∀ off ∈ ([0x00C, 0x014, 0x438] : List Nat), off % 4 = 0 ∧ 0xFFC % 4 = 0 ∧ 0xFFC < 4096 ∧ 0xFFC ≠ off := by decide

theorem witness_InterruptRule : (0xA#32 : Word).getLsbD 1 = true ∧ (0xA#32 : Word).getLsbD 3 = true ∧
    (0x4#32 : Word).getLsbD 0 = false ∧ (0x4#32 : Word).getLsbD 1 = false := by decide

theorem witness_ResetRegisterValues :
    ((withHost State.reset [.resetInput]).host = .resetInput :: [] ∧
      HostAction.resets State.reset.params.mmioBase .resetInput) ∧
    (withHost State.reset [wr 0xC 1#32]).host = wr 0xC 1#32 :: [] ∧
      HostAction.resets State.reset.params.mmioBase (wr 0xC 1#32) := by
  refine ⟨⟨rfl, trivial⟩, rfl, ?_⟩
  simp [wr, HostAction.resets, State.reset, State.resetWith, paramsReset]

/-- A write to STATUS that clears DONE and CMD_ERR, in a state that holds both. -/
theorem witness_CommandsEnd :
    ∃ t, step (withHost { State.reset with done := true, cmdErr := true, errCode := 1#4 } [wr 8 0xA#32]) = .next t ∧
      t.done = false ∧ t.cmdErr = false ∧ ¬ HostAction.resets State.reset.params.mmioBase (wr 8 0xA#32) := by
  refine ⟨_, rfl, by decide, by decide, ?_⟩
  simp [wr, HostAction.resets, State.reset, State.resetWith, paramsReset]

/-- A soft reset that writes every other bit too, and a configuration write that writes every other bit. -/
theorem witness_SoftResetRule : State.reset.busy = false ∧
    (withHost State.reset [wr 0xC 0xFFFFFFFF#32]).host =
      .regWrite 32 (State.reset.params.mmioBase + 0x00C) 0xFFFFFFFF#32 :: [] ∧
    (0xFFFFFFFF#32 : Word).getLsbD 0 = true ∧ (0xFFFFFFFE#32 : Word).getLsbD 0 = false := by decide

/-- A reset that clears BD_READY and LAST_SHARP, an LF_FRAME_INIT that clears LAST_SHARP, and the idle step. -/
theorem witness_ReadyClearedOnlyByReset :
    (∃ t, step (withHost { State.reset with bdReady := true, lastSharp := 3#3 } [.resetInput]) = .next t ∧
      t.bdReady = false ∧ t.lastSharp = 0#3 ∧ HostAction.resets State.reset.params.mmioBase .resetInput) ∧
    (∃ t, step (withHost { State.reset with lastSharp := 3#3 } [wr 4 0x50#32]) = .next t ∧ t.lastSharp = 0#3) ∧
    step State.reset = .next State.reset :=
  ⟨⟨_, rfl, rfl, rfl, trivial⟩, ⟨_, rfl, by decide +kernel⟩, rfl⟩

/-- A state with an error code and two bytes of memory, with a command coming, meets the invariant and has a step. -/
theorem witness_StepKeepsInvariant :
    (withHost { State.reset with cmdErr := true, errCode := 7#4, mem := [(0, 1#8), (5, 255#8)] } [wr 4 0#32]).Inv ∧
      ∃ t, step (withHost { State.reset with cmdErr := true, errCode := 7#4, mem := [(0, 1#8), (5, 255#8)] }
        [wr 4 0#32]) = .next t := by
  refine ⟨⟨?_, ?_, ?_, ?_, ?_, ?_, ?_, ?_⟩, ⟨_, rfl⟩⟩
  · simp [State.StatusInv, withHost, State.reset, State.resetWith]
  · simp [State.ReservedInv, withHost, State.reset, State.resetWith, ctrlMask, lfCfgMask]
  · exact ⟨rfl, rfl, rfl⟩
  · intro k hk
    have : (withHost { State.reset with cmdErr := true, errCode := 7#4, mem := [(0, 1#8), (5, 255#8)] }
        [wr 4 0#32]).lvl = Vector.replicate 64 0#8 := rfl
    simp [this, Vector.getD, hk]
  · exact ⟨by decide, by decide, by decide, by decide, by decide, by decide⟩
  · intro a _ h
    exact absurd h (Nat.not_lt_zero _)
  · intro _; rfl
  · decide

theorem witness_CommandsChangeOnlyTheirState : ∃ t, exec .nop State.reset = .next t := ⟨_, rfl⟩

/-- V-MC-5: the six-tap footprint of P = 1 reaches 0xFFFFFFDF; and a buffer of 2 bytes at the last address. -/
theorem witness_UnadmittedFootprintFails :
    (Instr.mcPred 0#2 false).fieldError = none ∧
      (∃ a ∈ { small [1, 16, 2, 0x200, 4] [] with
          params := { paramsReset with admitted := [⟨0, 0x10000⟩] } }.footprintOf (.mcPred 0#2 false),
        { small [1, 16, 2, 0x200, 4] [] with params := { paramsReset with admitted := [⟨0, 0x10000⟩] } }.admits a = false) ∧
      Instr.bdInit.fieldError = none ∧ (small [0xFFFFFFFF, 2] []).bufferWraps .bdInit = true ∧
      (small [0xFFFFFFFF, 1] []).bufferWraps .bdInit = false := by decide +kernel

theorem witness_PreparedCommandsComplete :
    (Instr.idctAdd 23#5).fieldError = none ∧ (Instr.idctAdd 23#5).isDecoding = false ∧
      (∀ a ∈ State.reset.footprintOf (.idctAdd 23#5), State.reset.admits a = true) ∧
      State.reset.bufferWraps (.idctAdd 23#5) = false ∧ (small [0xFFFFFFFF, 1] []).bufferWraps .bdInit = false :=
  ⟨by decide, by decide, fun a _ => admits_all _ rfl a, by decide, by decide⟩

/-- A buffer that ends at the top of the address space; a decoding command before BD_INIT. -/
theorem witness_NotReadyUntilBdInit :
    ((small [0xFFFFFFFE, 2] []).arg 0).toNat + ((small [0xFFFFFFFE, 2] []).arg 1).toNat ≤ 2 ^ 32 ∧
      (∀ a ∈ (small [0xFFFFFFFE, 2] []).footprintOf .bdInit, (small [0xFFFFFFFE, 2] []).admits a = true) ∧
      (Instr.treeRead 15#4 30#5).isDecoding = true ∧ (Instr.treeRead 15#4 30#5).fieldError = none ∧
      State.reset.bdReady = false :=
  ⟨by decide +kernel, fun a _ => admits_all _ rfl a, by decide, by decide, rfl⟩

theorem witness_NopOnlySetsDone : State.reset.busy = false ∧ (0x80000000#32 : Word).toNat % 256 = 0 ∧
    (0x80000000#32 : Word).toNat / 256 ≠ 0 ∧ (0x00000100#32 : Word).toNat / 256 ≠ 0 := by decide

/-- The ends of the ranges of the NORM table: no two clauses meet. -/
theorem witness_NormTable :
    ([1, 2, 3, 4, 7, 8, 15, 16, 31, 32, 63, 64, 127, 128, 255].map fun r => 7 - Nat.log2 r) =
      [7, 6, 6, 5, 5, 4, 4, 3, 3, 2, 2, 1, 1, 0, 0] := by decide

theorem witness_RangeStaysNormalised :
    DecoderInRange .bits64 (started 0x5AC3000000000000 0x40000018 4).bd ∧
      DecoderInRange .bits32 { (started 0xFFFFFFFF 0xFFFFFFF9 4).bd with range := 128#8 } ∧
      ((small [0, 0] []).arg 0).toNat + ((small [0, 0] []).arg 1).toNat ≤ 2 ^ 32 ∧
      (∀ a ∈ (small [0, 0] []).footprintOf .bdInit, (small [0, 0] []).admits a = true) :=
  ⟨⟨by decide, by decide, by decide, by decide, by decide, by decide⟩,
    ⟨by decide, by decide, by decide, by decide, by decide, by decide⟩, by decide +kernel, fun a _ => admits_all _ rfl a⟩

/-- BD_COUNT = -8 and -1; 8 and 9 bytes left with VS = 64: the refill that meets the end and the one that does not. -/
theorem witness_RefillLoadsExactly :
    (∀ n ∈ ([8, 9] : List Nat), (bdStart 0x1000 n).pos.toNat ≤ (bdStart 0x1000 n).stop.toNat ∧
      (bdStart 0x1000 n).stop.toNat ≤ 2 ^ 32 ∧ -8 ≤ (bdStart 0x1000 n).count.toInt ∧
      (bdStart 0x1000 n).count.toInt < 0) ∧
    (-8 ≤ (0xFFFFFFFF#32 : Word).toInt ∧ (0xFFFFFFFF#32 : Word).toInt < 0) ∧
    (8 * (8 : Int) ≤ 64 - 8 - (-8 + 8) + 8 ∧ 64 - 8 - (-8 + 8) + 8 < 8 * (9 : Int)) := by decide

/-- Both decisions: BD_VALUE at the split (bit 1) and just below it (bit 0), with probability 128. -/
theorem witness_DecodeBoolDecides :
    DecoderInRange .bits64 (started 0x8000000000000000 0x40000018 4).bd ∧
      DecoderInRange .bits64 (started 0x7FFFFFFFFFFFFFFF 0x40000018 4).bd ∧
      1 + ((255 - 1) * 128) / 256 = 128 ∧ 128 * 2 ^ (64 - 8) ≤ 0x8000000000000000 ∧
      0x7FFFFFFFFFFFFFFF < 128 * 2 ^ (64 - 8) :=
  ⟨⟨by decide, by decide, by decide, by decide, by decide, by decide⟩,
    ⟨by decide, by decide, by decide, by decide, by decide, by decide⟩, by decide, by decide, by decide⟩

/-- Two states that differ in memory outside the stream and in the ARG registers. -/
theorem witness_DecodingReadsOnlyTheStream :
    (Instr.bdBool 1#8).isDecoding = true ∧
      (let s := { started 0x5A00000000000000 0xFFFFFFFF 1 with bd := { (started 0x5A00000000000000 0xFFFFFFFF 1).bd with pos := 0x1000#33 } }
       let u := { s with mem := [(0xFFF, 7#8), (0x1001, 9#8)], args := Vector.replicate 8 5#32 }
       DecoderInRange s.params.vs s.bd ∧ u.params.vs = s.params.vs ∧ u.bd = s.bd ∧ u.bdReady = s.bdReady ∧
         u.prob = s.prob ∧ u.treeRam = s.treeRam ∧ u.res0 = s.res0 ∧ u.cmdErr = s.cmdErr ∧ u.errCode = s.errCode ∧
         u.mem ≠ s.mem ∧
         ∀ a : Addr, s.bd.pos.toNat ≤ a.toNat → a.toNat < s.bd.stop.toNat → Memory.read u.mem a = Memory.read s.mem a) := by
  refine ⟨rfl, ⟨by decide, by decide, by decide, by decide, by decide, by decide⟩, rfl, rfl, rfl, rfl, rfl, rfl, rfl, rfl,
    by decide, ?_⟩
  intro a h1 h2
  have h1 : 0x1000 ≤ a.toNat := h1
  have h2 : a.toNat < 0x1001 := h2
  have : a.toNat = 0x1000 := by omega
  simp [Memory.read, small, started, this]

/-- The empty buffer, 8 bytes, and a buffer up to the top of the address space. -/
theorem witness_BdInitStartsTheStream :
    ∀ z ∈ ([(0, 0), (0x1000, 8), (0xFFFFFFF8, 8)] : List (Nat × Nat)),
      z.1 = ((small [z.1, z.2] []).arg 0).toNat ∧ z.2 = ((small [z.1, z.2] []).arg 1).toNat ∧ z.1 + z.2 ≤ 2 ^ 32 ∧
        (z.2 = 0 ∨ 8 ≤ z.2) ∧ (small [z.1, z.2] []).params.vs = .bits64 ∧
        (small [z.1, z.2] []).params = paramsReset := by decide +kernel

theorem witness_EmptyBufferDecodesZeros :
    ((small [0x1000, 0] []).arg 1).toNat = 0 ∧ ∃ t, exec .bdInit (small [0x1000, 0] []) = .next t :=
  ⟨by decide +kernel, (exec_effect _ _).elim fun r h => h.1 ▸ complete_total _ r⟩

theorem witness_BdBoolDecodes : (started 0x5AC3000000000000 0x40000018 4).bdReady = true := rfl

theorem witness_LiteralIsBoolCommands : (started 0x5AC3000000000000 0x40000018 4).bdReady = true := rfl

/-- V-BD-6's 8 bytes, loaded with either width. -/
theorem witness_DecodedBitsDoNotDependOnVs :
    let s := small [0x1000, 8] (bytesAt 0x1000 [0x9C, 0x31, 0x77, 0x00, 0x12, 0xEE, 0x40, 0x01])
    (s.arg 0).toNat + (s.arg 1).toNat ≤ 2 ^ 32 ∧ (∀ a ∈ s.footprintOf .bdInit, s.admits a = true) ∧
      (∃ t, exec .bdInit { s with params := { s.params with vs := .bits32 } } = .next t) ∧
      ∃ t, exec .bdInit { s with params := { s.params with vs := .bits64 } } = .next t :=
  ⟨by decide +kernel, fun a _ => admits_all _ rfl a, (exec_effect _ _).elim fun r h => h.1 ▸ complete_total _ r,
    (exec_effect _ _).elim fun r h => h.1 ▸ complete_total _ r⟩

/-- V-BD-5 on the buffer FF FF with VS = 64: after 8 decisions C = 8 and 8 * 2 - 8 < C fails; after 9 it holds and
BD_ERR is 1. With VS = 32 and 9 bytes the buffer is not yet read to its end. -/
theorem witness_EndOfBufferIsDetected :
    let m := bytesAt 0x1000 [0xFF, 0xFF]
    let z := fun k => decisions .bits64 m (List.replicate k 128#8) (refill .bits64 m (bdStart 0x1000 2))
    0x1000 + 2 ≤ 2 ^ 32 ∧ (z 8).2.1 = 8 ∧ (z 9).2.1 = 9 ∧ (z 9).2.1 < 2 ^ 29 ∧ (z 9).2.2.pos.toNat = 0x1000 + 2 ∧
      bdErrOf .bits64 (z 9).2.2 = true ∧ bdErrOf .bits64 (z 8).2.2 = false ∧
      (refill .bits32 m (bdStart 0x1000 9)).pos.toNat < 0x1000 + 9 := by decide +kernel

/-- Trees 0 and 9 from their last legal START; the reserved ids begin after 9 and end before 15. -/
theorem witness_RomTreesAlwaysYieldASymbol :
    (9#4 : BitVec 4).toNat < 10 ∧ 10 ≤ (10#4 : BitVec 4).toNat ∧ (14#4 : BitVec 4).toNat ≤ 14 ∧
    (started 0x9C31770012EE4001 0x40000038 8).bdReady = true ∧
      (∃ t, romTree 0 = some t ∧ (6#5 : BitVec 5).toNat % 2 = 0 ∧ (6#5 : BitVec 5).toNat + 1 < t.length) ∧
      ∃ t, romTree 9 = some t ∧ (20#5 : BitVec 5).toNat + 1 < t.length :=
  ⟨by decide, by decide, by decide, rfl, ⟨_, rfl, by decide, by decide⟩, ⟨_, rfl, by decide⟩⟩

/-- V-TR-2: the walk of two decisions to the leaf B_TM_PRED. -/
theorem witness_TreeReadFollowsTheWalk_leaf :
    let s := started 0x9C31770012EE4001 0x40000038 8
    ∃ t bd, s.bdReady = true ∧ s.treeOf 3#4 = some t ∧ Walks s.params.vs s.mem s.probAt t (0#5 : BitVec 5).toNat s.bd 2 1 bd :=
  ⟨_, _, rfl, rfl, .node 0 _ 2 1 1 _ (by decide) (by decide) (by decide +kernel)
    (.leaf 2 _ 1 (by decide) (by decide +kernel))⟩

/-- V-TR-5, the cycle: with every entry of TREE_RAM 2 no walk reaches a leaf. -/
theorem witness_TreeReadFollowsTheWalk_badTree :
    let s := { started 0x9C31770012EE4001 0x40000038 8 with treeRam := Vector.replicate 32 2#8 }
    s.bdReady = true ∧ s.treeOf 15#4 = some (List.replicate 32 2) ∧
      ∀ (n sym : Nat) (bd : BoolDecoder),
        Walks s.params.vs s.mem s.probAt (List.replicate 32 2) (0#5 : BitVec 5).toNat s.bd n sym bd → 16 < n := by
  refine ⟨rfl, by decide +kernel, fun n sym bd h => ?_⟩
  have never : ∀ {vs m p i b n sym b'}, Walks vs m p (List.replicate 32 2) i b n sym b' → False := by
    intro vs m p i b n sym b' h
    induction h with
    | leaf i bd sym inside isLeaf =>
      have hb := decodeBool_bit vs m (p (i / 2)) bd
      have hlt : i + (decodeBool vs m (p (i / 2)) bd).1 < 32 := by simp at inside; omega
      rw [List.getD_eq_getElem?_getD, List.getElem?_replicate_of_lt hlt] at isLeaf
      simp only [Option.getD_some] at isLeaf
      omega
    | node _ _ _ _ _ _ _ _ _ _ ih => exact ih
  exact (never h).elim

theorem witness_TwoLeafTreeIsBool :
    ({ State.reset with treeRam := Vector.replicate 32 0#8 }.writeReg 0x090 0x0000FF00#32).treeRam.getD 0 0#8 = 0#8 ∧
      ({ State.reset with treeRam := Vector.replicate 32 0#8 }.writeReg 0x090 0x0000FF00#32).treeRam.getD 1 0#8 =
        BitVec.ofInt 8 (-1) := by decide

theorem witness_DequantMultiplies : (24#5 : BitVec 5).toNat ≤ 24 ∧ (0#5 : BitVec 5).toNat ≤ 24 := by decide

theorem witness_InverseWhtWritesTheDcs :
    1 < (State.reset.writeReg 0x438 2#32).eobAt 24 ∧ (State.reset.writeReg 0x438 1#32).eobAt 24 ≤ 1 := by decide +kernel

theorem witness_IdctAddsTheResidual :
    (23#5 : BitVec 5).toNat ≤ 23 ∧
      (∀ a ∈ predicted.footprintOf (.idctAdd 23#5), predicted.admits a = true) ∧
      1 < (predicted.writeReg 0x434 0x02000000#32).eobAt 23 ∧ (predicted.writeReg 0x434 0x01000000#32).eobAt 23 ≤ 1 :=
  ⟨by decide, fun a _ => admits_all _ rfl a, by decide +kernel, by decide +kernel⟩

theorem witness_DcOnlyTransformsAgree :
    (∀ i < 16, 1 ≤ i → (withBlock State.reset 24 [100]).coefAt 24 i = 0) ∧
      ∀ i < 16, 1 ≤ i → (withBlock State.reset 3 [-7]).coefAt (3#5 : BitVec 5).toNat i = 0 := by decide +kernel

theorem witness_CoefClearClears : ∀ off ∈ ([0x100, 0x41C, 0x420, 0x438] : List Nat),
    off % 4 = 0 ∧ 0x100 ≤ off ∧ off < 0x43C := by decide

theorem witness_IntraB4Predicts : (9#4 : BitVec 4).toNat ≤ 9 ∧
    ∀ a ∈ neighbours.footprintOf (.intraB4 9#4), neighbours.admits a = true :=
  ⟨by decide, fun a _ => admits_all _ rfl a⟩

theorem witness_IntraWholeBlockPredicts : (3#4 : BitVec 4).toNat ≤ 3 ∧
    (∀ a ∈ (ramps 16).footprintOf (.intraY16 3#4 true true), (ramps 16).admits a = true) ∧
    ∀ a ∈ (ramps 8).footprintOf (.intraUv8 3#4 false true), (ramps 8).admits a = true :=
  ⟨by decide, fun a _ => admits_all _ rfl a, fun a _ => admits_all _ rfl a⟩

theorem witness_SubblockModeFormulas : 0 < 4 ∧ 3 < 4 := by decide

/-- A pixel of each whole-block size, at the last row and column. -/
theorem witness_WholeBlockModeFormulas : ((16 = 16 ∨ 16 = 8) ∧ 15 < 16) ∧ (8 = 16 ∨ 8 = 8) ∧ 7 < 8 := by decide

theorem witness_PredictionsArePixels : IsPixel 0 ∧ IsPixel 255 ∧ (∀ k : Nat, IsPixel ((k % 256 : Nat) : Int)) ∧
    (∀ i j : Int, IsPixel ((fun i j => (i + j) % 256 : Int → Int → Int) i j)) := by
  refine ⟨⟨by decide, by decide⟩, ⟨by decide, by decide⟩, fun k => ?_, fun i j => ?_⟩
  · constructor <;> omega
  · constructor <;> dsimp only <;> omega

/-- An ordinary stride, where every destination is its own, and S = 0, where all three rows lie on one another and the
last counts. -/
theorem witness_AboveRightCopyCopies :
    (∀ a ∈ (small [0x7040, 64] []).footprintOf .aboveRightCopy, (small [0x7040, 64] []).admits a = true) ∧
    (∀ s ∈ [small [0x7040, 64] [], small [0x7040, 0] []], ∀ j : Nat, j < 4 → ∀ k' : Nat, k' < 3 → ∀ j' : Nat, j' < 4 →
      pixAddr (s.arg 0) (s.arg 1) (4 * (k' : Int) + 3) (16 + (j' : Int)) =
        pixAddr (s.arg 0) (s.arg 1) (4 * ((2 : Nat) : Int) + 3) (16 + (j : Int)) → 4 * k' + j' ≤ 4 * 2 + j) ∧
    (∀ k : Nat, k < 3 → ∀ j : Nat, j < 4 → pixAddr ((small [0x7040, 64] []).arg 0) ((small [0x7040, 64] []).arg 1) (4 * (k : Int) + 3)
      (16 + (j : Int)) ≠ 0x7040#32) :=
  ⟨fun a _ => admits_all _ rfl a, by decide +kernel, by decide +kernel⟩

/-- The three paths: no fraction, a fraction with INTERP = 0, a fraction with INTERP = 1. -/
theorem witness_McPredPredicts :
    (∀ a ∈ (reference 0x00060002).footprintOf (.mcPred 0#2 false), (reference 0x00060002).admits a = true) ∧
      ((reference 0x00080010).mcOperands 0#2 false).path = .copy ∧
      ((reference 0x00060002).mcOperands 0#2 false).path = .sixTap ∧
      ({ reference 0x00060002 with ctrl := 4#32 }.mcOperands 3#2 true).path = .bilinear :=
  ⟨fun a _ => admits_all _ rfl a, by decide +kernel, by decide +kernel, by decide +kernel⟩

theorem witness_PhaseZeroIsIdentity : (∀ i j : Int, IsPixel ((fun i j => (i + j) % 256 : Int → Int → Int) i j)) ∧
    0 < 8 ∧ 7 < 8 := by
  refine ⟨fun i j => ?_, by decide, by decide⟩
  constructor <;> dsimp only <;> omega

/-- Where the two clauses of the sign meet. -/
theorem witness_ChromaVectorRule : (0 : Int) ≤ 0 ∧ (-1 : Int) < 0 := by decide

theorem witness_LimitTables : 0 ≤ 7 ∧ 7 ≤ 7 ∧ 0 ≤ 63 ∧ 63 ≤ 63 := by decide

/-- SHARPNESS equal to LAST_SHARP and different from it; DELTA_EN 0 and 1; the ends of the segment and class ranges. -/
theorem witness_LfFrameInitBuildsTables :
    State.reset.ctrl.extractLsb' 8 3 = State.reset.lastSharp ∧
      ({ State.reset with ctrl := 0x700#32 }).ctrl.extractLsb' 8 3 ≠ State.reset.lastSharp ∧
      State.reset.lfCfg.getLsbD 10 = false ∧ ({ State.reset with lfCfg := 0x400#32 }).lfCfg.getLsbD 10 = true ∧
      0 < 64 ∧ 63 < 64 ∧ 3 < 4 := by decide

/-- V-LF-2 with blimit 99 (the edge test fails) and with 100 (the mask is set). -/
theorem witness_PixelFiltersFollowTheRules :
    99 < ((60#8 : Byte).toNat - (100#8 : Byte).toNat : Int).natAbs * 2 +
        ((60#8 : Byte).toNat - (100#8 : Byte).toNat : Int).natAbs / 2 ∧
      edgeTest 99 60#8 60#8 100#8 100#8 = false ∧ filterMask 20 100 60#8 60#8 60#8 60#8 100#8 100#8 100#8 100#8 = true := by
  decide

theorem witness_LfEdgeFiltersTheEdge : (2#2 : BitVec 2).toNat ≤ 2 ∧
    ∀ a ∈ (edgeRows 8 [90, 92, 94, 96, 110, 112, 114, 116] [0x5004, 8, 0x0002280A]).footprintOf (.lfEdge true 2#2 false),
      (edgeRows 8 [90, 92, 94, 96, 110, 112, 114, 116] [0x5004, 8, 0x0002280A]).admits a = true :=
  ⟨by decide, fun a _ => admits_all _ rfl a⟩

/-- The three kinds and the two directions of an edge; the write range of kind mb at its ends. -/
theorem witness_LfEdgeFiltersTheEdge_edges :
    (∀ k ∈ [EdgeKind.mb, .inner, .simple], ∀ d ∈ [EdgeDir.h, .v],
      (EdgeJob.mk d k 0x5004#32 8#32 8 10 40 2).kind = k ∧ (EdgeJob.mk d k 0x5004#32 8#32 8 10 40 2).dir = d) ∧
    (-3 ∈ writeOffsets .mb ∧ 2 ∈ writeOffsets .mb ∧ -4 ∉ writeOffsets .mb ∧ 3 ∉ writeOffsets .mb) := by decide

/-- The intra modes end at 4 and the inter modes begin at 5; a level of 20 and a level of 0. -/
theorem witness_LfMbFiltersItsEdges :
    ((4#4 : BitVec 4).toNat ≤ 9 ∧ ((0#2 : BitVec 2) = 0#2 ↔ (4#4 : BitVec 4).toNat ≤ 4)) ∧
      ((9#4 : BitVec 4).toNat ≤ 9 ∧ ((1#2 : BitVec 2) = 0#2 ↔ (9#4 : BitVec 4).toNat ≤ 4)) ∧
      (∀ e ∈ { State.reset with lvl := Vector.replicate 64 20#8 }.edgesOfMb 0#2 1#2 9#4 true true true,
        ∀ a ∈ e.footprint, { State.reset with lvl := Vector.replicate 64 20#8 }.admits a = true) ∧
      State.reset.lvlAt 0 1 3 = 0 :=
  ⟨by decide, by decide, fun _ _ a _ => admits_all _ rfl a, by decide⟩

/-- Level 0; a level other than 0 with the normal and with the simple filter. -/
theorem witness_LfMbEdgeList : (9#4 : BitVec 4).toNat ≤ 9 ∧ State.reset.lvlAt 0 0 0 = 0 ∧
    { State.reset with lvl := Vector.replicate 64 20#8 }.lvlAt 3 3 3 ≠ 0 ∧ State.reset.ctrl.getLsbD 4 = false ∧
    { State.reset with ctrl := 0x10#32 }.ctrl.getLsbD 4 = true := by decide

end Sys2Proof.Tests
end

namespace Sys2Proof.Machine

/-! ## What a step can do -/

/-- An access inside the window and the interface is the access of its offset (R20, R61). -/
theorem State.regAccess_of_offset (s : State) {off : Nat} (hoff : off < Config.windowSize) (h4 : off % 4 = 0)
    (k : Nat → Host.Outcome State Fault Refusal) : s.regAccess 32 (s.params.mmioBase + off) k = k off := by
  have hsub : s.params.mmioBase + off - s.params.mmioBase = off := by omega
  unfold State.regAccess
  rw [if_pos (by omega), hsub, if_pos ⟨rfl, h4⟩]

/-- A register access that has a step is 32 bits wide and at an aligned offset of the window. -/
theorem State.regAccess_next {s t : State} {width address : Nat} {k : Nat → Host.Outcome State Fault Refusal}
    (h : s.regAccess width address k = .next t) :
    ∃ off, width = 32 ∧ address = s.params.mmioBase + off ∧ off < Config.windowSize ∧ off % 4 = 0 ∧
      k off = .next t := by
  unfold State.regAccess at h
  split at h
  · split at h
    · exact ⟨address - s.params.mmioBase, by omega, by omega, by omega, by omega, h⟩
    · cases h
  · cases h

/-- A host read of a register changes only what the host last read, and which free value comes next. -/
theorem State.hostRegRead_frame (s : State) (off : Nat) :
    s.hostRegRead off = { s with
      hostData := (s.hostRegRead off).hostData, freeCount := (s.hostRegRead off).freeCount } := by
  unfold State.hostRegRead
  split <;> rfl

theorem State.hostRegRead_of_idle {s : State} (hb : s.busy = false) (off : Nat) :
    s.hostRegRead off = { s with hostData := s.readReg off } := by
  unfold State.hostRegRead
  rw [if_neg (by simp [hb])]

theorem State.hostRegWrite_of_idle {s : State} (hb : s.busy = false) {off : Nat} (hcmd : off ≠ 0x004) (v : Word) :
    s.hostRegWrite off v = .next (s.writeReg off v) := by
  unfold State.hostRegWrite
  rw [if_neg (by simp [hb]), if_neg hcmd]

theorem State.hostRegWrite_command {s : State} (hb : s.busy = false) (w : Word) :
    s.hostRegWrite 0x004 w = runCommand w s := by
  unfold State.hostRegWrite
  rw [if_neg (by simp [hb]), if_pos rfl]

theorem step_of_host {s : State} {h : HostAction} {rest : List HostAction} (hs : s.host = h :: rest) :
    step s = hostStep h { s with host := rest } := by
  unfold step; rw [hs]

theorem step_of_idle {s : State} (hs : s.host = []) : step s = .next s := by
  unfold step; rw [hs]

theorem hostStep_regRead (s : State) (width address : Nat) :
    hostStep (.regRead width address) s = s.regAccess width address fun off => .next (s.hostRegRead off) := rfl

theorem hostStep_regWrite (s : State) (width address : Nat) (v : Word) :
    hostStep (.regWrite width address v) s = s.regAccess width address fun off => s.hostRegWrite off v := rfl

/-- A step on a register write at an offset of the window. -/
theorem step_regWrite {s : State} {rest : List HostAction} {off : Nat} {v : Word}
    (hs : s.host = .regWrite 32 (s.params.mmioBase + off) v :: rest) (hoff : off < Config.windowSize)
    (h4 : off % 4 = 0) : step s = State.hostRegWrite { s with host := rest } off v := by
  rw [step_of_host hs, hostStep_regWrite]
  exact State.regAccess_of_offset { s with host := rest } hoff h4 _

/-- A step on a register read at an offset of the window. -/
theorem step_regRead {s : State} {rest : List HostAction} {off : Nat}
    (hs : s.host = .regRead 32 (s.params.mmioBase + off) :: rest) (hoff : off < Config.windowSize)
    (h4 : off % 4 = 0) : step s = .next (State.hostRegRead { s with host := rest } off) := by
  rw [step_of_host hs, hostStep_regRead]
  exact State.regAccess_of_offset { s with host := rest } hoff h4 _

/-- What an access of the host does to a state without BUSY. -/
theorem hostStep_cases {h : HostAction} {s t : State} (hb : s.busy = false) (ht : hostStep h s = .next t) :
    (∃ d n, t = { s with hostData := d, freeCount := n }) ∨ (∃ a b, t = { s with mem := Memory.write s.mem a b }) ∨
      t = s.resetRegisters ∨ (∃ off v, t = s.writeReg off v) ∨ ∃ w, runCommand w s = .next t := by
  cases h with
  | regRead width address =>
    rw [hostStep_regRead] at ht
    obtain ⟨off, -, -, -, -, hk⟩ := State.regAccess_next ht
    cases hk
    exact .inl ⟨_, _, s.hostRegRead_frame off⟩
  | regWrite width address v =>
    rw [hostStep_regWrite] at ht
    obtain ⟨off, -, -, -, -, hk⟩ := State.regAccess_next ht
    by_cases hcmd : off = 0x004
    · subst hcmd
      rw [State.hostRegWrite_command hb] at hk
      exact .inr (.inr (.inr (.inr ⟨v, hk⟩)))
    · rw [State.hostRegWrite_of_idle hb hcmd] at hk
      cases hk
      exact .inr (.inr (.inr (.inl ⟨off, v, rfl⟩)))
  | memRead a => cases ht; exact .inl ⟨_, _, rfl⟩
  | memWrite a b => cases ht; exact .inr (.inl ⟨a, b, rfl⟩)
  | resetInput => cases ht; exact .inr (.inr (.inl rfl))

/-- A word written to CMD ends as a command: the end of an effect, or a failure that changes STATUS alone. -/
theorem runCommand_cases (w : Word) (s : State) :
    (∃ i u, runCommand w s = .next u.finish ∧ Effect i s u) ∨ ∃ e, runCommand w s = .next (s.fail e) := by
  unfold runCommand
  split
  · next i _ =>
    obtain ⟨u, hu, heff⟩ | hfail := exec_cases i s
    · exact .inl ⟨i, u, hu, heff⟩
    · exact .inr hfail
  · next e _ => exact .inr ⟨e, rfl⟩

/-! ## The invariant under each kind of change -/

/-- The invariant does not speak of the operands, the results, DONE, the configuration other than CTRL and LF_CFG, the
probabilities, the coefficients and the model's own fields. -/
theorem State.Inv.of_frame {s t : State} (h : s.Inv) (ht : t = { s with
      args := t.args, res0 := t.res0, done := t.done, lfSeg := t.lfSeg, lfRefd := t.lfRefd, lfModed := t.lfModed,
      dq := t.dq, prob := t.prob, treeRam := t.treeRam, coef := t.coef, eob := t.eob, host := t.host,
      hostData := t.hostData, freeCount := t.freeCount }) : t.Inv := by
  rw [ht]
  exact ⟨h.status, h.reserved, h.tables, h.levels, h.decoder, h.stream, h.untouched, h.memory⟩

theorem State.Inv.with_mem {s : State} (h : s.Inv) {m : Memory} (hm : Memory.wf m = true) : { s with mem := m }.Inv :=
  ⟨h.status, h.reserved, h.tables, h.levels, h.decoder, h.stream, h.untouched, hm⟩

theorem State.Inv.with_ctrl {s : State} (h : s.Inv) {c : Word} (hc : c &&& ctrlMask = c) : { s with ctrl := c }.Inv :=
  ⟨h.status, ⟨hc, h.reserved.2⟩, h.tables, h.levels, h.decoder, h.stream, h.untouched, h.memory⟩

theorem State.Inv.with_lfCfg {s : State} (h : s.Inv) {c : Word} (hc : c &&& lfCfgMask = c) :
    { s with lfCfg := c }.Inv :=
  ⟨h.status, ⟨h.reserved.1, hc⟩, h.tables, h.levels, h.decoder, h.stream, h.untouched, h.memory⟩

/-- The decoder moves on along its stream. -/
theorem State.Inv.with_bd {s : State} (h : s.Inv) (hready : s.bdReady = true) {bd : BoolDecoder}
    (hf : Follows s.params.vs s.bd bd) : { s with bd := bd }.Inv where
  status := h.status
  reserved := h.reserved
  tables := h.tables
  levels := h.levels
  decoder := hf.inRange
  stream a hpos hstop := h.stream a (le_trans hf.pos hpos) (by rw [← hf.stop]; exact hstop)
  untouched hnot := absurd (hready.symm.trans hnot) (by decide)
  memory := h.memory

/-- The decoder starts on an admitted buffer. -/
theorem State.Inv.with_bdInit {s : State} (h : s.Inv) {a : Word} {n : Nat} (hfit : a.toNat + n ≤ Config.addrSpace)
    (hadm : s.admitsAll (streamAddrs a n) = true) :
    { s with bd := refill s.params.vs s.mem (bdStart a.toNat n), bdReady := true }.Inv := by
  obtain ⟨hrange, -, hstop, hpos, -⟩ := bdInit_inRange s.params.vs s.mem hfit
  refine ⟨h.status, h.reserved, h.tables, h.levels, hrange, fun x hlo hhi => ?_, fun hnot => (by cases hnot), h.memory⟩
  have hx : x ∈ streamAddrs a n := (mem_streamAddrs hfit).2 ⟨le_trans hpos hlo, lt_of_lt_of_eq hhi hstop⟩
  exact (s.admitsAll_iff _).1 hadm x hx

/-- The limit tables move to another sharpness together with LAST_SHARP. -/
theorem State.Inv.rebuildLimits {s : State} (h : s.Inv) : s.rebuildLimits.Inv :=
  ⟨h.status, h.reserved, ⟨rfl, rfl, rfl⟩, h.levels, h.decoder, h.stream, h.untouched, h.memory⟩

theorem State.Inv.finish {s : State} (h : s.Inv) : s.finish.Inv :=
  ⟨⟨rfl, h.status.2⟩, h.reserved, h.tables, h.levels, h.decoder, h.stream, h.untouched, h.memory⟩

theorem errCodeOf_range (e : CmdError) : 1 ≤ (errCodeOf e).toNat ∧ (errCodeOf e).toNat ≤ 7 := by
  cases e <;> decide

theorem State.Inv.fail {s : State} (h : s.Inv) (e : CmdError) : (s.fail e).Inv :=
  ⟨⟨rfl, fun hne => (by cases hne), fun _ => errCodeOf_range e⟩, h.reserved, h.tables, h.levels, h.decoder, h.stream,
    h.untouched, h.memory⟩

/-! ### Levels -/

theorem c63_range (v : Int) : 0 ≤ c63 v ∧ c63 v ≤ 63 := by unfold c63; omega

theorem State.lfLevel_range (s : State) : 0 ≤ s.lfLevel ∧ s.lfLevel ≤ 63 := by
  have := (s.lfCfg.extractLsb' 0 6).isLt
  unfold State.lfLevel; omega

theorem State.segLevel_range (s : State) (seg : Nat) : 0 ≤ s.segLevel seg ∧ s.segLevel seg ≤ 63 := by
  unfold State.segLevel
  split
  · exact c63_range _
  · exact s.lfLevel_range

/-- Every level LF_FRAME_INIT computes is 0..63 (R241). -/
theorem State.levelOf_range (s : State) (seg f m : Nat) : 0 ≤ s.levelOf seg f m ∧ s.levelOf seg f m ≤ 63 := by
  unfold State.levelOf
  simp only
  split_ifs
  all_goals first | exact s.segLevel_range seg | exact c63_range _ | omega

theorem byte_toNat_of_range {v : Int} (h0 : 0 ≤ v) (h : v ≤ 255) : ((byte v).toNat : Int) = v := by
  rw [byte, BitVec.toNat_ofInt]; omega

theorem State.Inv.with_levels {s : State} (h : s.Inv) (u : State) :
    { s with lvl := tabulate 64 fun n => byte (u.levelOf (n / 16) (n / 4 % 4) (n % 4)) }.Inv := by
  refine ⟨h.status, h.reserved, h.tables, fun k hk => ?_, h.decoder, h.stream, h.untouched, h.memory⟩
  obtain ⟨h0, h63⟩ := u.levelOf_range (k / 16) (k / 4 % 4) (k % 4)
  have hbyte := byte_toNat_of_range h0 (by omega)
  simp only [tabulate_getD, if_pos hk]
  omega

/-! ### Resets -/

/-- The state after power-on meets the invariant. -/
theorem resetWith_inv (p : Params) : (State.resetWith p).Inv where
  status := ⟨rfl, fun _ => rfl, fun h => by cases h⟩
  reserved := ⟨BitVec.zero_and, BitVec.zero_and⟩
  tables := ⟨rfl, rfl, rfl⟩
  levels k hk := by simp [State.resetWith, Vector.getD, hk]
  decoder := by
    show DecoderInRange p.vs BoolDecoder.reset
    refine ⟨by decide, by decide, by decide, Nat.two_pow_pos _, by decide, ?_⟩
    rw [show BoolDecoder.reset.count.toInt = 0 from rfl]
    simp only [Config.lotsOfBits]; omega
  stream _ _ hstop := absurd hstop (Nat.not_lt_zero _)
  untouched _ := rfl
  memory := rfl

theorem State.Inv.resetRegisters {s : State} (h : s.Inv) : s.resetRegisters.Inv :=
  ((resetWith_inv s.params).with_mem h.memory).of_frame rfl

/-! ### Register writes -/

theorem and_mask_idem (v m : Word) : v &&& m &&& m = v &&& m := by
  rw [BitVec.and_assoc, BitVec.and_self]

theorem State.Inv.writeStatus {s : State} (h : s.Inv) (v : Word) : (s.writeStatus v).Inv := by
  obtain ⟨hbusy, hzero, hcode⟩ := h.status
  refine ⟨⟨hbusy, ?_, ?_⟩, h.reserved, h.tables, h.levels, h.decoder, h.stream, h.untouched, h.memory⟩
  all_goals simp only [State.writeStatus_cmdErr, State.writeStatus_errCode]
  all_goals cases v.getLsbD 3
  all_goals simp_all

theorem State.Inv.writeCtrl {s : State} (h : s.Inv) (v : Word) : (s.writeCtrl v).Inv := by
  cases hv : v.getLsbD 0
  · rw [s.writeCtrl_configures hv]
    exact h.with_ctrl (and_mask_idem v ctrlMask)
  · rw [s.writeCtrl_resets hv]
    exact h.resetRegisters

theorem State.Inv.configured {s t : State} (h : s.Inv) (hc : s.Configured t) : t.Inv := by
  obtain ⟨hframe, hmask⟩ := hc
  have hlf : t.lfCfg &&& lfCfgMask = t.lfCfg := by
    obtain hold | ⟨v, hv⟩ := hmask
    · rw [hold]; exact h.reserved.2
    · rw [hv]; exact and_mask_idem v lfCfgMask
  exact (h.with_lfCfg hlf).of_frame (by rw [hframe])

theorem State.Inv.writeReg {s : State} (h : s.Inv) (off : Nat) (v : Word) : (s.writeReg off v).Inv := by
  by_cases h8 : off = 0x008
  · rw [h8, s.writeReg_status]; exact h.writeStatus v
  · by_cases hC : off = 0x00C
    · rw [hC, s.writeReg_ctrl]; exact h.writeCtrl v
    · exact h.configured (s.writeReg_other h8 hC v)

/-! ### Commands -/

/-- What a command computes meets the invariant. -/
theorem Effect.inv {i : Instr} {s u : State} (he : Effect i s u) (h : s.Inv) : u.Inv := by
  have hmem := he.wf h.memory
  cases i
  case nop => rw [show u = s from he]; exact h
  case bdInit =>
    obtain ⟨hfit, hadm, rfl⟩ := he
    exact h.with_bdInit hfit hadm
  case bdBool p =>
    obtain ⟨hready, rfl⟩ := he
    exact (h.with_bd hready (follows_decodeBool s.mem p h.decoder)).of_frame rfl
  case bdLiteral k =>
    obtain ⟨hready, rfl⟩ := he
    exact (h.with_bd hready (follows_decodeLiteral s.mem k.toNat h.decoder)).of_frame rfl
  case treeRead tree start =>
    obtain ⟨hready, t, sym, bd, -, hwalk, rfl⟩ := he
    exact (h.with_bd hready (follows_treeWalk h.decoder hwalk)).of_frame rfl
  case lfFrameInit =>
    rw [show u = _ from he]
    split
    · exact h.rebuildLimits.with_levels s
    · exact h.with_levels s
  case dequant | iwht | iwhtDc | iwhtAuto | coefClear => exact h.of_frame (he.trans (by rw [he]))
  all_goals
    obtain ⟨_, rfl⟩ := he
    exact h.with_mem hmem

theorem State.Inv.runCommand {s t : State} (h : s.Inv) {w : Word} (ht : runCommand w s = .next t) : t.Inv := by
  obtain ⟨i, u, hu, heff⟩ | ⟨e, he⟩ := runCommand_cases w s
  · cases hu.symm.trans ht; exact (heff.inv h).finish
  · cases he.symm.trans ht; exact h.fail e

theorem State.Inv.hostStep {h : HostAction} {s t : State} (hs : s.Inv) (ht : hostStep h s = .next t) : t.Inv := by
  obtain ⟨d, n, rfl⟩ | ⟨a, b, rfl⟩ | rfl | ⟨off, v, rfl⟩ | ⟨w, hw⟩ := hostStep_cases hs.status.1 ht
  · exact hs.of_frame rfl
  · exact hs.with_mem (Memory.wf_write _ a b hs.memory)
  · exact hs.resetRegisters
  · exact hs.writeReg off v
  · exact hs.runCommand hw

/-- Settles O20: a step is idle, or an access of the host, each kind of which keeps the invariant. -/
theorem stepKeepsInvariant : Obligations.StepKeepsInvariant := by
  intro s t hs ht
  cases hhost : s.host with
  | nil => rw [step_of_idle hhost] at ht; cases ht; exact hs
  | cons h rest =>
    rw [step_of_host hhost] at ht
    have hrest : State.Inv { s with host := rest } := hs.of_frame rfl
    exact hrest.hostStep ht

/-! ## Words, lanes and masks -/

/-- The bits of a zero-extended value above its width are 0. -/
theorem setWidth_and_eq_zero {n : Nat} (x : BitVec n) {m : Word} (hm : m.setWidth n = 0#n) :
    x.setWidth 32 &&& m = 0#32 := by
  refine BitVec.eq_of_getLsbD_eq fun i hi => ?_
  by_cases hn : i < n
  · have hbit : (m.setWidth n).getLsbD i = false := by rw [hm]; exact BitVec.getLsbD_zero
    simp only [BitVec.getLsbD_and, BitVec.getLsbD_setWidth, hn, hi, decide_true, Bool.true_and] at hbit ⊢
    rw [hbit, Bool.and_false, BitVec.getLsbD_zero]
  · simp [BitVec.getLsbD_of_ge x i (by omega)]

theorem and_fullMask (v : Word) : v &&& 0xFFFFFFFF#32 = v := BitVec.and_allOnes

theorem wordOfBytes_byteLane (w : Word) :
    wordOfBytes (byteLane w 0) (byteLane w 1) (byteLane w 2) (byteLane w 3) = w := by
  simp only [wordOfBytes, byteLane]
  iterate 3 rw [BitVec.extractLsb'_append_extractLsb'_eq_extractLsb' (by rfl)]
  exact BitVec.extractLsb'_eq_self

theorem wordOfHalves_halfLane (w : Word) : wordOfHalves (halfLane w 0) (halfLane w 1) = w := by
  simp only [wordOfHalves, halfLane]
  rw [BitVec.extractLsb'_append_extractLsb'_eq_extractLsb' (by rfl)]
  exact BitVec.extractLsb'_eq_self

theorem wordOfBytes_low (b : Byte) : wordOfBytes b 0#8 0#8 0#8 = b.setWidth 32 := by
  revert b; decide +kernel

theorem byteLane_zero_setWidth (v : Word) : (byteLane v 0).setWidth 32 = v &&& 0x000000FF#32 := by
  apply BitVec.eq_of_toNat_eq
  rw [BitVec.toNat_and, show (0x000000FF#32).toNat = 2 ^ 8 - 1 from rfl, Nat.and_two_pow_sub_one_eq_mod]
  simp [byteLane, BitVec.extractLsb'_toNat]
  omega

theorem getD_of_size_le {α : Type} {n : Nat} (v : Vector α n) {i : Nat} (h : n ≤ i) (d : α) : v.getD i d = d := by
  simp [Vector.getD, h]

theorem getD_setIfInBounds_same {α : Type} {n : Nat} (v : Vector α n) {i : Nat} (h : i < n) (x d : α) :
    (v.setIfInBounds i x).getD i d = x := by
  simp [Vector.getD, h]

theorem getD_setIfInBounds_other {α : Type} {n : Nat} (v : Vector α n) {i j : Nat} (h : i ≠ j) (x d : α) :
    (v.setIfInBounds i x).getD j d = v.getD j d := by
  simp [Vector.getD, Array.getElem?_setIfInBounds_ne h]

theorem fileWord_setFileWord_same {n : Nat} (v : Vector Byte n) {k : Nat} (hk : 4 * k + 3 < n) (w : Word) :
    fileWord (setFileWord v k w) k = w := by
  simp (disch := omega) only [fileWord, setFileWord, getD_setIfInBounds_same, getD_setIfInBounds_other]
  exact wordOfBytes_byteLane w

theorem fileWord_setFileWord_other {n : Nat} (v : Vector Byte n) {j k : Nat} (hjk : j ≠ k) (w : Word) :
    fileWord (setFileWord v k w) j = fileWord v j := by
  simp (disch := omega) only [fileWord, setFileWord, getD_setIfInBounds_other]

theorem coefWord_setCoefWord_same (v : Vector Half 400) {k : Nat} (hk : k < 200) (w : Word) :
    coefWord (setCoefWord v k w) k = w := by
  simp (disch := omega) only [coefWord, setCoefWord, getD_setIfInBounds_same, getD_setIfInBounds_other]
  exact wordOfHalves_halfLane w

theorem coefWord_setCoefWord_other (v : Vector Half 400) {j k : Nat} (hjk : j ≠ k) (w : Word) :
    coefWord (setCoefWord v k w) j = coefWord v j := by
  simp (disch := omega) only [coefWord, setCoefWord, getD_setIfInBounds_other]

/-- Word 6 of EOB holds entry 24 alone: its other lanes are past the end of the file (R42). -/
theorem fileWord_eob_last (v : Vector Byte 25) : fileWord v 6 = (v.getD 24 0#8).setWidth 32 := by
  unfold fileWord
  iterate 3 rw [getD_of_size_le v (i := 4 * 6 + _) (by decide)]
  exact wordOfBytes_low _

theorem setFileWord_eob_last (v : Vector Byte 25) (w : Word) :
    setFileWord v 6 w = v.setIfInBounds 24 (byteLane w 0) := by
  unfold setFileWord
  iterate 3 rw [Vector.setIfInBounds_eq_of_size_le (by decide)]

/-! ## STATUS as a word -/

/-- The fields of STATUS at their places, 0 between them (R26). -/
theorem State.statusWord_fields (s : State) :
    s.statusWord.getLsbD 0 = s.busy ∧ s.statusWord.getLsbD 1 = s.done ∧ s.statusWord.getLsbD 2 = s.bdErr ∧
      s.statusWord.getLsbD 3 = s.cmdErr ∧ s.statusWord.getLsbD 4 = s.bdReady ∧ s.statusWord.extractLsb' 5 3 = 0#3 ∧
      s.statusWord.extractLsb' 8 4 = s.errCode ∧ s.statusWord.extractLsb' 12 20 = 0#20 := by
  unfold State.statusWord
  refine ⟨?_, ?_, ?_, ?_, ?_, ?_, ?_, ?_⟩
  case refine_1 | refine_2 | refine_3 | refine_4 | refine_5 =>
    simp only [BitVec.getLsbD_append, Nat.reduceLT, Nat.reduceSub, if_true, if_false, BitVec.getLsbD_ofBool,
      decide_true, Bool.true_and]
  all_goals
    simp (disch := decide) only [BitVec.extractLsb'_append_eq_of_le, BitVec.extractLsb'_append_eq_of_add_le,
      BitVec.extractLsb'_eq_self, Nat.reduceSub]

theorem State.statusWord_reserved (s : State) : s.statusWord &&& 0xFFFFF0E0#32 = 0#32 := by
  unfold State.statusWord
  generalize s.errCode = code, s.bdReady = ready, s.cmdErr = err, s.bdErr = bdErr, s.done = done, s.busy = busy
  revert code ready err bdErr done busy
  decide +kernel

/-! ## Where a write goes -/

theorem State.writeReg_lfCfg (s : State) (v : Word) : s.writeReg 0x014 v = { s with lfCfg := v &&& lfCfgMask } := rfl

theorem State.writeReg_args (s : State) {k : Nat} (h : k < 8) (v : Word) :
    s.writeReg (0x040 + 4 * k) v = { s with args := s.args.setIfInBounds k v } := by
  unfold State.writeReg
  repeat rw [if_neg (by omega)]
  rw [if_pos (by omega), show (0x040 + 4 * k - 0x040) / 4 = k by omega]

theorem State.writeReg_prob (s : State) {k : Nat} (h : k < 4) (v : Word) :
    s.writeReg (0x080 + 4 * k) v = { s with prob := setFileWord s.prob k v } := by
  unfold State.writeReg
  repeat rw [if_neg (by omega)]
  rw [if_pos (by omega), show (0x080 + 4 * k - 0x080) / 4 = k by omega]

theorem State.writeReg_treeRam (s : State) {k : Nat} (h : k < 8) (v : Word) :
    s.writeReg (0x090 + 4 * k) v = { s with treeRam := setFileWord s.treeRam k v } := by
  unfold State.writeReg
  repeat rw [if_neg (by omega)]
  rw [if_pos (by omega), show (0x090 + 4 * k - 0x090) / 4 = k by omega]

theorem State.writeReg_coef (s : State) {k : Nat} (h : k < 200) (v : Word) :
    s.writeReg (0x100 + 4 * k) v = { s with coef := setCoefWord s.coef k v } := by
  unfold State.writeReg
  repeat rw [if_neg (by omega)]
  rw [if_pos (by omega), show (0x100 + 4 * k - 0x100) / 4 = k by omega]

theorem State.writeReg_eob (s : State) {k : Nat} (h : k < 7) (v : Word) :
    s.writeReg (0x420 + 4 * k) v = { s with eob := setFileWord s.eob k v } := by
  unfold State.writeReg
  repeat rw [if_neg (by omega)]
  rw [if_pos (by omega), show (0x420 + 4 * k - 0x420) / 4 = k by omega]

/-- A write to a read-only register or to a reserved offset is ignored (R45). -/
theorem State.writeReg_ignored (s : State) {off : Nat}
    (h : off < 0x008 ∨ off = 0x010 ∨ (0x028 ≤ off ∧ off < 0x040) ∨ (0x060 ≤ off ∧ off < 0x080) ∨
      (0x0B0 ≤ off ∧ off < 0x100) ∨ 0x43C ≤ off) (v : Word) : s.writeReg off v = s := by
  unfold State.writeReg
  repeat rw [if_neg (by omega)]

/-- A reserved offset reads 0 (R45). -/
theorem State.readReg_reserved (s : State) {off : Nat}
    (h : (0x02C ≤ off ∧ off < 0x040) ∨ (0x078 ≤ off ∧ off < 0x080) ∨ (0x0B0 ≤ off ∧ off < 0x100) ∨
      (0x43C ≤ off ∧ off < 0x440) ∨ 0x540 ≤ off) : s.readReg off = 0#32 := by
  unfold State.readReg
  repeat rw [if_neg (by omega)]

theorem State.readReg_args (s : State) {k : Nat} (h : k < 8) : s.readReg (0x040 + 4 * k) = s.arg k := by
  unfold State.readReg
  repeat rw [if_neg (by omega)]
  rw [if_pos (by omega), show (0x040 + 4 * k - 0x040) / 4 = k by omega]

/-! ## A register shows in its own words alone (R20) -/

section
variable (s : State) {off : Nat}

theorem State.readReg_with_ctrl (x : Word) (h : off ≠ 0x00C) :
    { s with ctrl := x }.readReg off = s.readReg off := by
  unfold State.readReg; rw [if_neg h, if_neg h]; rfl

theorem State.readReg_with_lfCfg (x : Word) (h : off ≠ 0x014) :
    { s with lfCfg := x }.readReg off = s.readReg off := by
  unfold State.readReg; rw [if_neg h, if_neg h]; rfl

theorem State.readReg_with_lfSeg (x : Word) (h : off ≠ 0x018) :
    { s with lfSeg := x }.readReg off = s.readReg off := by
  unfold State.readReg; rw [if_neg h, if_neg h]; rfl

theorem State.readReg_with_lfRefd (x : Word) (h : off ≠ 0x01C) :
    { s with lfRefd := x }.readReg off = s.readReg off := by
  unfold State.readReg; rw [if_neg h, if_neg h]; rfl

theorem State.readReg_with_lfModed (x : Word) (h : off ≠ 0x020) :
    { s with lfModed := x }.readReg off = s.readReg off := by
  unfold State.readReg; rw [if_neg h, if_neg h]; rfl

theorem State.readReg_with_dq (x : Word) (h : off ≠ 0x024) :
    { s with dq := x }.readReg off = s.readReg off := by
  unfold State.readReg; rw [if_neg h, if_neg h]; rfl

theorem State.readReg_with_args (x : Vector Word 8) (h : ¬ (0x040 ≤ off ∧ off < 0x060)) :
    { s with args := x }.readReg off = s.readReg off := by
  unfold State.readReg; rw [if_neg h, if_neg h]; rfl

theorem State.readReg_with_prob (x : Vector Byte 16) (h : ¬ (0x080 ≤ off ∧ off < 0x090)) :
    { s with prob := x }.readReg off = s.readReg off := by
  unfold State.readReg; rw [if_neg h, if_neg h]; rfl

theorem State.readReg_with_treeRam (x : Vector Byte 32) (h : ¬ (0x090 ≤ off ∧ off < 0x0B0)) :
    { s with treeRam := x }.readReg off = s.readReg off := by
  unfold State.readReg; rw [if_neg h, if_neg h]; rfl

theorem State.readReg_with_coef (x : Vector Half 400) (h : ¬ (0x100 ≤ off ∧ off < 0x420)) :
    { s with coef := x }.readReg off = s.readReg off := by
  unfold State.readReg; rw [if_neg h, if_neg h]; rfl

theorem State.readReg_with_eob (x : Vector Byte 25) (h : ¬ (0x420 ≤ off ∧ off < 0x43C)) :
    { s with eob := x }.readReg off = s.readReg off := by
  unfold State.readReg; rw [if_neg h, if_neg h]; rfl

end

/-! ## A register reads what was last written to it -/

/-- After a write of v at off that word reads `shown`, and every other word of the window reads as before. -/
def State.Stores (s : State) (off : Nat) (v shown : Word) : Prop :=
  (s.writeReg off v).readReg off = shown ∧
    ∀ other : Nat, other % 4 = 0 → other ≠ off → (s.writeReg off v).readReg other = s.readReg other

theorem State.stores_ctrl (s : State) {v : Word} (hv : v.getLsbD 0 = false) : s.Stores 0x00C v (v &&& ctrlMask) := by
  unfold State.Stores
  rw [s.writeReg_ctrl, s.writeCtrl_configures hv]
  exact ⟨and_mask_idem v ctrlMask, fun _ _ hne => s.readReg_with_ctrl _ hne⟩

theorem State.stores_lfCfg (s : State) (v : Word) : s.Stores 0x014 v (v &&& lfCfgMask) :=
  ⟨and_mask_idem v lfCfgMask, fun _ _ hne => s.readReg_with_lfCfg _ hne⟩

theorem State.stores_lfSeg (s : State) (v : Word) : s.Stores 0x018 v v :=
  ⟨rfl, fun _ _ hne => s.readReg_with_lfSeg _ hne⟩

theorem State.stores_lfRefd (s : State) (v : Word) : s.Stores 0x01C v v :=
  ⟨rfl, fun _ _ hne => s.readReg_with_lfRefd _ hne⟩

theorem State.stores_lfModed (s : State) (v : Word) : s.Stores 0x020 v v :=
  ⟨rfl, fun _ _ hne => s.readReg_with_lfModed _ hne⟩

theorem State.stores_dq (s : State) (v : Word) : s.Stores 0x024 v v :=
  ⟨rfl, fun _ _ hne => s.readReg_with_dq _ hne⟩

/-- A file of n words from base on stores a word when that word of the file changes alone, and no other offset shows
the file. -/
theorem State.stores_of_file {s t : State} {base n k : Nat} {v shown : Word} (word : State → Nat → Word)
    (hbase : base % 4 = 0) (hread : ∀ (u : State) {j : Nat}, j < n → u.readReg (base + 4 * j) = word u j)
    (hwrite : s.writeReg (base + 4 * k) v = t) (hk : k < n) (hsame : word t k = shown)
    (hother : ∀ j, j ≠ k → word t j = word s j)
    (hout : ∀ {off}, ¬ (base ≤ off ∧ off < base + 4 * n) → t.readReg off = s.readReg off) :
    s.Stores (base + 4 * k) v shown := by
  unfold State.Stores
  rw [hwrite]
  refine ⟨(hread t hk).trans hsame, fun other h4 hne => ?_⟩
  by_cases hin : base ≤ other ∧ other < base + 4 * n
  · obtain ⟨j, hj, rfl⟩ : ∃ j, j < n ∧ other = base + 4 * j := ⟨(other - base) / 4, by omega, by omega⟩
    rw [hread t hj, hread s hj]
    exact hother j fun hjk => hne (by rw [hjk])
  · exact hout hin

theorem State.stores_args (s : State) {k : Nat} (hk : k < 8) (v : Word) : s.Stores (0x040 + 4 * k) v v :=
  State.stores_of_file State.arg (by rfl) (fun u _ => u.readReg_args) (s.writeReg_args hk v) hk
    (getD_setIfInBounds_same _ hk _ _) (fun _ hj => getD_setIfInBounds_other _ hj.symm _ _) (s.readReg_with_args _)

theorem State.stores_prob (s : State) {k : Nat} (hk : k < 4) (v : Word) : s.Stores (0x080 + 4 * k) v v :=
  State.stores_of_file (fun u => fileWord u.prob) (by rfl) (fun u _ => u.readReg_prob) (s.writeReg_prob hk v) hk
    (fileWord_setFileWord_same _ (by omega) v) (fun _ hj => fileWord_setFileWord_other _ hj v) (s.readReg_with_prob _)

theorem State.stores_treeRam (s : State) {k : Nat} (hk : k < 8) (v : Word) : s.Stores (0x090 + 4 * k) v v :=
  State.stores_of_file (fun u => fileWord u.treeRam) (by rfl) (fun u _ => u.readReg_treeRam) (s.writeReg_treeRam hk v)
    hk (fileWord_setFileWord_same _ (by omega) v) (fun _ hj => fileWord_setFileWord_other _ hj v)
    (s.readReg_with_treeRam _)

theorem State.stores_coef (s : State) {k : Nat} (hk : k < 200) (v : Word) : s.Stores (0x100 + 4 * k) v v :=
  State.stores_of_file (fun u => coefWord u.coef) (by rfl) (fun u _ => u.readReg_coef) (s.writeReg_coef hk v) hk
    (coefWord_setCoefWord_same _ hk v) (fun _ hj => coefWord_setCoefWord_other _ hj v) (s.readReg_with_coef _)

/-- An EOB word stores what it shows of the written file: all of v, or the byte of entry 24. -/
theorem State.stores_eob (s : State) {k : Nat} (hk : k < 7) {v shown : Word}
    (hshown : fileWord (setFileWord s.eob k v) k = shown) : s.Stores (0x420 + 4 * k) v shown :=
  State.stores_of_file (fun u => fileWord u.eob) (by rfl) (fun u _ => u.readReg_eob) (s.writeReg_eob hk v) hk
    hshown (fun _ hj => fileWord_setFileWord_other _ hj v) (s.readReg_with_eob _)

theorem fileWord_setFileWord_eob_last (v : Vector Byte 25) (w : Word) :
    fileWord (setFileWord v 6 w) 6 = w &&& 0x000000FF#32 := by
  rw [setFileWord_eob_last, fileWord_eob_last, getD_setIfInBounds_same _ (by decide), byteLane_zero_setWidth]

/-- A register of 32 writable bits stores the whole word (R20). -/
theorem State.stores_whole (s : State) {off : Nat} (h4 : off % 4 = 0) (v : Word)
    (h : (0x018 ≤ off ∧ off ≤ 0x024) ∨ (0x040 ≤ off ∧ off < 0x060) ∨ (0x080 ≤ off ∧ off < 0x0B0) ∨
      (0x100 ≤ off ∧ off < 0x438)) : s.Stores off v v := by
  have word : ∀ base n : Nat, base % 4 = 0 → base ≤ off → off < base + 4 * n → ∃ k, k < n ∧ off = base + 4 * k :=
    fun base n _ _ _ => ⟨(off - base) / 4, by omega, by omega⟩
  obtain ⟨hlo, hhi⟩ | ⟨hlo, hhi⟩ | ⟨hlo, hhi⟩ | ⟨hlo, hhi⟩ := h
  · obtain rfl | rfl | rfl | rfl : off = 0x018 ∨ off = 0x01C ∨ off = 0x020 ∨ off = 0x024 := by omega
    · exact s.stores_lfSeg v
    · exact s.stores_lfRefd v
    · exact s.stores_lfModed v
    · exact s.stores_dq v
  · obtain ⟨k, hk, rfl⟩ := word 0x040 8 rfl hlo hhi
    exact s.stores_args hk v
  · by_cases hp : off < 0x090
    · obtain ⟨k, hk, rfl⟩ := word 0x080 4 rfl hlo hp
      exact s.stores_prob hk v
    · obtain ⟨k, hk, rfl⟩ := word 0x090 8 rfl (by omega) hhi
      exact s.stores_treeRam hk v
  · by_cases hc : off < 0x420
    · obtain ⟨k, hk, rfl⟩ := word 0x100 200 rfl hlo hc
      exact s.stores_coef hk v
    · obtain ⟨k, hk, rfl⟩ := word 0x420 6 rfl (by omega) hhi
      exact s.stores_eob (by omega) (fileWord_setFileWord_same _ (by omega) v)

/-! ## Which state each word shows -/

section
variable (s : State)

theorem State.probAt_eq_lane {k : Nat} (hk : k < 16) :
    (s.readReg (0x080 + 4 * (k / 4))).extractLsb' (8 * (k % 4)) 8 = s.probAt k := by
  rw [s.readReg_prob (by omega), fileWord_lane]; rfl

theorem State.treeRam_eq_lane {k : Nat} (hk : k < 32) :
    (s.readReg (0x090 + 4 * (k / 4))).extractLsb' (8 * (k % 4)) 8 = s.treeRam.getD k 0#8 := by
  rw [s.readReg_treeRam (by omega), fileWord_lane]

theorem State.coefAt_eq_lane {b i : Nat} (hb : b < 25) (hi : i < 16) :
    ((s.readReg (0x100 + 4 * ((16 * b + i) / 2))).extractLsb' (16 * ((16 * b + i) % 2)) 16).toInt = s.coefAt b i := by
  rw [s.readReg_coef (by omega), coefWord_lane]; rfl

theorem State.eobAt_eq_lane {b : Nat} (hb : b < 25) :
    ((s.readReg (0x420 + 4 * (b / 4))).extractLsb' (8 * (b % 4)) 8).toNat = s.eobAt b := by
  rw [s.readReg_eob (by omega), fileWord_lane]; rfl

theorem State.lvlAt_eq_lane {g f m : Nat} (hg : g < 4) (hf : f < 4) (hm : m < 4) :
    ((s.readReg (0x440 + 4 * ((16 * g + 4 * f + m) / 4))).extractLsb' (8 * ((16 * g + 4 * f + m) % 4)) 8).toNat =
      s.lvlAt g f m := by
  rw [s.readReg_lvl (by omega), fileWord_lane]; rfl

theorem State.limits_eq_lanes {l : Nat} (hl : l < 64) :
    ((s.readReg (0x480 + 4 * (l / 4))).extractLsb' (8 * (l % 4)) 8).toNat = s.limAt l ∧
      ((s.readReg (0x4C0 + 4 * (l / 4))).extractLsb' (8 * (l % 4)) 8).toNat = s.blimAt l ∧
      ((s.readReg (0x500 + 4 * (l / 4))).extractLsb' (8 * (l % 4)) 8).toNat = s.mblimAt l := by
  rw [s.readReg_lim (by omega), s.readReg_blim (by omega), s.readReg_mblim (by omega)]
  simp only [fileWord_lane]
  exact ⟨rfl, rfl, rfl⟩

end

theorem toNat_setWidth_word {n : Nat} (x : BitVec n) (hn : n ≤ 32) : (x.setWidth 32 : Word).toNat = x.toNat :=
  BitVec.toNat_setWidth_of_le hn

/-- Settles O12: each word by where it stands in the window, and each write by the register it goes to. -/
theorem registerWritesReadBack : Obligations.RegisterWritesReadBack := by
  refine ⟨fun s => ?_, ?_⟩
  · exact ⟨rfl, rfl, rfl, rfl, rfl, rfl, rfl, rfl, toNat_setWidth_word s.lastSharp (by decide),
      fun k hk => s.readReg_args hk, rfl, rfl, rfl, toNat_setWidth_word s.bd.range (by decide),
      BitVec.setWidth_eq_extractLsb' (x := s.bd.pos) (by decide),
      BitVec.setWidth_eq_extractLsb' (x := s.bd.stop) (by decide),
      fun k => s.probAt_eq_lane, fun k => s.treeRam_eq_lane, fun b i => s.coefAt_eq_lane, fun b => s.eobAt_eq_lane,
      fun g f m => s.lvlAt_eq_lane, fun l => s.limits_eq_lanes⟩
  · intro s off other v h4 hother4 _ hne mask h
    have of_stores : s.Stores off v (v &&& mask) →
        (s.writeReg off v).readReg off = v &&& mask ∧ (s.writeReg off v).readReg other = s.readReg other :=
      fun ⟨hsame, hframe⟩ => ⟨hsame, hframe other hother4 hne⟩
    apply of_stores
    obtain ⟨rfl, hv, rfl⟩ | ⟨rfl, rfl⟩ | ⟨hoff, rfl⟩ | ⟨rfl, rfl⟩ := h
    · exact s.stores_ctrl hv
    · exact s.stores_lfCfg v
    · rw [and_fullMask]; exact s.stores_whole h4 v hoff
    · exact s.stores_eob (k := 6) (by decide) (fileWord_setFileWord_eob_last s.eob v)

/-! ## Reserved bits -/

theorem and_masks_disjoint {m r : Word} (h : m &&& r = 0#32) (v : Word) : v &&& m &&& r = 0#32 := by
  rw [BitVec.and_assoc, h, BitVec.and_zero]

theorem and_masks_of_subset {m r : Word} (h : r &&& m = m) (v : Word) : v &&& r &&& m = v &&& m := by
  rw [BitVec.and_assoc, h]

theorem getLsbD_and_of_set {r : Word} {i : Nat} (h : r.getLsbD i = true) (v : Word) :
    (v &&& r).getLsbD i = v.getLsbD i := by
  rw [BitVec.getLsbD_and, h, Bool.and_true]

/-- A write to STATUS looks at bits 1 and 3 alone (R26). -/
theorem State.writeStatus_and (s : State) (v : Word) : s.writeStatus (v &&& 0x0000000A#32) = s.writeStatus v := by
  unfold State.writeStatus
  rw [getLsbD_and_of_set (i := 1) rfl, getLsbD_and_of_set (i := 3) rfl]

/-- A write to CTRL looks at SOFT_RESET and the writable bits alone (R27, R291). -/
theorem State.writeCtrl_and (s : State) (v : Word) : s.writeCtrl (v &&& 0x0000073F#32) = s.writeCtrl v := by
  unfold State.writeCtrl
  rw [getLsbD_and_of_set (i := 0) rfl, and_masks_of_subset (m := ctrlMask) rfl]

theorem byteLane_zero_and (v : Word) : byteLane (v &&& 0x000000FF#32) 0 = byteLane v 0 := by
  rw [← byteLane_zero_setWidth, ← wordOfBytes_low]
  exact wordOfBytes_lane _ _ _ _ (j := 0) (by decide)

/-- A write to the last EOB word looks at the byte of entry 24 alone (R42). -/
theorem setFileWord_eob_last_and (e : Vector Byte 25) (v : Word) :
    setFileWord e 6 (v &&& 0x000000FF#32) = setFileWord e 6 v := by
  rw [setFileWord_eob_last, setFileWord_eob_last, byteLane_zero_and]

/-- Settles O11: the reserved offsets by their ranges, the reserved bits by the masks of each register. -/
theorem reservedSpaceReadsZero : Obligations.ReservedSpaceReadsZero := by
  intro s off v h4 hoff
  refine ⟨fun h => ⟨s.readReg_reserved (by omega), s.writeReg_ignored (by omega) v⟩,
    fun h => s.writeReg_ignored (by omega) v, ⟨s.statusWord_reserved, ?_, ?_, ?_, ?_, ?_⟩, ?_, ?_, ?_, ?_⟩
  · exact and_masks_disjoint (m := ctrlMask) rfl s.ctrl
  · exact and_masks_disjoint (m := lfCfgMask) rfl s.lfCfg
  · exact setWidth_and_eq_zero s.lastSharp rfl
  · exact setWidth_and_eq_zero s.bd.range rfl
  · rw [s.readReg_eob (k := 6) (by decide), fileWord_eob_last]
    exact setWidth_and_eq_zero _ rfl
  · rw [s.writeReg_status, s.writeReg_status, s.writeStatus_and]
  · rw [s.writeReg_ctrl, s.writeReg_ctrl, s.writeCtrl_and]
  · rw [s.writeReg_lfCfg, s.writeReg_lfCfg, and_masks_of_subset rfl]
  · rw [s.writeReg_eob (k := 6) (by decide), s.writeReg_eob (k := 6) (by decide), setFileWord_eob_last_and]

/-! ## What a command may change -/

/-- t differs from s only in STATUS and in the state that the command i may change (R21, R23, R38, R41 to R44, R71).
Each field is by default the equality of a register the command does not write. -/
structure CommandFrame (i : Instr) (s t : State) : Prop where
  others : t = { s with
    res0 := t.res0, busy := t.busy, done := t.done, cmdErr := t.cmdErr, bdReady := t.bdReady, errCode := t.errCode,
    lastSharp := t.lastSharp, bd := t.bd, coef := t.coef, eob := t.eob, lvl := t.lvl, lim := t.lim, blim := t.blim,
    mblim := t.mblim, mem := t.mem } := by rfl
  res0 : i.isDecoding = false → t.res0 = s.res0 := by exact fun _ => rfl
  bd : i.isDecoding = false → i ≠ .bdInit → t.bd = s.bd := by exact fun _ _ => rfl
  bdReady : i ≠ .bdInit → t.bdReady = s.bdReady := by exact fun _ => rfl
  coef : i.writesCoef = false → t.coef = s.coef := by exact fun _ => rfl
  eob : i ≠ .coefClear → t.eob = s.eob := by exact fun _ => rfl
  tables : i ≠ .lfFrameInit →
    t.lastSharp = s.lastSharp ∧ t.lvl = s.lvl ∧ t.lim = s.lim ∧ t.blim = s.blim ∧ t.mblim = s.mblim := by
      exact fun _ => ⟨rfl, rfl, rfl, rfl, rfl⟩
  mem : i.writesMemory = false → t.mem = s.mem := by exact fun _ => rfl

theorem CommandFrame.finish {i : Instr} {s u : State} (h : CommandFrame i s u) : CommandFrame i s u.finish where
  others := by rw [h.others]; rfl
  res0 := h.res0
  bd := h.bd
  bdReady := h.bdReady
  coef := h.coef
  eob := h.eob
  tables := h.tables
  mem := h.mem

theorem commandFrame_fail (i : Instr) (s : State) (e : CmdError) : CommandFrame i s (s.fail e) := {}

theorem commandFrame_mem {i : Instr} (hi : i.writesMemory = true) (s : State) (m : Memory) :
    CommandFrame i s { s with mem := m } where
  mem hno := by simp [hi] at hno

theorem commandFrame_coef {i : Instr} (hi : i.writesCoef = true) (s : State) (c : Vector Half 400) :
    CommandFrame i s { s with coef := c } where
  coef hno := by simp [hi] at hno

theorem commandFrame_decoding {i : Instr} (hi : i.isDecoding = true) (s : State) (bd : BoolDecoder) (r : Word) :
    CommandFrame i s { s with bd := bd, res0 := r } where
  res0 hno := by simp [hi] at hno
  bd hno := by simp [hi] at hno

/-- What a command computes differs from its start only in the command's own state. -/
theorem Effect.frame {i : Instr} {s u : State} (he : Effect i s u) : CommandFrame i s u := by
  cases i
  case nop =>
    obtain rfl : u = s := he
    exact {}
  case bdInit =>
    obtain ⟨-, -, rfl⟩ := he
    exact { bd := fun _ hne => absurd rfl hne, bdReady := fun hne => absurd rfl hne }
  case bdBool p =>
    obtain ⟨-, rfl⟩ := he
    exact commandFrame_decoding rfl s _ _
  case bdLiteral k =>
    obtain ⟨-, rfl⟩ := he
    exact commandFrame_decoding rfl s _ _
  case treeRead tree start =>
    obtain ⟨-, _, _, _, -, -, rfl⟩ := he
    exact commandFrame_decoding rfl s _ _
  case dequant | iwht | iwhtDc | iwhtAuto =>
    rw [show u = _ from he]
    exact commandFrame_coef rfl s _
  case coefClear =>
    rw [show u = _ from he]
    exact { coef := fun hno => (by cases hno), eob := fun hne => absurd rfl hne }
  case lfFrameInit =>
    rw [show u = _ from he]
    split <;> exact { tables := fun hne => absurd rfl hne }
  all_goals
    obtain ⟨_, rfl⟩ := he
    exact commandFrame_mem rfl s _

/-- Settles O22: a failure changes STATUS alone, and an effect the command's own state. -/
theorem commandsChangeOnlyTheirState : Obligations.CommandsChangeOnlyTheirState := by
  intro i s t ht
  suffices h : CommandFrame i s t from
    ⟨h.others, h.res0, h.bd, h.bdReady, h.coef, h.eob, h.tables, h.mem⟩
  obtain ⟨u, hu, heff⟩ | ⟨e, he⟩ := exec_cases i s
  · cases hu.symm.trans ht; exact heff.frame.finish
  · cases he.symm.trans ht; exact commandFrame_fail i s e

/-! ## BD_INIT and readiness -/

/-- BD_INIT on an admitted buffer that does not wrap completes (R101). -/
theorem exec_bdInit_admitted {s : State} (hfit : (s.arg 0).toNat + (s.arg 1).toNat ≤ 2 ^ 32)
    (hadm : ∀ a ∈ s.footprintOf .bdInit, s.admits a = true) :
    exec .bdInit s = .next
      { s with
        bd := refill s.params.vs s.mem (bdStart (s.arg 0).toNat (s.arg 1).toNat)
        bdReady := true, done := true, busy := false } := by
  have hall : s.admitsAll (streamAddrs (s.arg 0) (s.arg 1).toNat) = true := (s.admitsAll_iff _).2 hadm
  have hnowrap : ¬ Config.addrSpace < (s.arg 0).toNat + (s.arg 1).toNat := Nat.not_lt.2 hfit
  show execBdInit s = _
  simp only [execBdInit, if_neg hnowrap, State.guarded_of_admits hall, complete_ok]
  rfl

/-- The length of a tree is the length R122 gives its id. -/
theorem State.length_treeOf {s : State} {tree : BitVec 4} {t : List Int} (h : s.treeOf tree = some t) :
    treeLen tree = some t.length := by
  unfold State.treeOf at h
  unfold treeLen
  split at h
  · next h15 =>
    cases h
    rw [if_pos h15]
    simp [State.treeRamList]
  · next h15 => rw [if_neg h15, h]; rfl

/-- The ids of no tree are reserved (R122). -/
theorem reserved_of_romTree_eq_none :
    ∀ tree : BitVec 4, tree.toNat ≠ 15 → romTree tree.toNat = none → 10 ≤ tree.toNat ∧ tree.toNat ≤ 14 := by
  decide

theorem State.reserved_of_treeOf_eq_none {s : State} {tree : BitVec 4} (h : s.treeOf tree = none) :
    10 ≤ tree.toNat ∧ tree.toNat ≤ 14 := by
  unfold State.treeOf at h
  split at h
  · cases h
  · next h15 => exact reserved_of_romTree_eq_none tree h15 h

/-- A TREE_READ with legal fields names a tree and a START inside it (R121). -/
theorem State.treeRead_legal (s : State) {tree : BitVec 4} {start : BitVec 5}
    (hfields : (Instr.treeRead tree start).fieldError = none) :
    ∃ t, s.treeOf tree = some t ∧ ¬ (start.toNat % 2 = 1 ∨ t.length ≤ start.toNat + 1) := by
  simp only [Instr.fieldError] at hfields
  split at hfields
  · cases hfields
  · next hlegal =>
    cases htree : s.treeOf tree with
    | none => exact absurd (State.reserved_of_treeOf_eq_none htree) hlegal
    | some t =>
      rw [State.length_treeOf htree] at hfields
      split at hfields
      · cases hfields
      · next hstart => exact ⟨t, rfl, hstart⟩

theorem exec_bdBool_notReady {s : State} (h : s.bdReady = false) (p : BitVec 8) :
    exec (.bdBool p) s = .next (s.fail .bdNotReady) := by
  show execBdBool p s = _
  rw [execBdBool, if_neg (by simp [h])]; rfl

theorem exec_bdLiteral_notReady {s : State} (h : s.bdReady = false) (k : BitVec 5) :
    exec (.bdLiteral k) s = .next (s.fail .bdNotReady) := by
  show execBdLiteral k s = _
  rw [execBdLiteral, if_neg (by simp [h])]; rfl

theorem exec_treeRead_notReady {s : State} (h : s.bdReady = false) {tree : BitVec 4} {start : BitVec 5}
    (hfields : (Instr.treeRead tree start).fieldError = none) :
    exec (.treeRead tree start) s = .next (s.fail .bdNotReady) := by
  obtain ⟨t, htree, hstart⟩ := s.treeRead_legal hfields
  show execTreeRead tree start s = _
  simp only [execTreeRead, htree, if_neg hstart, h, Bool.false_eq_true, if_false, complete_error]

/-- Settles O25: BD_INIT by its completion, the three decoding commands one by one. -/
theorem notReadyUntilBdInit : Obligations.NotReadyUntilBdInit := by
  refine ⟨fun p => rfl, fun s hfit hadm => ⟨_, exec_bdInit_admitted hfit hadm, rfl⟩, fun i s hdec hfields hready => ?_⟩
  cases i with
  | bdBool p => exact exec_bdBool_notReady hready p
  | bdLiteral k => exact exec_bdLiteral_notReady hready k
  | treeRead tree start => exact exec_treeRead_notReady hready hfields
  | _ => cases hdec

/-- Settles O28: BD_INIT leaves 255, and a decision keeps the decoder in its ranges. -/
theorem rangeStaysNormalised : Obligations.RangeStaysNormalised := by
  refine ⟨fun p => rfl, fun s hfit hadm => ?_, fun vs m p bd h => ?_, fun s v => ⟨rfl, ?_⟩⟩
  · obtain ⟨-, hrange, -⟩ := bdInit_inRange s.params.vs s.mem hfit
    exact ⟨_, exec_bdInit_admitted hfit hadm, hrange⟩
  · obtain ⟨⟨hrange, -⟩, -⟩ := decodeBool_inRange m p h
    exact ⟨hrange, Nat.le_of_lt_succ (decodeBool vs m p bd).2.range.isLt⟩
  · exact s.writeReg_ignored (by decide) v

/-! ## CMD and STATUS -/

/-- Settles O7: the write and the read of CMD are the accesses at offset 4 of a state without BUSY. -/
theorem commandWriteRunsDecodedCommand : Obligations.CommandWriteRunsDecodedCommand := by
  intro s rest w hb
  have hidle : State.busy { s with host := rest } = false := hb
  refine ⟨fun hhost => ?_, fun hhost => ?_⟩
  · have hstep : step s = runCommand w { s with host := rest } :=
      (step_regWrite hhost (by decide) rfl).trans (State.hostRegWrite_command hidle w)
    refine ⟨fun i hi => ?_, fun e he => ?_⟩
    · rw [hstep, runCommand, hi]
    · rw [hstep, runCommand, he]; rfl
  · rw [step_regRead hhost (by decide) rfl, State.hostRegRead_of_idle hidle]; rfl

theorem and_not_eq_ite (a b : Bool) : (a && !b) = if b = true then false else a := by
  cases a <;> cases b <;> rfl

/-- Settles O13: the fields of the STATUS word, and the three fields a write to STATUS changes. -/
theorem statusReadsAndWrites : Obligations.StatusReadsAndWrites := fun s v =>
  ⟨s.statusWord_fields, s.writeStatus v, rfl, rfl, and_not_eq_ite s.done _, and_not_eq_ite s.cmdErr _, rfl⟩

/-- BD_ERR as an inequality of integers (R49). -/
theorem bdErrOf_iff (vs : ValueSize) (bd : BoolDecoder) :
    bdErrOf vs bd = true ↔ (vsBits vs : Int) < bd.count.toInt ∧ bd.count.toInt < Config.lotsOfBits := by
  simp only [bdErrOf, Bool.and_eq_true, decide_eq_true_eq]

theorem State.resetWith_bdErr (p : Params) : (State.resetWith p).bdErr = false := by
  refine Bool.eq_false_iff.2 fun h => ?_
  obtain ⟨hlt, -⟩ := (bdErrOf_iff p.vs BoolDecoder.reset).1 h
  rw [show BoolDecoder.reset.count.toInt = 0 from rfl] at hlt
  omega

/-- Settles O14: BD_ERR stands in bit 2 of STATUS. -/
theorem bdErrRule : Obligations.BdErrRule := by
  refine ⟨fun s => ?_, State.resetWith_bdErr⟩
  obtain ⟨-, -, hbit, -⟩ := s.statusWord_fields
  rw [show (s.readReg 0x008).getLsbD 2 = bdErrOf s.params.vs s.bd from hbit, bdErrOf_iff]
  cases s.params.vs <;> rfl

end Sys2Proof.Machine

namespace Sys2Proof.Machine

/-! ## What a register write keeps -/

/-- t is s after a write at offset off that is no soft reset: only the register, or the register file, at off may differ
(R20). Each field is by default the equality of a register the write does not reach. -/
structure RegisterFrame (off : Nat) (s t : State) : Prop where
  others : t = { s with
    done := t.done, cmdErr := t.cmdErr, errCode := t.errCode, ctrl := t.ctrl, lfCfg := t.lfCfg, lfSeg := t.lfSeg,
    lfRefd := t.lfRefd, lfModed := t.lfModed, dq := t.dq, args := t.args, prob := t.prob, treeRam := t.treeRam,
    coef := t.coef, eob := t.eob } := by rfl
  status : off ≠ 0x008 → t.done = s.done ∧ t.cmdErr = s.cmdErr ∧ t.errCode = s.errCode := by
    exact fun _ => ⟨rfl, rfl, rfl⟩
  ctrl : off ≠ 0x00C → t.ctrl = s.ctrl := by exact fun _ => rfl
  lfCfg : off ≠ 0x014 → t.lfCfg = s.lfCfg := by exact fun _ => rfl
  lfSeg : off ≠ 0x018 → t.lfSeg = s.lfSeg := by exact fun _ => rfl
  lfRefd : off ≠ 0x01C → t.lfRefd = s.lfRefd := by exact fun _ => rfl
  lfModed : off ≠ 0x020 → t.lfModed = s.lfModed := by exact fun _ => rfl
  dq : off ≠ 0x024 → t.dq = s.dq := by exact fun _ => rfl
  args : ¬ (0x040 ≤ off ∧ off < 0x060) → t.args = s.args := by exact fun _ => rfl
  prob : ¬ (0x080 ≤ off ∧ off < 0x090) → t.prob = s.prob := by exact fun _ => rfl
  treeRam : ¬ (0x090 ≤ off ∧ off < 0x0B0) → t.treeRam = s.treeRam := by exact fun _ => rfl
  coef : ¬ (0x100 ≤ off ∧ off < 0x420) → t.coef = s.coef := by exact fun _ => rfl
  eob : ¬ (0x420 ≤ off ∧ off < 0x43C) → t.eob = s.eob := by exact fun _ => rfl

/-- A register write that is no soft reset reaches the register at its offset alone. -/
theorem State.writeReg_frame (s : State) {off : Nat} {v : Word} (hnoReset : ¬ (off = 0x00C ∧ v.getLsbD 0 = true)) :
    RegisterFrame off s (s.writeReg off v) := by
  by_cases hctrl : off = 0x00C
  · subst hctrl
    have hv : v.getLsbD 0 = false := Bool.eq_false_iff.2 fun hv => hnoReset ⟨rfl, hv⟩
    rw [State.writeReg_ctrl, State.writeCtrl_configures s hv]
    exact { ctrl := fun hne => absurd rfl hne }
  unfold State.writeReg
  refine iteInduction (fun h => { status := (absurd h ·) }) fun _ => ?_
  rw [if_neg hctrl]
  refine iteInduction (fun h => { lfCfg := (absurd h ·) }) fun _ => ?_
  refine iteInduction (fun h => { lfSeg := (absurd h ·) }) fun _ => ?_
  refine iteInduction (fun h => { lfRefd := (absurd h ·) }) fun _ => ?_
  refine iteInduction (fun h => { lfModed := (absurd h ·) }) fun _ => ?_
  refine iteInduction (fun h => { dq := (absurd h ·) }) fun _ => ?_
  refine iteInduction (fun h => { args := (absurd h ·) }) fun _ => ?_
  refine iteInduction (fun h => { prob := (absurd h ·) }) fun _ => ?_
  refine iteInduction (fun h => { treeRam := (absurd h ·) }) fun _ => ?_
  refine iteInduction (fun h => { coef := (absurd h ·) }) fun _ => ?_
  exact iteInduction (fun h => { eob := (absurd h ·) }) fun _ => {}

theorem State.writeReg_resets (s : State) {off : Nat} {v : Word} (h : off = 0x00C ∧ v.getLsbD 0 = true) :
    s.writeReg off v = s.resetRegisters := by
  obtain ⟨rfl, hv⟩ := h
  exact (s.writeReg_ctrl v).trans (s.writeCtrl_resets hv)

/-- No register write, a soft reset included, changes frame memory, the parameters or the model's own fields (R20, R66,
R291; log 8). -/
theorem State.writeReg_keeps (s : State) (off : Nat) (v : Word) :
    (s.writeReg off v).mem = s.mem ∧ (s.writeReg off v).params = s.params ∧ (s.writeReg off v).host = s.host ∧
      (s.writeReg off v).hostData = s.hostData ∧ (s.writeReg off v).freeCount = s.freeCount := by
  by_cases hreset : off = 0x00C ∧ v.getLsbD 0 = true
  · rw [s.writeReg_resets hreset]
    exact ⟨rfl, rfl, rfl, rfl, rfl⟩
  · have hothers := (s.writeReg_frame hreset).others
    exact ⟨(congrArg State.mem hothers :), (congrArg State.params hothers :), (congrArg State.host hothers :),
      (congrArg State.hostData hothers :), (congrArg State.freeCount hothers :)⟩

/-! ## An access inside the interface has a next state -/

/-- A command word keeps the parameters and the host's coming accesses. -/
theorem runCommand_keeps (w : Word) (s : State) :
    ∃ t, runCommand w s = .next t ∧ t.params = s.params ∧ t.host = s.host := by
  obtain ⟨i, u, hu, heff⟩ | ⟨e, he⟩ := runCommand_cases w s
  · have hothers := heff.frame.others
    exact ⟨u.finish, hu, (congrArg State.params hothers :), (congrArg State.host hothers :)⟩
  · exact ⟨s.fail e, he, rfl, rfl⟩

/-- A register write, whether ignored, a command or a write of the register, has a next state (R25, R301). -/
theorem State.hostRegWrite_keeps (s : State) (off : Nat) (v : Word) :
    ∃ t, s.hostRegWrite off v = .next t ∧ t.params = s.params ∧ t.host = s.host := by
  unfold State.hostRegWrite
  split
  · split <;> exact ⟨_, rfl, rfl, rfl⟩
  · split
    · exact runCommand_keeps v s
    · obtain ⟨-, hparams, hhost, -⟩ := s.writeReg_keeps off v
      exact ⟨_, rfl, hparams, hhost⟩

/-- A register access inside the interface is the access of its offset. -/
theorem State.regAccess_of_inInterface (s : State) {address : Nat} (hlo : s.params.mmioBase ≤ address)
    (hhi : address < s.params.mmioBase + Config.windowSize) (h4 : (address - s.params.mmioBase) % 4 = 0)
    (k : Nat → Host.Outcome State Fault Refusal) :
    s.regAccess 32 address k = k (address - s.params.mmioBase) := by
  have h := s.regAccess_of_offset (show address - s.params.mmioBase < Config.windowSize by omega) h4 k
  rwa [show s.params.mmioBase + (address - s.params.mmioBase) = address by omega] at h

/-- Progress: an access inside the interface has a next state, with the same parameters and coming accesses. -/
theorem hostStep_of_inInterface {h : HostAction} {s : State} (hin : h.inInterface s.params.mmioBase) :
    ∃ t, hostStep h s = .next t ∧ t.params = s.params ∧ t.host = s.host := by
  cases h with
  | regRead width address =>
    obtain ⟨rfl, hlo, hhi, h4⟩ := hin
    rw [hostStep_regRead, s.regAccess_of_inInterface hlo hhi h4]
    have hframe := s.hostRegRead_frame (address - s.params.mmioBase)
    exact ⟨_, rfl, (congrArg State.params hframe :), (congrArg State.host hframe :)⟩
  | regWrite width address v =>
    obtain ⟨rfl, hlo, hhi, h4⟩ := hin
    rw [hostStep_regWrite, s.regAccess_of_inInterface hlo hhi h4]
    exact s.hostRegWrite_keeps _ v
  | memRead a => exact ⟨_, rfl, rfl, rfl⟩
  | memWrite a b => exact ⟨_, rfl, rfl, rfl⟩
  | resetInput => exact ⟨_, rfl, rfl, rfl⟩

/-- Only an access inside the interface has a next state (R61). -/
theorem inInterface_of_hostStep {h : HostAction} {s t : State} (ht : hostStep h s = .next t) :
    h.inInterface s.params.mmioBase := by
  cases h with
  | regRead width address =>
    obtain ⟨off, rfl, rfl, hoff, h4, -⟩ := State.regAccess_next ((hostStep_regRead s width address).symm.trans ht)
    exact ⟨rfl, by omega, by omega, by omega⟩
  | regWrite width address v =>
    obtain ⟨off, rfl, rfl, hoff, h4, -⟩ := State.regAccess_next ((hostStep_regWrite s width address v).symm.trans ht)
    exact ⟨rfl, by omega, by omega, by omega⟩
  | memRead a => trivial
  | memWrite a b => trivial
  | resetInput => trivial

/-- With coming accesses inside the interface a step takes the oldest off the list, if there is one, and keeps the
parameters. -/
theorem step_of_inInterface {s : State} (hin : ∀ h ∈ s.host, HostAction.inInterface s.params.mmioBase h) :
    ∃ t, step s = .next t ∧ t.params = s.params ∧ t.host = s.host.drop 1 := by
  cases hhost : s.host with
  | nil => exact ⟨s, step_of_idle hhost, rfl, hhost⟩
  | cons h rest =>
    rw [step_of_host hhost]
    exact hostStep_of_inInterface (s := { s with host := rest }) (hin h (by rw [hhost]; exact List.mem_cons_self))

/-- R7: no step changes the parameters. -/
theorem step_params {s t : State} (ht : step s = .next t) : t.params = s.params := by
  cases hhost : s.host with
  | nil => rw [step_of_idle hhost] at ht; cases ht; rfl
  | cons h rest =>
    rw [step_of_host hhost] at ht
    obtain ⟨u, hu, hparams, -⟩ := hostStep_of_inInterface (inInterface_of_hostStep ht)
    cases hu.symm.trans ht
    exact hparams

/-- A run of one step more goes on from the state that step answers. -/
theorem run_succ {M : Host.Core} {s t : M.State} (ht : M.step s = .next t) (k : Nat) : M.run (k + 1) s = M.run k t := by
  rw [Host.Core.run, ht]

/-- Settles O9, by induction on the number of steps: a step inside the interface leads to a state whose coming accesses
are inside it. -/
theorem interfaceRunsNeverStop : Obligations.InterfaceRunsNeverStop := by
  intro k
  induction k with
  | zero => exact fun s _ => ⟨s, rfl, rfl, rfl⟩
  | succ k ih =>
    intro s hin
    obtain ⟨u, hstep, hparams, hhost⟩ := step_of_inInterface hin
    have hrest : ∀ h ∈ u.host, HostAction.inInterface u.params.mmioBase h := by
      rw [hparams, hhost]
      exact fun h hmem => hin h (List.mem_of_mem_drop hmem)
    obtain ⟨t, hrun, htail, hsame⟩ := ih u hrest
    refine ⟨t, (run_succ (M := core) hstep k).trans hrun, ?_, hsame.trans hparams⟩
    rw [htail, hhost, List.drop_drop, Nat.add_comm]

/-! ## Accesses of the host, one by one -/

/-- A register access of another width or alignment is stuck anywhere in the window (R61). -/
theorem State.regAccess_stuck (s : State) {width address : Nat} (hlo : s.params.mmioBase ≤ address)
    (hhi : address < s.params.mmioBase + Config.windowSize)
    (hbad : width ≠ 32 ∨ (address - s.params.mmioBase) % 4 ≠ 0) (k : Nat → Host.Outcome State Fault Refusal) :
    s.regAccess width address k = .fault .hostAccessOutsideInterface := by
  unfold State.regAccess
  rw [if_pos ⟨hlo, hhi⟩, if_neg (by omega)]

/-- Settles O8: outside the interface the access is stuck, inside it there is a next state. -/
theorem registerAccessOutsideInterfaceSticks : Obligations.RegisterAccessOutsideInterfaceSticks := by
  intro s rest width address v hlo hhi hhost
  refine ⟨fun hbad => ?_, fun hwidth h4 => ?_⟩
  · have hstuck := State.regAccess_stuck { s with host := rest } hlo hhi hbad
    obtain hhost | hhost := hhost
    · rw [step_of_host hhost, hostStep_regRead, hstuck]
    · rw [step_of_host hhost, hostStep_regWrite, hstuck]
  · have hin : width = 32 ∧ s.params.mmioBase ≤ address ∧ address < s.params.mmioBase + Config.windowSize ∧
        (address - s.params.mmioBase) % 4 = 0 := ⟨hwidth, hlo, hhi, h4⟩
    have hnext {h : HostAction} (hhost : s.host = h :: rest) (hin : h.inInterface s.params.mmioBase) :
        ∃ t, step s = .next t := by
      obtain ⟨t, ht, -⟩ := hostStep_of_inInterface (s := { s with host := rest }) hin
      exact ⟨t, (step_of_host hhost).trans ht⟩
    exact hhost.elim (hnext · hin) (hnext · hin)

/-- While BUSY = 1 as while it is 0, a write to CTRL with SOFT_RESET = 1 is a reset (R291, R301). -/
theorem State.hostRegWrite_softReset (s : State) {v : Word} (hv : v.getLsbD 0 = true) :
    s.hostRegWrite 0x00C v = .next s.resetRegisters := by
  cases hb : s.busy with
  | true => unfold State.hostRegWrite; rw [if_pos hb, if_pos ⟨rfl, hv⟩]
  | false => rw [State.hostRegWrite_of_idle hb (by decide), s.writeReg_resets ⟨rfl, hv⟩]

/-- An access that resets leaves the reset state of the registers (R290, R291). -/
theorem hostStep_of_resets {h : HostAction} {s : State} (hr : h.resets s.params.mmioBase) :
    hostStep h s = .next s.resetRegisters := by
  cases h with
  | regWrite width address v =>
    obtain ⟨rfl, rfl, hv⟩ := hr
    rw [hostStep_regWrite, s.regAccess_of_offset (by decide) rfl, s.hostRegWrite_softReset hv]
  | resetInput => rfl
  | regRead | memRead | memWrite => exact hr.elim

/-- Settles O10: the register accesses by their offsets, the write of each register by its frame, the frame-memory
accesses and the resets by what the step answers. -/
theorem hostAccessesChangeOnlyTheirTarget : Obligations.HostAccessesChangeOnlyTheirTarget := by
  intro s rest
  refine ⟨fun off hb hoff h4 hhost => ?_, fun off v hb hoff h4 hcmd hhost => ?_, fun off v => ?_, fun a hhost => ?_,
    fun a b hhost => ?_, fun h hhost hr => ?_⟩
  · rw [step_regRead hhost hoff h4]
    exact congrArg _ (State.hostRegRead_of_idle (s := { s with host := rest }) hb off)
  · rw [step_regWrite hhost hoff h4]
    exact State.hostRegWrite_of_idle (s := { s with host := rest }) hb hcmd v
  · obtain ⟨hmem, hparams, hhost, hdata, hfree⟩ := s.writeReg_keeps off v
    refine ⟨hmem, hparams, hhost, hdata, hfree, fun hnoReset => ?_⟩
    have hf := s.writeReg_frame hnoReset
    have field {α : Type} (get : State → α) := congrArg get hf.others
    exact ⟨field State.res0, field State.busy, field State.bdReady, field State.lastSharp, field State.bd,
      field State.lvl, field State.lim, field State.blim, field State.mblim, hf.status, hf.ctrl, hf.lfCfg, hf.lfSeg,
      hf.lfRefd, hf.lfModed, hf.dq, hf.args, hf.prob, hf.treeRam, hf.coef, hf.eob⟩
  · exact step_of_host hhost
  · refine ⟨_, step_of_host hhost, rfl, Memory.read_write_same s.mem a b, fun a' hne => ?_⟩
    exact Memory.read_write_other s.mem hne.symm b
  · refine ⟨State.resetRegisters { s with host := rest }, ?_, rfl, rfl, rfl⟩
    rw [step_of_host hhost]
    exact hostStep_of_resets hr

/-! ## The check of the footprint -/

/-- The command i in s is the operation u behind the check of its footprint, and u leaves CMD_ERR and ERR_CODE to the
end of the command (R64, R262, R263). -/
def GuardedBy (i : Instr) (s u : State) : Prop :=
  exec i s = complete s (s.guarded (s.footprintOf i) u) ∧ u.cmdErr = s.cmdErr ∧ u.errCode = s.errCode

/-- The first check of a command's fields is passed when they are legal. -/
theorem not_of_ite_some_eq_none {α : Type} {c : Prop} [Decidable c] {e : α} {r : Option α}
    (h : (if c then some e else r) = none) : ¬ c := by
  intro hc
  rw [if_pos hc] at h
  cases h

theorem subModeOf_of_legal : ∀ mode : BitVec 4, ¬ 9 < mode.toNat → (subModeOf mode).isSome = true := by decide

theorem blockModeOf_of_legal : ∀ mode : BitVec 4, ¬ 3 < mode.toNat → (blockModeOf mode).isSome = true := by decide

theorem edgeKindOf_of_legal : ∀ kind : BitVec 2, kind.toNat ≠ 3 → (edgeKindOf kind).isSome = true := by decide

/-- A legal MODE of LF_MB is a macroblock mode, and intra exactly when REF is 0 (R230). -/
theorem mbModeOf_of_legal : ∀ (ref : BitVec 2) (mode : BitVec 4),
    (if 9 < mode.toNat then some CmdError.illegalMode
      else if (ref.toNat = 0 ∧ 4 < mode.toNat) ∨ (0 < ref.toNat ∧ mode.toNat < 5) then some .badParam
      else none) = none →
    (mbModeOf mode).map (fun md => isIntraMode md != decide (ref = 0#2)) = some false := by decide

theorem State.intraBlock_of_legal (s : State) (n : Nat) {mode : BitVec 4} (hmode : ¬ 3 < mode.toNat) (up left : Bool) :
    ∃ md, s.intraBlock n mode up left = s.guarded (s.intraFootprint n n)
      (s.storeBlock (s.arg 3) (s.arg 4) n n (predN n md (s.above n) (s.left n) s.topLeft up left)) := by
  obtain ⟨md, hmd⟩ := Option.isSome_iff_exists.1 (blockModeOf_of_legal mode hmode)
  exact ⟨md, by rw [State.intraBlock, hmd]⟩

/-- Every command with legal fields that decodes nothing is an operation behind the check of its footprint. -/
theorem exec_guardedBy {i : Instr} {s : State} (hfields : i.fieldError = none) (hdec : i.isDecoding = false)
    (hfits : s.bufferWraps i = false) : ∃ u, GuardedBy i s u := by
  cases i with
  | bdBool | bdLiteral | treeRead => cases hdec
  | nop | iwht | iwhtDc | coefClear => exact ⟨_, rfl, rfl, rfl⟩
  | iwhtAuto =>
    refine ⟨if 1 < s.eobAt 24 then s.iwht else s.iwhtDc, rfl, ?_⟩
    split <;> exact ⟨rfl, rfl⟩
  | lfFrameInit =>
    refine ⟨_, rfl, ?_⟩
    by_cases h : s.sharpness ≠ s.lastSharp
    · rw [if_pos h]; exact ⟨rfl, rfl⟩
    · rw [if_neg h]; exact ⟨rfl, rfl⟩
  | bdInit => exact ⟨_, congrArg (complete s) (if_neg (of_decide_eq_false hfits)), rfl, rfl⟩
  | dequant blk | idctAdd blk | idctDcAdd blk =>
    exact ⟨_, congrArg (complete s) (if_neg (not_of_ite_some_eq_none hfields)), rfl, rfl⟩
  | idctAutoAdd blk =>
    have hexec : exec (.idctAutoAdd blk) s =
        complete s (if 1 < s.eobAt blk.toNat then s.idctAdd blk.toNat else s.idctDcAdd blk.toNat) :=
      congrArg (complete s) (if_neg (not_of_ite_some_eq_none hfields))
    by_cases heob : 1 < s.eobAt blk.toNat
    · rw [if_pos heob] at hexec; exact ⟨_, hexec, rfl, rfl⟩
    · rw [if_neg heob] at hexec; exact ⟨_, hexec, rfl, rfl⟩
  | intraB4 mode =>
    obtain ⟨md, hmd⟩ := Option.isSome_iff_exists.1 (subModeOf_of_legal mode (not_of_ite_some_eq_none hfields))
    have hexec : exec (.intraB4 mode) s = complete s (s.guarded (s.intraFootprint 8 4)
        (s.storeBlock (s.arg 3) (s.arg 4) 4 4 (pred4 md (s.above 8) (s.left 4) s.topLeft))) := by
      show execIntraB4 mode s = _
      rw [execIntraB4, hmd]
    exact ⟨_, hexec, rfl, rfl⟩
  | intraY16 mode up left =>
    obtain ⟨md, hmd⟩ := s.intraBlock_of_legal 16 (not_of_ite_some_eq_none hfields) up left
    exact ⟨_, congrArg (complete s) hmd, rfl, rfl⟩
  | intraUv8 mode up left =>
    obtain ⟨md, hmd⟩ := s.intraBlock_of_legal 8 (not_of_ite_some_eq_none hfields) up left
    exact ⟨_, congrArg (complete s) hmd, rfl, rfl⟩
  | aboveRightCopy => exact ⟨_, rfl, rfl, rfl⟩
  | mcPred size chroma => exact ⟨_, rfl, rfl, rfl⟩
  | lfMb seg ref mode skip top leftMb =>
    obtain ⟨md, hmd, hintra⟩ := Option.map_eq_some_iff.1 (mbModeOf_of_legal ref mode hfields)
    refine ⟨{ s with mem := runEdges (s.edgesOfMb seg ref mode skip top leftMb) s.mem }, ?_, rfl, rfl⟩
    show execLfMb seg ref mode skip top leftMb s = _
    simp only [execLfMb, State.footprintOf, State.edgesOfMb, hmd, hintra, Bool.false_eq_true, if_false]
  | lfEdge dir kind cnt =>
    obtain ⟨k, hk⟩ := Option.isSome_iff_exists.1 (edgeKindOf_of_legal kind (not_of_ite_some_eq_none hfields))
    obtain ⟨e, he⟩ : ∃ e, s.lfEdgeJob dir kind cnt = some e := ⟨_, by rw [State.lfEdgeJob, hk]; rfl⟩
    refine ⟨{ s with mem := e.run s.mem }, ?_, rfl, rfl⟩
    show execLfEdge dir kind cnt s = _
    simp only [execLfEdge, State.footprintOf, he, Option.map_some, Option.getD_some]

/-- Settles O24: behind a check that is passed, the operation is done and the command ends. -/
theorem preparedCommandsComplete : Obligations.PreparedCommandsComplete := by
  intro i s hfields hdec hadm hfits
  obtain ⟨u, hexec, hcmdErr, herrCode⟩ := exec_guardedBy hfields hdec hfits
  rw [State.guarded_of_admits ((s.admitsAll_iff _).2 hadm)] at hexec
  exact ⟨u.finish, hexec, rfl, rfl, hcmdErr, herrCode⟩

/-- A BD_INIT whose buffer wraps fails with MEM_FAULT (R76). -/
theorem exec_of_bufferWraps {i : Instr} {s : State} (h : s.bufferWraps i = true) :
    exec i s = .next (s.fail .memFault) := by
  cases i with
  | bdInit =>
    show execBdInit s = _
    rw [execBdInit, if_pos (of_decide_eq_true h)]; rfl
  | _ => cases h

/-- The decoding commands have no footprint of their own (R76). -/
theorem not_isDecoding_of_mem_footprint {i : Instr} {s : State} {a : Addr} (ha : a ∈ s.footprintOf i) :
    i.isDecoding = false := by
  cases i with
  | bdBool | bdLiteral | treeRead => cases ha
  | _ => rfl

/-- A command with legal fields and a byte of its footprint not admitted fails with MEM_FAULT (R64). -/
theorem exec_of_not_admitted {i : Instr} {s : State} {a : Addr} (hfields : i.fieldError = none)
    (hfits : s.bufferWraps i = false) (ha : a ∈ s.footprintOf i) (hno : s.admits a = false) :
    exec i s = .next (s.fail .memFault) := by
  obtain ⟨u, hexec, -⟩ := exec_guardedBy hfields (not_isDecoding_of_mem_footprint ha) hfits
  have hall : s.admitsAll (s.footprintOf i) = false :=
    Bool.eq_false_iff.2 fun hall => by simp [(s.admitsAll_iff _).1 hall a ha] at hno
  rw [hexec, State.guarded_of_not_admits hall, complete_error]

/-! ## The footprints, from the rules -/

/-- A row of bytes as a window of one row (R170). -/
theorem mem_rowAddrs {base : Word} {j0 : Int} {n : Nat} {a : Addr} :
    a ∈ rowAddrs base j0 n ↔ InWindow a base.toNat 0 0 0 j0 (j0 + n - 1) := by
  rw [rowAddrs_eq, mem_windowAddrs]; rfl

theorem mem_colAddrs {base stride : Word} {n : Nat} {a : Addr} :
    a ∈ colAddrs base stride n ↔ InWindow a base.toNat stride.toNat 0 (n - 1) 0 0 := by
  rw [colAddrs_eq, mem_windowAddrs, Int.zero_add]; rfl

theorem mem_blockAddrs_window {base stride : Word} {w h : Nat} {a : Addr} :
    a ∈ blockAddrs base stride w h ↔ InWindow a base.toNat stride.toNat 0 (h - 1) 0 (w - 1) := by
  rw [blockAddrs_eq, mem_windowAddrs, Int.zero_add, Int.zero_add]

/-- The footprint of the residual commands (R146). -/
theorem State.mem_addBlockFootprint {s : State} {a : Addr} :
    a ∈ s.addBlockFootprint ↔
      InWindow a (s.arg 0).toNat (s.arg 1).toNat 0 3 0 3 ∨ InWindow a (s.arg 2).toNat (s.arg 3).toNat 0 3 0 3 := by
  rw [State.addBlockFootprint, List.mem_append, mem_blockAddrs_window, mem_blockAddrs_window]; rfl

/-- The footprint of a prediction (R170, R182 to R184). -/
theorem State.mem_intraFootprint {s : State} {na n : Nat} {a : Addr} :
    a ∈ s.intraFootprint na n ↔
      IntraTouches a (s.arg 0).toNat (s.arg 1).toNat (s.arg 2).toNat (s.arg 3).toNat (s.arg 4).toNat na n := by
  rw [State.intraFootprint, State.aboveAddrs, State.leftAddrs, List.mem_append, List.mem_append, mem_rowAddrs,
    mem_colAddrs, mem_blockAddrs_window, or_assoc, IntraTouches,
    show (-1 : Int) + ((na + 1 : Nat) : Int) - 1 = na - 1 by omega]

/-- The bytes ABOVE_RIGHT_COPY reads (R187). -/
theorem State.mem_aboveRightSource {s : State} {a : Addr} :
    a ∈ s.aboveRightSource ↔
      ∃ j : Int, 0 ≤ j ∧ j ≤ 3 ∧ a = BitVec.ofInt 32 ((s.arg 0).toNat - (s.arg 1).toNat + 16 + j) := by
  have haddr (j : Int) : pixAddr (s.arg 0) (s.arg 1) (-1) (16 + j) =
      BitVec.ofInt 32 ((s.arg 0).toNat - (s.arg 1).toNat + 16 + j) := by
    rw [pixAddr, toAddr]; congr 1; ring
  simp only [State.aboveRightSource, List.mem_map, List.mem_range, haddr]
  constructor
  · rintro ⟨j, hj, rfl⟩
    exact ⟨j, by omega, by omega, rfl⟩
  · rintro ⟨j, h0, h3, rfl⟩
    exact ⟨j.toNat, by omega, by rw [Int.toNat_of_nonneg h0]⟩

/-- The bytes ABOVE_RIGHT_COPY writes (R187). -/
theorem State.mem_aboveRightDest {s : State} {a : Addr} :
    (a ∈ aboveRightIndices.map fun kj => s.aboveRightDest kj.1 kj.2) ↔
      ∃ k j : Int, 1 ≤ k ∧ k ≤ 3 ∧ 0 ≤ j ∧ j ≤ 3 ∧
        a = BitVec.ofInt 32 ((s.arg 0).toNat + (4 * k - 1) * (s.arg 1).toNat + 16 + j) := by
  have haddr (k j : Nat) : s.aboveRightDest k j =
      BitVec.ofInt 32 ((s.arg 0).toNat + (4 * k - 1) * (s.arg 1).toNat + 16 + j) := by
    rw [State.aboveRightDest, pixAddr, toAddr, ← Int.add_assoc]
  simp only [aboveRightIndices, List.map_map, List.mem_map, List.mem_range, Function.comp_apply, haddr]
  constructor
  · rintro ⟨n, hn, rfl⟩
    exact ⟨(n / 4 + 1 : Nat), (n % 4 : Nat), by omega, by omega, by omega, by omega, rfl⟩
  · rintro ⟨k, j, hk1, hk3, hj0, hj3, rfl⟩
    refine ⟨(4 * (k - 1) + j).toNat, by omega, ?_⟩
    rw [show (((4 * (k - 1) + j).toNat / 4 + 1 : Nat) : Int) = k by omega,
      show (((4 * (k - 1) + j).toNat % 4 : Nat) : Int) = j by omega]

/-- The size of the block of MC_PRED as R201 gives it. -/
theorem mcSize_eq : ∀ size : BitVec 2,
    ((mcSize size).1 : Int) = (if size = 0#2 then 4 else if size = 1#2 then 8 else if size = 2#2 then 8 else 16) ∧
      ((mcSize size).2 : Int) = (if size = 0#2 then 4 else if size = 1#2 then 4 else if size = 2#2 then 8 else 16) := by
  decide

/-- The reference bytes of MC_PRED by its path (R208). -/
theorem McOperands.mem_referenceAddrs {o : McOperands} {stride : Word} {a : Addr} :
    a ∈ o.referenceAddrs stride ↔
      match o.path with
      | .copy => InWindow a o.base.toNat stride.toNat 0 (o.height - 1) 0 (o.width - 1)
      | .sixTap => InWindow a o.base.toNat stride.toNat (-2) (o.height + 2) (-2) (o.width + 2)
      | .bilinear => InWindow a o.base.toNat stride.toNat 0 o.height 0 o.width := by
  unfold McOperands.referenceAddrs
  cases o.path with
  | copy => simp only [mem_windowAddrs, Int.zero_add]
  | sixTap =>
    simp only [mem_windowAddrs]
    rw [show (-2 : Int) + ((o.height + 5 : Nat) : Int) - 1 = o.height + 2 by omega,
      show (-2 : Int) + ((o.width + 5 : Nat) : Int) - 1 = o.width + 2 by omega]
  | bilinear =>
    simp only [mem_windowAddrs]
    rw [show (0 : Int) + ((o.height + 1 : Nat) : Int) - 1 = o.height by omega,
      show (0 : Int) + ((o.width + 1 : Nat) : Int) - 1 = o.width by omega]

theorem shr_three (v : Int) : shr v 3 = v / 8 := rfl

/-- The path of MC_PRED by the fractions of the vector and INTERP (R201). -/
theorem State.mcOperands_path {s : State} {chroma : Bool} {col row : Int} (hv : s.mcVector chroma = (col, row))
    (size : BitVec 2) :
    (s.mcOperands size chroma).path =
      if col % 8 = 0 ∧ row % 8 = 0 then .copy else if s.interp then .bilinear else .sixTap := by
  have hzero (v : Int) : (v % 8).toNat = 0 ↔ v % 8 = 0 := by omega
  simp only [State.mcOperands, hv, hzero]

/-- The reference bytes of MC_PRED, at the exact base b = P + (row >> 3)*S + (col >> 3) (R12, R201, R208). -/
theorem State.mem_mcReference {s : State} {size : BitVec 2} {chroma : Bool} {a : Addr} {col row b : Int}
    (hv : s.mcVector chroma = (col, row))
    (hb : b = (s.arg 0).toNat + row / 8 * (s.arg 1).toNat + col / 8) :
    a ∈ (s.mcOperands size chroma).referenceAddrs (s.arg 1) ↔
      if col % 8 = 0 ∧ row % 8 = 0 then
        InWindow a b (s.arg 1).toNat 0 ((mcSize size).2 - 1) 0 ((mcSize size).1 - 1)
      else if s.interp then InWindow a b (s.arg 1).toNat 0 (mcSize size).2 0 (mcSize size).1
      else InWindow a b (s.arg 1).toNat (-2) ((mcSize size).2 + 2) (-2) ((mcSize size).1 + 2) := by
  have hbase : (s.mcOperands size chroma).base = toAddr b := by
    simp only [State.mcOperands, hv, pixAddr, shr_three, hb]
  rw [McOperands.mem_referenceAddrs, State.mcOperands_path hv]
  split_ifs <;> simp only [hbase, inWindow_toAddr] <;> rfl

/-- The vector of MC_PRED, component by component (R201, R206). -/
theorem State.mcVector_eq (s : State) (chroma : Bool) :
    s.mcVector chroma =
      (if chroma then chromaMv s.fullPixel s.mvCol else s.mvCol,
        if chroma then chromaMv s.fullPixel s.mvRow else s.mvRow) := by
  cases chroma <;> rfl

/-- The footprint of MC_PRED (R208). -/
theorem State.mem_mcFootprint {s : State} {size : BitVec 2} {chroma : Bool} {a : Addr} :
    a ∈ s.mcFootprint size chroma ↔ s.Touches a (.mcPred size chroma) := by
  obtain ⟨hw, hh⟩ := mcSize_eq size
  rw [State.mcFootprint, List.mem_append, mem_blockAddrs_window,
    State.mem_mcReference (s.mcVector_eq chroma) rfl]
  simp only [State.Touches, ← hw, ← hh]
  rfl

/-- The read range of an edge as an interval of offsets (R226). -/
theorem mem_readOffsets {kind : EdgeKind} {k : Int} :
    k ∈ readOffsets kind ↔ if decide (kind = .simple) then -2 ≤ k ∧ k ≤ 1 else -4 ≤ k ∧ k ≤ 3 := by
  cases kind <;> simp [readOffsets] <;> omega

/-- X(i, k) as an exact integer reduced modulo 2^32 (R225). -/
theorem EdgeJob.addr_eq (e : EdgeJob) (i : Nat) (k : Int) :
    e.addr i k = BitVec.ofInt 32 (if decide (e.dir = .v) then (e.start.toNat : Int) + i * (e.pitch.toNat : Int) + k
      else (e.start.toNat : Int) + i + k * (e.pitch.toNat : Int)) := by
  unfold EdgeJob.addr
  cases e.dir with
  | h => exact congrArg (BitVec.ofInt 32) (Int.add_right_comm _ _ _)
  | v => rfl

/-- The footprint of an edge (R225, R226). -/
theorem EdgeJob.mem_footprint_iff_touches {e : EdgeJob} {a : Addr} :
    a ∈ e.footprint ↔
      EdgeTouches a (decide (e.dir = .v)) (decide (e.kind = .simple)) e.start.toNat e.pitch.toNat e.count := by
  simp only [EdgeJob.mem_footprint, EdgeTouches, mem_readOffsets, e.addr_eq, eq_comm (a := a)]

/-- The kind of an edge by KIND (R228). -/
theorem edgeKindOf_simple : ∀ kind : BitVec 2, kind ≠ 3#2 →
    (edgeKindOf kind).map (fun k => decide (k = .simple)) = some (decide (kind = 2#2)) := by decide

/-- The footprint of LF_EDGE (R226, R228). -/
theorem State.mem_lfEdgeFootprint {s : State} {dir : Bool} {kind : BitVec 2} {cnt : Bool} {a : Addr} :
    a ∈ s.footprintOf (.lfEdge dir kind cnt) ↔ s.Touches a (.lfEdge dir kind cnt) := by
  by_cases hkind : kind = 3#2
  · subst hkind
    exact ⟨fun ha => absurd ha List.not_mem_nil, fun ⟨hne, _⟩ => absurd rfl hne⟩
  · obtain ⟨k, hk, hsimple⟩ := Option.map_eq_some_iff.1 (edgeKindOf_simple kind hkind)
    have hdir : decide (edgeDirOf dir = .v) = dir := by cases dir <;> rfl
    simp only [State.footprintOf, State.lfEdgeJob, hk, Option.map_some, Option.getD_some,
      EdgeJob.mem_footprint_iff_touches, hsimple, hdir]
    exact (and_iff_right hkind).symm

/-- The footprint of each command is what its rule gives (R76, R146, R182 to R184, R187, R208, R226, R230). -/
theorem State.mem_footprintOf {s : State} {i : Instr} {a : Addr} : a ∈ s.footprintOf i ↔ s.Touches a i := by
  cases i with
  | bdInit =>
    refine mem_rowAddrs.trans ?_
    rw [Int.zero_add]; rfl
  | idctAdd | idctDcAdd | idctAutoAdd => exact State.mem_addBlockFootprint
  | intraB4 | intraY16 | intraUv8 => exact State.mem_intraFootprint
  | aboveRightCopy =>
    exact List.mem_append.trans (or_congr State.mem_aboveRightSource State.mem_aboveRightDest)
  | mcPred => exact State.mem_mcFootprint
  | lfMb seg ref mode skip top leftMb =>
    simp only [State.footprintOf, State.Touches, List.mem_flatMap, EdgeJob.mem_footprint_iff_touches]
  | lfEdge => exact State.mem_lfEdgeFootprint
  | nop | bdBool | bdLiteral | treeRead | dequant | iwht | iwhtDc | iwhtAuto | coefClear | lfFrameInit =>
    exact List.mem_nil_iff a

/-- Settles O23: the failure of a command by which of its two checks fails, the footprints command by command, and no step
changes the parameters. -/
theorem unadmittedFootprintFails : Obligations.UnadmittedFootprintFails := by
  refine ⟨fun i s hfields hbad => ?_, fun i s a => State.mem_footprintOf, fun s t ht a => ?_⟩
  · cases hfits : s.bufferWraps i with
    | true => exact exec_of_bufferWraps hfits
    | false =>
      obtain ⟨a, ha, hno⟩ := hbad.resolve_right (by simp [hfits])
      exact exec_of_not_admitted hfields hfits ha hno
  · rw [State.admits, State.admits, step_params ht]

end Sys2Proof.Machine

namespace Sys2Proof

/-! ## The opcode map, read from an opcode to its byte, its row and its words -/

/-- The byte that spells an opcode (R84). -/
def Opcode.byte : Opcode → BitVec 8
  | .nop => 0x00#8
  | .bdInit => 0x01#8
  | .bdBool => 0x02#8
  | .bdLiteral => 0x03#8
  | .treeRead => 0x10#8
  | .dequant => 0x20#8
  | .iwht => 0x21#8
  | .iwhtDc => 0x22#8
  | .iwhtAuto => 0x23#8
  | .idctAdd => 0x24#8
  | .idctDcAdd => 0x25#8
  | .idctAutoAdd => 0x26#8
  | .coefClear => 0x27#8
  | .intraB4 => 0x30#8
  | .intraY16 => 0x31#8
  | .intraUv8 => 0x32#8
  | .aboveRightCopy => 0x33#8
  | .mcPred => 0x40#8
  | .lfFrameInit => 0x50#8
  | .lfMb => 0x51#8
  | .lfEdge => 0x52#8

/-- The opcode of a command (R84). -/
def Instr.opcode : Instr → Opcode
  | .nop => .nop
  | .bdInit => .bdInit
  | .bdBool _ => .bdBool
  | .bdLiteral _ => .bdLiteral
  | .treeRead _ _ => .treeRead
  | .dequant _ => .dequant
  | .iwht => .iwht
  | .iwhtDc => .iwhtDc
  | .iwhtAuto => .iwhtAuto
  | .idctAdd _ => .idctAdd
  | .idctDcAdd _ => .idctDcAdd
  | .idctAutoAdd _ => .idctAutoAdd
  | .coefClear => .coefClear
  | .intraB4 _ => .intraB4
  | .intraY16 _ _ _ => .intraY16
  | .intraUv8 _ _ _ => .intraUv8
  | .aboveRightCopy => .aboveRightCopy
  | .mcPred _ _ => .mcPred
  | .lfFrameInit => .lfFrameInit
  | .lfMb _ _ _ _ _ _ => .lfMb
  | .lfEdge _ _ _ => .lfEdge

/-- The lowest reserved bit of an opcode's words (R81). -/
def Opcode.low (op : Opcode) : Nat := reservedFrom (formatOf op)

/-- w meets the match and the mask of op's row (R84): its opcode byte spells op and its reserved bits are 0. -/
def Opcode.Matches (op : Opcode) (w : Word) : Prop := w.extractLsb' 0 8 = op.byte ∧ w >>> op.low = 0#32

theorem opcodeOf_byte (op : Opcode) : opcodeOf op.byte = some op := by cases op <;> rfl

theorem byte_of_opcodeOf : ∀ b : BitVec 8, ∀ op ∈ opcodeOf b, op.byte = b := by decide

theorem opcodeOf_eq_some_iff {b : BitVec 8} {op : Opcode} : opcodeOf b = some op ↔ b = op.byte := by
  constructor
  · exact fun h => (byte_of_opcodeOf b op h).symm
  · rintro rfl; exact opcodeOf_byte op

/-- A word decodes to the command of the row it matches, and to no other (R80, R84). -/
theorem decode_eq_ok_iff {w : Word} {i : Instr} : decode w = .ok i ↔ ∃ op, Opcode.Matches op w ∧ instrOf op w = i := by
  unfold decode
  constructor
  · intro h
    split at h
    · cases h
    · next op hop =>
      split at h
      · next hres => exact ⟨op, ⟨opcodeOf_eq_some_iff.1 hop, hres⟩, Except.ok.inj h⟩
      · cases h
  · rintro ⟨op, ⟨hbyte, hres⟩, rfl⟩
    rw [hbyte, opcodeOf_byte]
    exact if_pos hres

/-- A legal opcode with a reserved bit set (R86). -/
theorem decode_of_reserved {w : Word} {op : Opcode} (hbyte : w.extractLsb' 0 8 = op.byte) (hres : w >>> op.low ≠ 0#32) :
    decode w = .error .reservedField := by
  unfold decode
  rw [hbyte, opcodeOf_byte]
  exact if_neg hres

theorem decode_of_illegal {w : Word} (h : opcodeOf (w.extractLsb' 0 8) = none) : decode w = .error .illegalOpcode := by
  unfold decode
  rw [h]

/-! ## Encoding -/

theorem ushiftRight_eq_zero_iff (w : Word) (k : Nat) : w >>> k = 0#32 ↔ w.toNat / 2 ^ k = 0 := by
  rw [← BitVec.toNat_inj, BitVec.toNat_ushiftRight, Nat.shiftRight_eq_div_pow]; rfl

/-- The reserved bits as a field of the word. -/
theorem ushiftRight_eq_zero_iff_field (w : Word) {k n : Nat} (hkn : k + n = 32) :
    w >>> k = 0#32 ↔ w.extractLsb' k n = 0#n := by
  have hlt : w.toNat / 2 ^ k < 2 ^ n := by
    rw [Nat.div_lt_iff_lt_mul (Nat.two_pow_pos k), ← Nat.pow_add, Nat.add_comm n k, hkn]; exact w.isLt
  rw [ushiftRight_eq_zero_iff, ← BitVec.toNat_inj (y := 0#n), BitVec.extractLsb'_toNat, Nat.shiftRight_eq_div_pow,
    Nat.mod_eq_of_lt hlt, BitVec.toNat_ofNat, Nat.zero_mod]

theorem reservedFrom_add_sub (fmt : Format) : reservedFrom fmt + (32 - reservedFrom fmt) = 32 := by cases fmt <;> rfl

theorem Opcode.matches_iff_fields {op : Opcode} {w : Word} :
    op.Matches w ↔ w.extractLsb' 0 8 = op.byte ∧ w.extractLsb' op.low (32 - op.low) = 0#(32 - op.low) :=
  and_congr_right fun _ => ushiftRight_eq_zero_iff_field w (reservedFrom_add_sub _)

/-- The low byte of an encoding spells the command's opcode (R80, R90). -/
theorem encode_low_byte (i : Instr) : (encode i).extractLsb' 0 8 = i.opcode.byte := by
  cases i with
  | nop | bdInit | iwht | iwhtDc | iwhtAuto | coefClear | aboveRightCopy | lfFrameInit => rfl
  | _ => exact (BitVec.extractLsb'_append_eq_of_add_le (Nat.le_refl 8)).trans BitVec.extractLsb'_eq_self

/-- The reserved bits of an encoding are 0 (R81, R90). -/
theorem encode_reserved (i : Instr) :
    (encode i).extractLsb' i.opcode.low (32 - i.opcode.low) = 0#(32 - i.opcode.low) := by
  cases i with
  | nop | bdInit | iwht | iwhtDc | iwhtAuto | coefClear | aboveRightCopy | lfFrameInit => rfl
  | _ =>
    simp (disch := decide) only [encode, Instr.opcode, Opcode.low, reservedFrom, formatOf,
      BitVec.extractLsb'_append_eq_of_le, Nat.reduceSub, BitVec.extractLsb'_eq_self, Nat.sub_self]

theorem matches_encode (i : Instr) : i.opcode.Matches (encode i) :=
  Opcode.matches_iff_fields.2 ⟨encode_low_byte i, encode_reserved i⟩

/-- Each field of a command stands in its encoding where the decoder reads it (R81, R82, R90). -/
theorem instrOf_encode (i : Instr) : instrOf i.opcode (encode i) = i := by
  cases i with
  | nop | bdInit | iwht | iwhtDc | iwhtAuto | coefClear | aboveRightCopy | lfFrameInit => rfl
  | _ =>
    simp (disch := decide) only [encode, Instr.opcode, instrOf, BitVec.extractLsb'_append_eq_of_le,
      BitVec.extractLsb'_append_eq_of_add_le, BitVec.extractLsb'_eq_self, BitVec.getLsbD_append, BitVec.getLsbD_ofBool,
      Nat.reduceLT, Nat.reduceSub, Nat.sub_self, if_true, if_false, decide_true, Bool.true_and]

/-- Settles O1: an encoding matches the row of its command, and the decoder reads each field where it stands. -/
theorem decodeEncodeRoundTrip : Obligations.DecodeEncodeRoundTrip := fun i =>
  decode_eq_ok_iff.2 ⟨i.opcode, matches_encode i, instrOf_encode i⟩

/-- The word of format fmt with opcode byte b, the other fields as in w, and the reserved bits 0 (R81). -/
def Format.pattern (fmt : Format) (w : Word) (b : BitVec 8) : Word :=
  match fmt with
  | .n => 0#24 ++ b
  | .p => 0#16 ++ w.extractLsb' 8 8 ++ b
  | .l => 0#19 ++ w.extractLsb' 8 5 ++ b
  | .t => 0#15 ++ w.extractLsb' 12 5 ++ w.extractLsb' 8 4 ++ b
  | .b => 0#19 ++ w.extractLsb' 8 5 ++ b
  | .i4 => 0#20 ++ w.extractLsb' 8 4 ++ b
  | .i => 0#18 ++ BitVec.ofBool (w.getLsbD 13) ++ BitVec.ofBool (w.getLsbD 12) ++ w.extractLsb' 8 4 ++ b
  | .m => 0#21 ++ BitVec.ofBool (w.getLsbD 10) ++ w.extractLsb' 8 2 ++ b
  | .f => 0#13 ++ BitVec.ofBool (w.getLsbD 18) ++ BitVec.ofBool (w.getLsbD 17) ++ BitVec.ofBool (w.getLsbD 16) ++
      w.extractLsb' 12 4 ++ w.extractLsb' 10 2 ++ w.extractLsb' 8 2 ++ b
  | .e => 0#20 ++ BitVec.ofBool (w.getLsbD 11) ++ w.extractLsb' 9 2 ++ BitVec.ofBool (w.getLsbD 8) ++ b

/-- Encoding what the decoder reads puts each field back at its place (R82, R90). -/
theorem encode_instrOf (op : Opcode) (w : Word) : encode (instrOf op w) = (formatOf op).pattern w op.byte := by
  cases op <;> rfl

theorem ofBool_getLsbD (w : Word) (k : Nat) : BitVec.ofBool (w.getLsbD k) = w.extractLsb' k 1 := by
  refine BitVec.eq_of_getLsbD_eq fun j hj => ?_
  obtain rfl : j = 0 := by omega
  simp

/-- The fields of each format, with the opcode byte and the reserved bits, are all bits of the word (R81). -/
theorem Format.pattern_eq_self (fmt : Format) {w : Word} {b : BitVec 8} (hbyte : w.extractLsb' 0 8 = b)
    (hres : w.extractLsb' (reservedFrom fmt) (32 - reservedFrom fmt) = 0#(32 - reservedFrom fmt)) :
    fmt.pattern w b = w := by
  subst hbyte
  cases fmt
  all_goals
    simp only [reservedFrom, Nat.reduceSub] at hres
    simp only [Format.pattern, ofBool_getLsbD, ← hres]
    repeat rw [BitVec.extractLsb'_append_extractLsb'_eq_extractLsb' (by rfl)]
    exact BitVec.extractLsb'_eq_self

/-- Settles O2: a decoded word is the pattern of its format. -/
theorem encodeDecodeRoundTrip : Obligations.EncodeDecodeRoundTrip := by
  intro w i h
  obtain ⟨op, hmatch, rfl⟩ := decode_eq_ok_iff.1 h
  obtain ⟨hbyte, hres⟩ := Opcode.matches_iff_fields.1 hmatch
  exact (encode_instrOf op w).trans ((formatOf op).pattern_eq_self hbyte hres)

/-! ## The rows of the opcode map -/

/-- All opcodes, in the order of the opcode map. -/
def Opcode.all : List Opcode :=
  [.nop, .bdInit, .bdBool, .bdLiteral, .treeRead, .dequant, .iwht, .iwhtDc, .iwhtAuto, .idctAdd, .idctDcAdd,
   .idctAutoAdd, .coefClear, .intraB4, .intraY16, .intraUv8, .aboveRightCopy, .mcPred, .lfFrameInit, .lfMb, .lfEdge]

theorem Opcode.mem_all (op : Opcode) : op ∈ Opcode.all := by cases op <;> decide

/-- The mnemonic of an opcode's commands. -/
def Opcode.mnemonic (op : Opcode) : String := (instrOf op 0#32).mnemonic

theorem mnemonic_instrOf (op : Opcode) (w : Word) : (instrOf op w).mnemonic = op.mnemonic := by cases op <;> rfl

/-- The row of an opcode (R81, R84). -/
def Opcode.row (op : Opcode) : Nat × String × Nat := (op.byte.toNat, op.mnemonic, op.low)

theorem opcodeRows_eq : opcodeRows = Opcode.all.map Opcode.row := by decide

theorem mem_opcodeRows_iff {r : Nat × String × Nat} : r ∈ opcodeRows ↔ ∃ op : Opcode, op.row = r := by
  simp [opcodeRows_eq, Opcode.mem_all]

theorem Opcode.mnemonic_injective {a b : Opcode} (h : a.mnemonic = b.mnemonic) : a = b :=
  List.inj_on_of_nodup_map (show (Opcode.all.map Opcode.mnemonic).Nodup by decide) a.mem_all b.mem_all h

theorem opcodeByte_iff {w : Word} {b : BitVec 8} : w.extractLsb' 0 8 = b ↔ w.toNat % 256 = b.toNat := by
  rw [← BitVec.toNat_inj, BitVec.extractLsb'_toNat]; rfl

theorem Opcode.matches_iff_toNat {op : Opcode} {w : Word} :
    op.Matches w ↔ w.toNat % 256 = op.byte.toNat ∧ w.toNat / 2 ^ op.low = 0 :=
  and_congr opcodeByte_iff (ushiftRight_eq_zero_iff w op.low)

/-- Settles O3: the rows are those of the opcodes, and no two opcodes share a mnemonic. -/
theorem opcodeMapMatchAndMask : Obligations.OpcodeMapMatchAndMask := by
  refine ⟨fun op mnemonic low hrow w => ?_, fun w i hi => ?_⟩
  · obtain ⟨a, ha⟩ := mem_opcodeRows_iff.1 hrow
    cases ha
    rw [← Opcode.matches_iff_toNat]
    constructor
    · exact fun hmatch => ⟨_, decode_eq_ok_iff.2 ⟨a, hmatch, rfl⟩, mnemonic_instrOf a w⟩
    · rintro ⟨i, hi, hname⟩
      obtain ⟨b, hmatch, rfl⟩ := decode_eq_ok_iff.1 hi
      rw [← Opcode.mnemonic_injective ((mnemonic_instrOf b w).symm.trans hname)]
      exact hmatch
  · obtain ⟨a, hmatch, rfl⟩ := decode_eq_ok_iff.1 hi
    obtain ⟨hbyte, hres⟩ := Opcode.matches_iff_toNat.1 hmatch
    exact ⟨_, _, _, mem_opcodeRows_iff.2 ⟨a, rfl⟩, mnemonic_instrOf a w, hbyte, hres⟩

end Sys2Proof

namespace Sys2Proof.Machine

/-! ## Encodings that fail -/

theorem runCommand_of_decode_error {w : Word} {e : CmdError} (h : decode w = .error e) (s : State) :
    runCommand w s = .next (s.fail e) := by
  rw [runCommand, h]; rfl

theorem subModeOf_of_reserved : ∀ mode : BitVec 4, 9 < mode.toNat → subModeOf mode = none := by decide

theorem blockModeOf_of_reserved : ∀ mode : BitVec 4, 3 < mode.toNat → blockModeOf mode = none := by decide

theorem mbModeOf_of_reserved : ∀ mode : BitVec 4, 9 < mode.toNat → mbModeOf mode = none := by decide

theorem edgeKindOf_of_reserved : ∀ kind : BitVec 2, kind.toNat = 3 → edgeKindOf kind = none := by decide

/-- A macroblock mode of the other class than REF (R230). -/
theorem mbModeOf_of_wrongRef : ∀ (ref : BitVec 2) (mode : BitVec 4), ¬ 9 < mode.toNat →
    ((ref.toNat = 0 ∧ 4 < mode.toNat) ∨ (0 < ref.toNat ∧ mode.toNat < 5)) →
    (mbModeOf mode).map (fun md => isIntraMode md != decide (ref = 0#2)) = some true := by decide

theorem romTree_of_reserved : ∀ tree : BitVec 4, 10 ≤ tree.toNat ∧ tree.toNat ≤ 14 → romTree tree.toNat = none := by
  decide

theorem State.treeOf_of_reserved (s : State) {tree : BitVec 4} (h : 10 ≤ tree.toNat ∧ tree.toNat ≤ 14) :
    s.treeOf tree = none := by
  rw [State.treeOf, if_neg (by omega), romTree_of_reserved tree h]

/-- A TREE_READ with illegal fields fails as its rule says (R121). -/
theorem exec_treeRead_of_fieldError {tree : BitVec 4} {start : BitVec 5} {e : CmdError}
    (h : (Instr.treeRead tree start).fieldError = some e) (s : State) :
    exec (.treeRead tree start) s = .next (s.fail e) := by
  show execTreeRead tree start s = _
  obtain ⟨htree, ⟨⟩⟩ | ⟨htree, h⟩ := ite_eq_iff.1 h
  · rw [execTreeRead, s.treeOf_of_reserved htree]; rfl
  · obtain ⟨hstart, ⟨⟩⟩ := Option.ite_none_right_eq_some.1 h
    cases ht : s.treeOf tree with
    | none => exact absurd (State.reserved_of_treeOf_eq_none ht) htree
    | some t =>
      rw [State.length_treeOf ht] at hstart
      rw [execTreeRead, ht]
      exact congrArg (complete s) (if_pos hstart)

/-- An LF_MB with illegal fields fails as its rule says (R230). -/
theorem exec_lfMb_of_fieldError {seg ref : BitVec 2} {mode : BitVec 4} {skip top leftMb : Bool} {e : CmdError}
    (h : (Instr.lfMb seg ref mode skip top leftMb).fieldError = some e) (s : State) :
    exec (.lfMb seg ref mode skip top leftMb) s = .next (s.fail e) := by
  show execLfMb seg ref mode skip top leftMb s = _
  obtain ⟨hmode, ⟨⟩⟩ | ⟨hmode, h⟩ := ite_eq_iff.1 h
  · rw [execLfMb, mbModeOf_of_reserved mode hmode]; rfl
  · obtain ⟨href, ⟨⟩⟩ := Option.ite_none_right_eq_some.1 h
    obtain ⟨md, hmd, hwrong⟩ := Option.map_eq_some_iff.1 (mbModeOf_of_wrongRef ref mode hmode href)
    rw [execLfMb, hmd]
    exact congrArg (complete s) (if_pos hwrong)

theorem State.intraBlock_of_reserved (s : State) (n : Nat) {mode : BitVec 4} (h : 3 < mode.toNat) (up left : Bool) :
    s.intraBlock n mode up left = .error .illegalMode := by
  rw [State.intraBlock, blockModeOf_of_reserved mode h]

/-- A command whose fields alone are in error fails with that error (R86). -/
theorem exec_of_fieldError {i : Instr} {e : CmdError} (h : i.fieldError = some e) (s : State) :
    exec i s = .next (s.fail e) := by
  cases i with
  | nop | bdInit | bdBool | bdLiteral | iwht | iwhtDc | iwhtAuto | coefClear | aboveRightCopy | mcPred | lfFrameInit =>
    cases h
  | treeRead tree start => exact exec_treeRead_of_fieldError h s
  | dequant blk | idctAdd blk | idctDcAdd blk | idctAutoAdd blk =>
    obtain ⟨hblk, ⟨⟩⟩ := Option.ite_none_right_eq_some.1 h
    exact congrArg (complete s) (if_pos hblk)
  | intraB4 mode =>
    obtain ⟨hmode, ⟨⟩⟩ := Option.ite_none_right_eq_some.1 h
    show execIntraB4 mode s = _
    rw [execIntraB4, subModeOf_of_reserved mode hmode]; rfl
  | intraY16 mode up left | intraUv8 mode up left =>
    obtain ⟨hmode, ⟨⟩⟩ := Option.ite_none_right_eq_some.1 h
    exact congrArg (complete s) (s.intraBlock_of_reserved _ hmode up left)
  | lfMb seg ref mode skip top leftMb => exact exec_lfMb_of_fieldError h s
  | lfEdge dir kind cnt =>
    obtain ⟨hkind, ⟨⟩⟩ := Option.ite_none_right_eq_some.1 h
    show execLfEdge dir kind cnt s = _
    rw [execLfEdge, State.lfEdgeJob, edgeKindOf_of_reserved kind hkind]; rfl

theorem exec_of_illegalMode {i : Instr} (s : State) (h : i.fieldError = some .illegalMode) :
    exec i s = .next { s with done := true, busy := false, cmdErr := true, errCode := 3#4 } := exec_of_fieldError h s

theorem exec_of_badParam {i : Instr} (s : State) (h : i.fieldError = some .badParam) :
    exec i s = .next { s with done := true, busy := false, cmdErr := true, errCode := 4#4 } := exec_of_fieldError h s

/-- Settles O6: the reserved bits by the decoder, each field clause by the check of the command's fields. -/
theorem reservedEncodingsFail : Obligations.ReservedEncodingsFail := by
  intro s
  refine ⟨fun w op mnemonic low hrow hbyte hres => ?_, fun tree start h10 h14 => ?_, fun mode h => ?_,
    fun seg ref mode skip top leftMb h => ?_, fun mode up left h => ⟨?_, ?_⟩, fun dir cnt => ?_,
    fun tree start t ht hstart => ?_, fun blk h => ?_, fun blk h => ⟨?_, ?_, ?_⟩,
    fun seg ref mode skip top leftMb h9 href => ?_⟩
  · obtain ⟨a, ha⟩ := mem_opcodeRows_iff.1 hrow
    cases ha
    exact runCommand_of_decode_error
      (decode_of_reserved (opcodeByte_iff.2 hbyte) (mt (ushiftRight_eq_zero_iff w a.low).1 hres)) s
  · exact exec_of_illegalMode s (if_pos ⟨h10, h14⟩)
  · exact exec_of_illegalMode s (if_pos h)
  · exact exec_of_illegalMode s (if_pos h)
  · exact exec_of_illegalMode s (if_pos h)
  · exact exec_of_illegalMode s (if_pos h)
  · exact exec_of_illegalMode s rfl
  · have hlegal : ¬ (10 ≤ tree.toNat ∧ tree.toNat ≤ 14) := fun h => by
      rw [s.treeOf_of_reserved h] at ht; cases ht
    have hlen : (treeLen tree).getD 0 = t.length := by rw [State.length_treeOf ht]; rfl
    exact exec_of_badParam s ((if_neg hlegal).trans (if_pos (by rwa [hlen])))
  · exact exec_of_badParam s (if_pos h)
  · exact exec_of_badParam s (if_pos h)
  · exact exec_of_badParam s (if_pos h)
  · exact exec_of_badParam s (if_pos h)
  · have hwrong : (ref.toNat = 0 ∧ 4 < mode.toNat) ∨ (0 < ref.toNat ∧ mode.toNat < 5) := by
      bv_omega
    exact exec_of_badParam s ((if_neg (Nat.not_lt.2 h9)).trans (if_pos hwrong))

/-- Settles O4: each word by running the decoder on it. -/
theorem sampleWordsDecode : Obligations.SampleWordsDecode :=
  ⟨rfl, rfl, rfl, rfl, rfl, rfl, rfl, rfl, rfl, rfl, rfl, rfl, rfl, rfl⟩

/-- The 235 values outside the map (R85). -/
theorem opcodeOf_of_illegal : ∀ b : BitVec 8,
    ((0x04 ≤ b.toNat ∧ b.toNat ≤ 0x0F) ∨ (0x11 ≤ b.toNat ∧ b.toNat ≤ 0x1F) ∨ (0x28 ≤ b.toNat ∧ b.toNat ≤ 0x2F) ∨
      (0x34 ≤ b.toNat ∧ b.toNat ≤ 0x3F) ∨ (0x41 ≤ b.toNat ∧ b.toNat ≤ 0x4F) ∨ 0x53 ≤ b.toNat) →
    opcodeOf b = none := by
  decide

/-- Settles O5: the decoder's error, and the failure of the command it raises. -/
theorem illegalOpcodesFail : Obligations.IllegalOpcodesFail := by
  intro w s hop
  have hbyte : w.toNat % 256 = (w.extractLsb' 0 8).toNat := opcodeByte_iff.1 rfl
  rw [hbyte] at hop
  have herr : decode w = .error .illegalOpcode := decode_of_illegal (opcodeOf_of_illegal _ hop)
  exact ⟨fun i hi => (by cases herr.symm.trans hi), runCommand_of_decode_error herr s⟩

end Sys2Proof.Machine

namespace Sys2Proof.Machine

/-! ## NORM -/

/-- NORM of a number of k + 1 bits (R100). -/
theorem norm_of_bits {r k : Nat} (hk : k ≤ 7) (hlo : 2 ^ k ≤ r) (hhi : r < 2 ^ (k + 1)) : norm r = 7 - k := by
  unfold norm
  interval_cases k <;> split_ifs <;> omega

/-- Settles O27: a range of k + 1 bits, for its logarithm k and for the eight values of k. -/
theorem normTable : Obligations.NormTable := by
  refine ⟨rfl, fun r h1 h255 => ?_, fun r => ?_⟩
  · have hne : r ≠ 0 := by omega
    have hlog : r.log2 < 8 := (Nat.log2_lt hne).2 (by omega)
    exact norm_of_bits (by omega) (Nat.log2_self_le hne) Nat.lt_log2_self
  · refine ⟨fun h => norm_of_bits (k := 0) ?_ ?_ ?_, fun h => norm_of_bits (k := 1) ?_ ?_ ?_,
      fun h => norm_of_bits (k := 2) ?_ ?_ ?_, fun h => norm_of_bits (k := 3) ?_ ?_ ?_,
      fun h => norm_of_bits (k := 4) ?_ ?_ ?_, fun h => norm_of_bits (k := 5) ?_ ?_ ?_,
      fun h => norm_of_bits (k := 6) ?_ ?_ ?_, fun h => norm_of_bits (k := 7) ?_ ?_ ?_⟩ <;> omega

/-! ## The decoding commands once BD_READY -/

/-- BD_BOOL once BD_READY (R103). -/
theorem exec_bdBool_ready {s : State} (h : s.bdReady = true) (p : Byte) :
    exec (.bdBool p) s = .next { s with
      res0 := BitVec.ofNat 32 (decodeBool s.params.vs s.mem p s.bd).1, bd := (decodeBool s.params.vs s.mem p s.bd).2,
      done := true, busy := false } := by
  show execBdBool p s = _
  rw [execBdBool, if_pos h]
  rfl

/-- BD_LITERAL once BD_READY (R104). -/
theorem exec_bdLiteral_ready {s : State} (h : s.bdReady = true) (k : BitVec 5) :
    exec (.bdLiteral k) s = .next { s with
      res0 := BitVec.ofNat 32 (decodeLiteral s.params.vs s.mem k.toNat s.bd).1
      bd := (decodeLiteral s.params.vs s.mem k.toNat s.bd).2, done := true, busy := false } := by
  show execBdLiteral k s = _
  rw [execBdLiteral, if_pos h]
  rfl

/-- Settles O34: the arm of BD_BOOL once BD_READY. -/
theorem bdBoolDecodes : Obligations.BdBoolDecodes := fun p _ h => exec_bdBool_ready h p

/-! ## What a refill loads -/

/-- Settles O29: the bytes it loads are refillLoad's, its registers refill_registers', its bits the loop's. -/
theorem refillLoadsExactly : Obligations.RefillLoadsExactly := by
  intro vs m bd hpos hstop hlo hcount
  refine ⟨refillLoad vs bd, ?_⟩
  intro shift left z
  have hshift : shift = refillShift vs bd := by cases vs <;> rfl
  have hleft : left = refillBitsLeft bd := Int.mul_comm _ _
  obtain ⟨hrange, hend, hz, hle, hzc, hcap, hends, hruns⟩ := refill_registers vs m bd hpos hstop hcount hlo
  have hvs := vsBits_cases vs
  have hsh : refillShift vs bd = vsBits vs - 16 - bd.count.toInt := by
    simp only [refillShift]
    omega
  refine ⟨fun hmore => ?_, fun hrest => ?_, hz, hend, hrange, ?_, fun k => ?_⟩
  · rw [hshift, hleft] at hmore
    have he : refillEnds vs bd = false := decide_eq_false (by omega)
    refine ⟨?_, (hruns he).1, by simpa [he] using hzc⟩
    rw [refillLoad, if_pos hmore, hshift]
    omega
  · rw [hshift, hleft] at hrest
    have he : refillEnds vs bd = true := decide_eq_true hrest
    have hall := hends he
    exact ⟨by omega, by simpa [he, Config.lotsOfBits] using hzc⟩
  · have hsentinel : (if refillEnds vs bd then Config.lotsOfBits else 0) ≤ 0x40000000 := by
      split <;> decide
    have hbound : z.count.toInt ≤ 0x40000000 + vsBits vs := by
      simp only [z]
      omega
    cases vs <;> exact hbound
  · have hbits : z.value.getLsbD k = (bd.value.getLsbD k || (List.range (refillLoad vs bd)).any fun j =>
        decide (shift - 8 * (j : Int) ≤ k) && (loadedByte m bd j).getLsbD (k - (shift - 8 * (j : Int))).toNat) := by
      simp only [z]
      rw [refill_eq vs m bd hpos hcount hlo, hshift, loadBytes_value_bits]
      · split <;> rfl
      · split <;> exact le_trans hle hstop
      · omega
      · omega
    rw [hbits]
    simp [loadedByte]

/-! ## One decision -/

/-- The interval a decision chooses: the width r of DecodeBool, before its normalisation (R105). -/
def chosenWidth (vs : ValueSize) (m : Memory) (p : Byte) (bd : BoolDecoder) : Int :=
  if (decodeBool vs m p bd).1 = 1 then bd.range.toNat - splitOf bd.range p else splitOf bd.range p

theorem decisionShift_eq (vs : ValueSize) (m : Memory) (p : Byte) (bd : BoolDecoder) :
    decisionShift vs m p bd = norm (chosenWidth vs m p bd).toNat := rfl

/-- The range a decision leaves is the chosen interval, normalised; its shift comes off BD_COUNT (R105). -/
theorem decodeBool_normalises {vs : ValueSize} (m : Memory) (p : Byte) {bd : BoolDecoder} (h : DecoderInRange vs bd) :
    (decodeBool vs m p bd).2.range = BitVec.ofInt 8 (chosenWidth vs m p bd * 2 ^ decisionShift vs m p bd) ∧
    (decodeBool vs m p bd).2.count.toInt = (refilled vs m bd).count.toInt - decisionShift vs m p bd ∧
    (decodeBool vs m p bd).2.pos = (refilled vs m bd).pos ∧ (decodeBool vs m p bd).2.stop = bd.stop := by
  obtain ⟨⟨-, -, -, -, -, hhi⟩, hlo, hrange, hstop, -⟩ := refilled_inRange m h
  have hsh : decisionShift vs m p bd ≤ 7 := norm_le _
  have hvs := vsBits_cases vs
  have hcount : (decodeBool vs m p bd).2.count =
      BitVec.ofInt 32 ((refilled vs m bd).count.toInt - decisionShift vs m p bd) := by
    simp [decisionShift, decodeBool_eq, decide1, hrange]
  refine ⟨?_, ?_, rfl, hstop⟩
  · simp [decisionShift, chosenWidth, decodeBool_eq, decide1, hrange]
  · simp only [Config.lotsOfBits] at hhi
    rw [hcount, toInt_ofInt_32] <;> omega

/-- What a decision leaves, in natural numbers: the bit, the interval of width r normalised, and the value left in it
(R105). -/
def Leaves (vs : ValueSize) (full : BoolDecoder) (d : Nat × BoolDecoder) (bit r value : Nat) : Prop :=
  d.1 = bit ∧ 1 ≤ r ∧ d.2.range.toNat = r * 2 ^ norm r ∧ 128 ≤ r * 2 ^ norm r ∧ r * 2 ^ norm r ≤ 255 ∧
    d.2.value.toNat = value * 2 ^ norm r % 2 ^ vsBits vs ∧ d.2.count.toInt = full.count.toInt - norm r ∧
    d.2.pos = full.pos ∧ d.2.stop = full.stop

/-- A decision on a decoder in its ranges (R105). -/
theorem decodeBool_leaves {vs : ValueSize} (m : Memory) {p : Byte} {bd : BoolDecoder} (h : DecoderInRange vs bd)
    {split : Nat} (hsplit : splitOf bd.range p = split) {full : BoolDecoder} (hfull : refilled vs m bd = full) :
    (split * 2 ^ (vsBits vs - 8) ≤ full.value.toNat →
      Leaves vs full (decodeBool vs m p bd) 1 (bd.range.toNat - split)
        (full.value.toNat - split * 2 ^ (vsBits vs - 8))) ∧
    (full.value.toNat < split * 2 ^ (vsBits vs - 8) →
      Leaves vs full (decodeBool vs m p bd) 0 split full.value.toNat) := by
  obtain ⟨hin, hcount, hrange, -, -⟩ := refilled_inRange m h
  obtain ⟨hs1, hs2⟩ := splitOf_bounds bd.range p h.1
  rw [hsplit] at hs1 hs2
  rw [hfull] at hin hcount hrange
  obtain ⟨d1, d2, d3, d4, d5, d6, d7, d8⟩ := decide1_spec hin hcount hs1 (by rw [hrange]; exact hs2)
  have hd : decodeBool vs m p bd = decide1 vs split full := by rw [decodeBool_eq, hsplit, hfull]
  rw [hrange] at d2 d3 d4 d7 d8
  rw [hd]
  have hwidth : (bd.range.toNat : Int) - split = (bd.range.toNat - split : Nat) := by omega
  constructor
  · intro hle
    have hle' : (split : Int) * 2 ^ (vsBits vs - 8) ≤ full.value.toNat := by exact_mod_cast hle
    simp only [if_pos hle', hwidth, Int.toNat_natCast] at d1 d2 d3 d4 d7 d8
    obtain ⟨hn1, hn2, -⟩ := norm_spec (bd.range.toNat - split) (by omega) (by omega)
    refine ⟨d1, by omega, by exact_mod_cast d2, hn1, by omega, ?_, d4, d5, d6⟩
    zify [hle]
    exact d3
  · intro hlt
    have hlt' : ¬ (split : Int) * 2 ^ (vsBits vs - 8) ≤ full.value.toNat := by
      rw [not_le]
      exact_mod_cast hlt
    simp only [if_neg hlt', Int.toNat_natCast] at d1 d2 d3 d4 d7 d8
    obtain ⟨hn1, hn2, -⟩ := norm_spec split (by omega) (by omega)
    exact ⟨d1, by omega, by exact_mod_cast d2, hn1, by omega, by exact_mod_cast d3, d4, d5, d6⟩

/-- The split as a natural number (R105). -/
theorem toNat_splitOf {range : Byte} (h : 128 ≤ range.toNat) (p : Byte) :
    (splitOf range p).toNat = 1 + (range.toNat - 1) * p.toNat / 256 := by
  have hcast : splitOf range p = (1 + (range.toNat - 1) * p.toNat / 256 : Nat) := by
    rw [splitOf, shr]
    push_cast [Nat.cast_sub (show 1 ≤ range.toNat by omega)]
    rfl
  rw [hcast, Int.toNat_natCast]

/-- Settles O30: the split's bounds, and what the decision leaves on either side of it. -/
theorem decodeBoolDecides : Obligations.DecodeBoolDecides := by
  intro vs m p bd h
  obtain ⟨hs1, hs2⟩ := splitOf_bounds bd.range p h.1
  obtain ⟨-, -, hrange, -, -⟩ := refilled_inRange m h
  have hsplit : splitOf bd.range p = (splitOf bd.range p).toNat := by omega
  obtain ⟨hge, hlt⟩ := decodeBool_leaves m h hsplit rfl
  refine ⟨_, toNat_splitOf h.1 p, by omega, by omega, refilled vs m bd, rfl, hrange, ?_⟩
  cases vs <;> exact ⟨hge, hlt⟩

/-! ## Decisions read the unread stream alone -/

/-- Two memories hold the same unread bytes of the decoder's stream. -/
def SameUnread (m m' : Memory) (bd : BoolDecoder) : Prop :=
  ∀ a : Addr, bd.pos.toNat ≤ a.toNat → a.toNat < bd.stop.toNat → Memory.read m a = Memory.read m' a

theorem SameUnread.follows {vs : ValueSize} {m m' : Memory} {bd bd' : BoolDecoder} (h : SameUnread m m' bd)
    (hf : Follows vs bd bd') : SameUnread m m' bd' := fun a hlo hhi =>
  h a (le_trans hf.pos hlo) (by rwa [← hf.stop])

theorem decodeLiteral_congr {vs : ValueSize} {m m' : Memory} (k : Nat) {bd : BoolDecoder} (h : DecoderInRange vs bd)
    (hm : SameUnread m m' bd) : decodeLiteral vs m k bd = decodeLiteral vs m' k bd := by
  induction k generalizing bd with
  | zero => rfl
  | succ k ih =>
    have hf := follows_decodeBool m 128#8 h
    have hrest := ih hf.inRange (hm.follows hf)
    simp only [decodeLiteral, hrest, ← decodeBool_congr m m' 128#8 h hm]

theorem treeWalk_congr {vs : ValueSize} {m m' : Memory} (probAt : Nat → Byte) (t : List Int) (steps i : Nat)
    {bd : BoolDecoder} (h : DecoderInRange vs bd) (hm : SameUnread m m' bd) :
    treeWalk vs m probAt t steps i bd = treeWalk vs m' probAt t steps i bd := by
  induction steps generalizing i bd with
  | zero => rfl
  | succ steps ih =>
    have hf := follows_decodeBool m (probAt (i / 2)) h
    have hrest := fun j => ih j hf.inRange (hm.follows hf)
    simp only [treeWalk, hrest, ← decodeBool_congr m m' (probAt (i / 2)) h hm]

/-- The command fails alike in both states, or leaves them the same decoder and the same result. -/
def EndsAlike (i : Instr) (s u : State) : Prop :=
  (∃ e : CmdError, exec i s = .next (s.fail e) ∧ exec i u = .next (u.fail e)) ∨
  ∃ (bd : BoolDecoder) (x : Word), exec i s = .next { s with bd := bd, res0 := x, done := true, busy := false } ∧
    exec i u = .next { u with bd := bd, res0 := x, done := true, busy := false }

section
variable {s u : State} (hin : DecoderInRange s.params.vs s.bd) (hvs : u.params.vs = s.params.vs) (hbd : u.bd = s.bd)
  (hready : u.bdReady = s.bdReady) (hmem : SameUnread s.mem u.mem s.bd)
include hin hvs hbd hready hmem

theorem endsAlike_bdBool (p : Byte) : EndsAlike (.bdBool p) s u := by
  cases hs : s.bdReady with
  | false => exact .inl ⟨_, exec_bdBool_notReady hs p, exec_bdBool_notReady (hready.trans hs) p⟩
  | true =>
    refine .inr ⟨_, _, exec_bdBool_ready hs p, ?_⟩
    rw [exec_bdBool_ready (hready.trans hs), hvs, hbd, decodeBool_congr s.mem u.mem p hin hmem]

theorem endsAlike_bdLiteral (k : BitVec 5) : EndsAlike (.bdLiteral k) s u := by
  cases hs : s.bdReady with
  | false => exact .inl ⟨_, exec_bdLiteral_notReady hs k, exec_bdLiteral_notReady (hready.trans hs) k⟩
  | true =>
    refine .inr ⟨_, _, exec_bdLiteral_ready hs k, ?_⟩
    rw [exec_bdLiteral_ready (hready.trans hs), hvs, hbd, decodeLiteral_congr k.toNat hin hmem]

theorem endsAlike_treeRead (hprob : u.prob = s.prob) (htree : u.treeRam = s.treeRam) (tree : BitVec 4)
    (start : BitVec 5) : EndsAlike (.treeRead tree start) s u := by
  have htreeOf : u.treeOf tree = s.treeOf tree := by simp only [State.treeOf, State.treeRamList, htree]
  have hprobAt : u.probAt = s.probAt := by funext k; simp only [State.probAt, hprob]
  simp only [EndsAlike, exec, execTreeRead, htreeOf, hready, hprobAt, hvs, hbd,
    ← treeWalk_congr s.probAt _ Config.maxTreeSteps start.toNat hin hmem]
  cases s.treeOf tree with
  | none => exact .inl ⟨_, rfl, rfl⟩
  | some t =>
    simp only
    split_ifs
    · exact .inl ⟨_, rfl, rfl⟩
    · cases treeWalk s.params.vs s.mem s.probAt t Config.maxTreeSteps start.toNat s.bd with
      | ok z => exact .inr ⟨z.2, BitVec.ofNat 32 z.1, rfl, rfl⟩
      | error e => exact .inl ⟨e, rfl, rfl⟩
    · exact .inl ⟨_, rfl, rfl⟩

end

/-- Settles O31: the three decoding commands end alike. -/
theorem decodingReadsOnlyTheStream : Obligations.DecodingReadsOnlyTheStream := by
  intro i s u hdec hin hvs hbd hready hprob htree hres herr hcode hmem
  have hm : SameUnread s.mem u.mem s.bd := fun a hlo hhi => (hmem a hlo hhi).symm
  have halike : EndsAlike i s u := by
    cases i with
    | bdBool p => exact endsAlike_bdBool hin hvs hbd hready hm p
    | bdLiteral k => exact endsAlike_bdLiteral hin hvs hbd hready hm k
    | treeRead tree start => exact endsAlike_treeRead hin hvs hbd hready hm hprob htree tree start
    | _ => cases hdec
  obtain ⟨e, hs, hu⟩ | ⟨bd, x, hs, hu⟩ := halike
  · exact ⟨_, _, hs, hu, hres, hbd, rfl, rfl, rfl, rfl⟩
  · exact ⟨_, _, hs, hu, rfl, rfl, herr, hcode, rfl, rfl⟩

/-! ## Runs of decisions -/

theorem length_decisions (vs : ValueSize) (m : Memory) (ps : List Byte) (bd : BoolDecoder) :
    (decisions vs m ps bd).1.length = ps.length := by
  induction ps generalizing bd with
  | nil => rfl
  | cons p ps ih => exact congrArg Nat.succ (ih _)

theorem decisions_bits (vs : ValueSize) (m : Memory) (ps : List Byte) (bd : BoolDecoder) :
    ∀ b ∈ (decisions vs m ps bd).1, b = 0 ∨ b = 1 := by
  induction ps generalizing bd with
  | nil => exact fun b hb => absurd hb List.not_mem_nil
  | cons p ps ih =>
    intro b hb
    obtain rfl | hb := List.mem_cons.1 hb
    · exact decodeBool_bit vs m p bd
    · exact ih _ b hb

/-- BD_BOOL commands make the decisions of their probabilities, one after another. -/
theorem runBools_eq_decisions (ps : List Byte) {s : State} (h : s.bdReady = true) :
    ∃ u, runBools ps s = some ((decisions s.params.vs s.mem ps s.bd).1.map (BitVec.ofNat 32), u) ∧
      u.bd = (decisions s.params.vs s.mem ps s.bd).2.2 := by
  induction ps generalizing s with
  | nil => exact ⟨s, rfl, rfl⟩
  | cons p ps ih =>
    obtain ⟨u, hu, hbd⟩ := @ih { s with
      res0 := BitVec.ofNat 32 (decodeBool s.params.vs s.mem p s.bd).1, bd := (decodeBool s.params.vs s.mem p s.bd).2,
      done := true, busy := false } h
    refine ⟨u, ?_, hbd⟩
    simp only [runBools, exec_bdBool_ready h, hu]
    rfl

/-! ## Literals -/

/-- The first bit is the most significant (R104). -/
theorem msbFirst_cons (b : Word) (bits : List Word) :
    msbFirst (b :: bits) = b.toNat * 2 ^ bits.length + msbFirst bits := by
  have hacc : ∀ z : Nat, bits.foldl (fun z b => 2 * z + b.toNat) z = z * 2 ^ bits.length + msbFirst bits := by
    induction bits with
    | nil => simp [msbFirst]
    | cons c bits ih =>
      intro z
      have hfirst : msbFirst (c :: bits) = (2 * 0 + c.toNat) * 2 ^ bits.length + msbFirst bits := ih _
      rw [List.foldl_cons, ih, hfirst, List.length_cons]
      ring
  rw [msbFirst, List.foldl_cons, hacc]
  simp

theorem toNat_ofNat_bit {b : Nat} (h : b = 0 ∨ b = 1) : (BitVec.ofNat 32 b).toNat = b := by
  obtain rfl | rfl := h <;> rfl

/-- A literal is its decisions of probability 128, the bits most significant first (R104). -/
theorem decodeLiteral_eq_decisions (vs : ValueSize) (m : Memory) (k : Nat) (bd : BoolDecoder) :
    (decodeLiteral vs m k bd).1 = msbFirst ((decisions vs m (List.replicate k 128#8) bd).1.map (BitVec.ofNat 32)) ∧
    (decodeLiteral vs m k bd).2 = (decisions vs m (List.replicate k 128#8) bd).2.2 := by
  induction k generalizing bd with
  | zero => exact ⟨rfl, rfl⟩
  | succ k ih =>
    obtain ⟨hvalue, hbd⟩ := ih (decodeBool vs m 128#8 bd).2
    refine ⟨?_, hbd⟩
    simp only [decodeLiteral, List.replicate_succ, decisions, List.map_cons, msbFirst_cons, List.length_map,
      length_decisions, List.length_replicate, toNat_ofNat_bit (decodeBool_bit vs m 128#8 bd), hvalue]

/-- Settles O35: the literal as a run of BD_BOOL commands. -/
theorem literalIsBoolCommands : Obligations.LiteralIsBoolCommands := by
  intro k s h
  obtain ⟨u, hrun, hu⟩ := runBools_eq_decisions (List.replicate k.toNat 128#8) h
  obtain ⟨hvalue, hbd⟩ := decodeLiteral_eq_decisions s.params.vs s.mem k.toNat s.bd
  have hlt := decodeLiteral_lt s.params.vs s.mem k.toNat s.bd
  have hword : (BitVec.ofNat 32 (decodeLiteral s.params.vs s.mem k.toNat s.bd).1).toNat =
      (decodeLiteral s.params.vs s.mem k.toNat s.bd).1 := by
    have hpow : 2 ^ k.toNat ≤ 2 ^ 32 := Nat.pow_le_pow_right (by omega) (by have := k.isLt; omega)
    exact Nat.mod_eq_of_lt (lt_of_lt_of_le hlt hpow)
  refine ⟨_, u, _, hrun, exec_bdLiteral_ready h k, ?_, ?_, ?_, ?_, ?_⟩
  · rw [hu, ← hbd]
  · rw [hword, hvalue]
  · rw [hword]; exact hlt
  · rw [List.length_map, length_decisions, List.length_replicate]
  · intro b hb
    obtain ⟨c, hc, rfl⟩ := List.mem_map.1 hb
    obtain rfl | rfl := decisions_bits _ _ _ _ c hc
    · exact .inl rfl
    · exact .inr rfl

/-! ## BD_INIT -/

/-- The first refill loads the bytes of the register's width, or the buffer where it is shorter (R101, R102). -/
theorem refillLoad_bdStart (vs : ValueSize) {a n : Nat} (h : a + n ≤ 2 ^ 32) :
    refillLoad vs (bdStart a n) = min n (vsBits vs / 8) := by
  have hvs := vsBits_cases vs
  simp only [refillLoad, refillShift, refillBitsLeft, bdStart_pos h, bdStart_stop h, bdStart_count]
  split <;> omega

/-- The sentinel comes with the first refill where the buffer fits the register (R102; log 17). -/
theorem refillEnds_bdStart (vs : ValueSize) {a n : Nat} (h : a + n ≤ 2 ^ 32) :
    refillEnds vs (bdStart a n) = decide (8 * n ≤ vsBits vs) := by
  simp only [refillEnds, refillShift, refillBitsLeft, bdStart_pos h, bdStart_stop h, bdStart_count]
  congr 1
  apply propext
  omega

/-- BD_POS and BD_COUNT after BD_INIT (R101, R102). -/
theorem bdInit_registers (vs : ValueSize) (m : Memory) {a n : Nat} (h : a + n ≤ 2 ^ 32) :
    (refill vs m (bdStart a n)).pos.toNat = a + min n (vsBits vs / 8) ∧
    (refill vs m (bdStart a n)).count.toInt =
      8 * (min n (vsBits vs / 8) : Nat) - 8 + if 8 * n ≤ vsBits vs then 0x40000000 else 0 := by
  have hstart := bdStart_pos h
  have hstop := bdStart_stop h
  have hcount := bdStart_count a n
  obtain ⟨-, -, hpos, -, hc, -⟩ := refill_registers vs m (bdStart a n) (by omega) (by omega) (by omega) (by omega)
  rw [refillLoad_bdStart vs h, hstart] at hpos
  rw [refillLoad_bdStart vs h, refillEnds_bdStart vs h, hcount] at hc
  refine ⟨hpos, ?_⟩
  rw [hc]
  simp only [decide_eq_true_eq, Config.lotsOfBits]
  omega

/-- BD_INIT on an empty buffer loads nothing (R101, corner cases). -/
theorem bdInit_empty_value (vs : ValueSize) (m : Memory) {a : Nat} (h : a + 0 ≤ 2 ^ 32) :
    (refill vs m (bdStart a 0)).value = 0#64 := by
  have hstart := bdStart_pos h
  have hstop := bdStart_stop h
  have hcount := bdStart_count a 0
  rw [refill_eq vs m _ (by omega) (by omega) (by omega), refillLoad_bdStart vs h, Nat.zero_min]
  split <;> rfl

/-- Settles O32: BD_INIT by its completion, the registers by what its first refill loads. -/
theorem bdInitStartsTheStream : Obligations.BdInitStartsTheStream := by
  rintro s a n rfl hn hfit hadm
  subst hn
  have hadm' : ∀ x ∈ s.footprintOf .bdInit, s.admits x = true := fun x hx => by
    obtain ⟨hlo, hhi⟩ := (mem_streamAddrs hfit).1 hx
    exact hadm x hlo hhi
  obtain ⟨hpos, hcount⟩ := bdInit_registers s.params.vs s.mem hfit
  refine ⟨_, exec_bdInit_admitted hfit hadm', rfl, fun hempty => ?_, fun hvs hlong => ?_⟩
  · rw [hempty] at hfit hcount ⊢
    have hcount' : (refill s.params.vs s.mem (bdStart (s.arg 0).toNat 0)).count.toInt = 0x40000000 - 8 := by
      rw [hcount]
      simp
    refine ⟨bdInit_empty_value _ _ hfit, hcount', (bdErrOf_iff _ _).2 ?_⟩
    have := vsBits_cases s.params.vs
    simp only [hcount', Config.lotsOfBits]
    omega
  · have h64 : vsBits s.params.vs = 64 := by rw [hvs]; rfl
    rw [h64] at hpos hcount
    rw [hpos, hcount]
    refine ⟨by omega, ?_⟩
    split_ifs <;> omega

/-- After a BD_INIT that completes, BD_BOOL commands make the decisions of the buffer's decoder. -/
theorem runBools_of_bdInit {s t : State} (hfit : (s.arg 0).toNat + (s.arg 1).toNat ≤ 2 ^ 32)
    (hadm : ∀ a ∈ s.footprintOf .bdInit, s.admits a = true) (ht : exec .bdInit s = .next t) (ps : List Byte) :
    ∃ u, runBools ps t = some ((decisions s.params.vs s.mem ps
      (refill s.params.vs s.mem (bdStart (s.arg 0).toNat (s.arg 1).toNat))).1.map (BitVec.ofNat 32), u) := by
  cases (exec_bdInit_admitted hfit hadm).symm.trans ht
  exact (runBools_eq_decisions ps rfl).imp fun u hu => hu.1

/-! ## The stream behind BD_VALUE -/

/-- At the start of the stream nothing is loaded: its bytes stand below the register, the first byte highest. -/
theorem tracks_bdStart (vs : ValueSize) (m : Memory) {a n : Nat} (h : a + n ≤ 2 ^ 32) :
    Tracks (64 + 8 * n) vs m (bdStart a n) (unread m n a (64 + 8 * n)) := by
  have hpos := bdStart_pos h
  have hstop := bdStart_stop h
  have hvs := vsBits_cases vs
  have hvalue : (bdStart a n).value.toNat = 0 := rfl
  refine ⟨by omega, by omega, by omega, by rw [hvalue]; exact Nat.two_pow_pos _, fun hend => ?_, fun _ => ?_⟩
  · obtain rfl : n = 0 := by omega
    rw [hvalue, Nat.zero_mul, unread]
  · refine ⟨0, bdStart_count a n, by omega, by omega, by rw [hvalue]; exact dvd_zero _, ?_⟩
    rw [hvalue, hpos, hstop, Nat.add_sub_cancel_left, Nat.zero_mul, Nat.zero_add, Nat.sub_zero]

theorem tracks_bdInit (vs : ValueSize) (m : Memory) {a n : Nat} (h : a + n ≤ 2 ^ 32) :
    Tracks (64 + 8 * n) vs m (refill vs m (bdStart a n)) (unread m n a (64 + 8 * n)) := by
  have hcount := bdStart_count a n
  exact (tracks_bdStart vs m h).refill (by omega) (by omega)

/-- A decision on a decoder that tracks X is the ideal decoder's, and it tracks what the ideal decoder then holds. -/
theorem Tracks.decodeBool {L : Nat} {vs : ValueSize} {m : Memory} {bd : BoolDecoder} {X : Nat} (ht : Tracks L vs m bd X)
    (hin : DecoderInRange vs bd) (p : Byte) :
    (decodeBool vs m p bd).1 = idealBit L (splitOf bd.range p).toNat X ∧
    Tracks L vs m (decodeBool vs m p bd).2 (idealNext L (splitOf bd.range p).toNat X (decisionShift vs m p bd)) := by
  obtain ⟨-, hcount, hrange, -, -⟩ := refilled_inRange m hin
  obtain ⟨hnormal, -, -, -, hlo, -⟩ := hin
  obtain ⟨hs1, -⟩ := splitOf_bounds bd.range p hnormal
  have hsplit : ((splitOf bd.range p).toNat : Int) = splitOf bd.range p := by omega
  have hfull : Tracks L vs m (refilled vs m bd) X := by
    unfold refilled
    split
    · next hneg => exact ht.refill hneg (by omega)
    · exact ht
  obtain ⟨hbit, hnext⟩ := hfull.decide hcount (splitOf bd.range p).toNat
  rw [hsplit, ← decodeBool_eq] at hbit
  refine ⟨hbit, ?_⟩
  rw [hsplit, ← decodeBool_eq, ← hbit, hrange] at hnext
  exact hnext

/-! ## An empty stream -/

/-- While nothing but zeros is left of the stream every decision is 0. -/
theorem decisions_of_tracks_zero {L : Nat} {vs : ValueSize} {m : Memory} (ps : List Byte) {bd : BoolDecoder}
    (ht : Tracks L vs m bd 0) (hin : DecoderInRange vs bd) :
    (decisions vs m ps bd).1 = List.replicate ps.length 0 := by
  induction ps generalizing bd with
  | nil => rfl
  | cons p ps ih =>
    obtain ⟨hbit, hnext⟩ := ht.decodeBool hin p
    obtain ⟨hs1, -⟩ := splitOf_bounds bd.range p hin.1
    have hpos : 0 < (splitOf bd.range p).toNat * 2 ^ (L - 8) := Nat.mul_pos (by omega) (Nat.two_pow_pos _)
    rw [idealBit, if_neg (Nat.not_le.2 hpos)] at hbit
    rw [idealNext, if_neg (Nat.not_le.2 hpos), Nat.zero_mul, Nat.zero_mod] at hnext
    simp only [decisions, hbit, ih hnext (decodeBool_inRange m p hin).1, List.length_cons, List.replicate_succ]

/-- Settles O33: an empty buffer leaves the number 0 behind the decoder. -/
theorem emptyBufferDecodesZeros : Obligations.EmptyBufferDecodesZeros := by
  intro s t ps hempty ht
  have hfit : (s.arg 0).toNat + (s.arg 1).toNat ≤ 2 ^ 32 := by
    have := (s.arg 0).isLt
    omega
  have hadm : ∀ x ∈ s.footprintOf .bdInit, s.admits x = true := fun x hx => by
    obtain ⟨hlo, hhi⟩ := (mem_streamAddrs hfit).1 hx
    omega
  have hzero : unread s.mem (s.arg 1).toNat (s.arg 0).toNat (64 + 8 * (s.arg 1).toNat) = 0 := by rw [hempty]; rfl
  have htracks := hzero ▸ tracks_bdInit s.params.vs s.mem hfit
  have hbits := decisions_of_tracks_zero ps htracks (bdInit_inRange s.params.vs s.mem hfit).1
  obtain ⟨u, hu⟩ := runBools_of_bdInit hfit hadm ht ps
  rw [hbits, List.map_replicate] at hu
  cases (exec_bdInit_admitted hfit hadm).symm.trans ht
  exact ⟨rfl, u, hu⟩

/-! ## The decoded bits and VS -/

/-- Two decoders, of any VS, over one stream: the same range, and the same number behind both. -/
structure OneStream (vs vs' : ValueSize) (m : Memory) (bd bd' : BoolDecoder) : Prop where
  inRange : DecoderInRange vs bd
  inRange' : DecoderInRange vs' bd'
  range : bd'.range = bd.range
  tracks : ∃ L X : Nat, Tracks L vs m bd X ∧ Tracks L vs' m bd' X

theorem oneStream_bdInit (vs vs' : ValueSize) (m : Memory) {a n : Nat} (h : a + n ≤ 2 ^ 32) :
    OneStream vs vs' m (refill vs m (bdStart a n)) (refill vs' m (bdStart a n)) := by
  obtain ⟨hin, hrange, -⟩ := bdInit_inRange vs m h
  obtain ⟨hin', hrange', -⟩ := bdInit_inRange vs' m h
  exact ⟨hin, hin', hrange'.trans hrange.symm, _, _, tracks_bdInit vs m h, tracks_bdInit vs' m h⟩

/-- Over one stream both decoders decide alike, and stay over one stream. -/
theorem OneStream.decodeBool {vs vs' : ValueSize} {m : Memory} {bd bd' : BoolDecoder} (h : OneStream vs vs' m bd bd')
    (p : Byte) :
    (decodeBool vs' m p bd').1 = (decodeBool vs m p bd).1 ∧
    OneStream vs vs' m (decodeBool vs m p bd).2 (decodeBool vs' m p bd').2 := by
  obtain ⟨hin, hin', hrange, L, X, ht, ht'⟩ := h
  obtain ⟨hbit, hnext⟩ := ht.decodeBool hin p
  obtain ⟨hbit', hnext'⟩ := ht'.decodeBool hin' p
  rw [hrange] at hbit' hnext'
  have hbits : (Machine.decodeBool vs' m p bd').1 = (Machine.decodeBool vs m p bd).1 := hbit'.trans hbit.symm
  have hwidth : chosenWidth vs' m p bd' = chosenWidth vs m p bd := by simp only [chosenWidth, hbits, hrange]
  have hshift : decisionShift vs' m p bd' = decisionShift vs m p bd := by simp only [decisionShift_eq, hwidth]
  obtain ⟨hr, -⟩ := decodeBool_normalises m p hin
  obtain ⟨hr', -⟩ := decodeBool_normalises m p hin'
  rw [hwidth, hshift] at hr'
  rw [hshift] at hnext'
  exact ⟨hbits, (decodeBool_inRange m p hin).1, (decodeBool_inRange m p hin').1, hr'.trans hr.symm,
    L, _, hnext, hnext'⟩

theorem OneStream.decisions {vs vs' : ValueSize} {m : Memory} (ps : List Byte) {bd bd' : BoolDecoder}
    (h : OneStream vs vs' m bd bd') : (decisions vs' m ps bd').1 = (decisions vs m ps bd).1 := by
  induction ps generalizing bd bd' with
  | nil => rfl
  | cons p ps ih =>
    obtain ⟨hbit, hnext⟩ := h.decodeBool p
    simp only [Machine.decisions, hbit, ih hnext]

/-- Settles O36: the decoders of both VS are over one stream after BD_INIT. -/
theorem decodedBitsDoNotDependOnVs : Obligations.DecodedBitsDoNotDependOnVs := by
  intro s t32 t64 ps hfit hadm h32 h64
  obtain ⟨u32, hu32⟩ := runBools_of_bdInit (s := { s with params := { s.params with vs := .bits32 } })
    hfit hadm h32 ps
  obtain ⟨u64, hu64⟩ := runBools_of_bdInit (s := { s with params := { s.params with vs := .bits64 } })
    hfit hadm h64 ps
  have hsame := (oneStream_bdInit .bits32 .bits64 s.mem hfit).decisions ps
  refine ⟨_, u32, u64, hu32, hu64.trans ?_, ?_⟩
  · exact congrArg (fun bits : List Nat => some (bits.map (BitVec.ofNat 32), u64)) hsame
  · rw [List.length_map, length_decisions]

/-! ## The end of the buffer -/

/-- BD_COUNT after shifts that sum to C over a buffer of n bytes at a: from the whole buffer and the sentinel once the
buffer is read to its end, and from the bytes loaded before that (R106). -/
structure CountsShifts (vs : ValueSize) (a n C : Nat) (bd : BoolDecoder) : Prop where
  stop : bd.stop.toNat = a + n
  start : a ≤ bd.pos.toNat
  ordered : bd.pos.toNat ≤ a + n
  ended : bd.pos.toNat = a + n → bd.count.toInt = 0x40000000 + 8 * n - 8 - C
  running : bd.pos.toNat < a + n →
    bd.count.toInt = 8 * (bd.pos.toNat - a : Nat) - 8 - C ∧ bd.count.toInt ≤ vsBits vs - 8

/-- A refill before the end of the buffer counts the bytes it loads, and the sentinel with the last of them. -/
theorem countsShifts_refill {vs : ValueSize} (m : Memory) {a n C : Nat} {bd : BoolDecoder} (hfit : a + n ≤ 2 ^ 32)
    (hstop : bd.stop.toNat = a + n) (hstart : a ≤ bd.pos.toNat) (hord : bd.pos.toNat ≤ a + n)
    (hlo : -8 ≤ bd.count.toInt) (hneg : bd.count.toInt < 0)
    (hcount : bd.count.toInt = 8 * (bd.pos.toNat - a : Nat) - 8 - C) : CountsShifts vs a n C (refill vs m bd) := by
  obtain ⟨-, hend, hpos, hle, hc, hcap, hends, hruns⟩ :=
    refill_registers vs m bd (by omega) (by omega) hneg hlo
  have hstop' : (refill vs m bd).stop.toNat = a + n := by rw [hend, hstop]
  cases he : refillEnds vs bd with
  | true =>
    have hall := hends he
    simp only [he, if_true, Config.lotsOfBits] at hc
    constructor <;> omega
  | false =>
    obtain ⟨hmore, -⟩ := hruns he
    simp only [he, Bool.false_eq_true, if_false] at hc
    constructor <;> omega

theorem countsShifts_bdInit (vs : ValueSize) (m : Memory) {a n : Nat} (h : a + n ≤ 2 ^ 32) :
    CountsShifts vs a n 0 (refill vs m (bdStart a n)) := by
  have hpos := bdStart_pos h
  have hstop := bdStart_stop h
  have hcount := bdStart_count a n
  exact countsShifts_refill m h hstop (by omega) (by omega) (by omega) (by omega) (by omega)

section
variable {vs : ValueSize} {a n C : Nat} {bd : BoolDecoder} (hfit : a + n ≤ 2 ^ 32) (h : CountsShifts vs a n C bd)
  (hin : DecoderInRange vs bd)
include hfit h hin

/-- BD_COUNT turns negative only before the end of the buffer, while C is far from the sentinel. -/
theorem CountsShifts.refilled (m : Memory) (hC : C < 2 ^ 29) : CountsShifts vs a n C (refilled vs m bd) := by
  unfold Machine.refilled
  split
  · next hneg =>
    have hrunning : bd.pos.toNat < a + n := by
      refine lt_of_le_of_ne h.ordered fun hend => ?_
      have := h.ended hend
      omega
    obtain ⟨hcount, -⟩ := h.running hrunning
    obtain ⟨-, -, -, -, hlo, -⟩ := hin
    exact countsShifts_refill m hfit h.stop h.start h.ordered (by omega) hneg hcount
  · exact h

/-- A decision adds its shift to C. -/
theorem CountsShifts.decodeBool (m : Memory) (p : Byte) (hC : C < 2 ^ 29) :
    CountsShifts vs a n (C + decisionShift vs m p bd) (decodeBool vs m p bd).2 := by
  obtain ⟨hstop, hstart, hord, hended, hrunning⟩ := h.refilled hfit hin m hC
  obtain ⟨-, hcount, hpos, hend⟩ := decodeBool_normalises m p hin
  rw [← hpos] at hstart hord hended hrunning
  refine ⟨by rw [hend]; exact h.stop, hstart, hord, fun he => ?_, fun hr => ?_⟩
  · have := hended he
    omega
  · have := hrunning hr
    omega

end

/-- Decisions add the sum of their shifts to C. -/
theorem CountsShifts.decisions {vs : ValueSize} {a n C : Nat} {bd : BoolDecoder} (hfit : a + n ≤ 2 ^ 32)
    (h : CountsShifts vs a n C bd) (hin : DecoderInRange vs bd) (m : Memory) (ps : List Byte)
    (hC : C + (decisions vs m ps bd).2.1 < 2 ^ 29) :
    CountsShifts vs a n (C + (decisions vs m ps bd).2.1) (decisions vs m ps bd).2.2 ∧
    DecoderInRange vs (decisions vs m ps bd).2.2 := by
  induction ps generalizing C bd with
  | nil => exact ⟨h, hin⟩
  | cons p ps ih =>
    simp only [Machine.decisions, ← Nat.add_assoc] at hC ⊢
    exact ih (h.decodeBool hfit hin m p (by omega)) (decodeBool_inRange m p hin).1 hC

/-- BD_ERR is 1 exactly when more bits are consumed than the register held at the end of the buffer (R106): one decision
past the bound on C is allowed for. -/
theorem CountsShifts.bdErr_iff {vs : ValueSize} {a n C : Nat} {bd : BoolDecoder} (h : CountsShifts vs a n C bd)
    (hin : DecoderInRange vs bd) (hC : C < 2 ^ 29 + 7) : bdErrOf vs bd = true ↔ 8 * (n : Int) - 8 < C := by
  have hvs := vsBits_cases vs
  have hstart := h.start
  obtain ⟨-, -, -, -, hlo, -⟩ := hin
  rw [bdErrOf_iff, Config.lotsOfBits]
  rcases Nat.lt_or_eq_of_le h.ordered with hrunning | hended
  · obtain ⟨hcount, hcap⟩ := h.running hrunning
    omega
  · have hcount := h.ended hended
    omega

/-- Settles O37: the count of the shifts, kept from BD_INIT on, and BD_ERR as a bound on it. -/
theorem endOfBufferIsDetected : Obligations.EndOfBufferIsDetected := by
  intro vs m a n ps p hfit z C bd hC
  obtain ⟨hcounts, hin⟩ : CountsShifts vs a n C bd ∧ DecoderInRange vs bd := by
    have hfrom := (countsShifts_bdInit vs m hfit).decisions hfit (bdInit_inRange vs m hfit).1 m ps
    rw [Nat.zero_add] at hfrom
    exact hfrom hC
  clear_value C bd
  have hnext := hcounts.decodeBool hfit hin m p hC
  have hshift : decisionShift vs m p bd ≤ 7 := norm_le _
  refine ⟨hcounts.ended, fun hr => ?_, hcounts.ordered, (hcounts.bdErr_iff hin (by omega)).1, fun hmore => ?_⟩
  · obtain ⟨hcount, hcap⟩ := hcounts.running hr
    refine ⟨hcount, ?_⟩
    cases vs <;> exact hcap
  · refine (hnext.bdErr_iff (decodeBool_inRange m p hin).1 (by omega)).2 ?_
    push_cast
    omega

end Sys2Proof.Machine

namespace Sys2Proof.Machine

/-! ## The walk over a tree -/

section
variable {vs : ValueSize} {m : Memory} {probAt : Nat → Byte} {t : List Int} {i : Nat} {bd : BoolDecoder}

/-- A walk outside the table, or with no decision left, fails with BAD_TREE and with nothing else (R121). -/
theorem treeWalk_error {steps : Nat} {e : CmdError} (h : treeWalk vs m probAt t steps i bd = .error e) :
    e = .badTree := by
  induction steps generalizing i bd with
  | zero => exact (Except.error.inj h).symm
  | succ steps ih =>
    simp only [treeWalk] at h
    split_ifs at h
    · exact (Except.error.inj h).symm
    · exact ih h

/-- A decision that reaches a leaf ends the walk (R121). -/
theorem treeWalk_leaf {sym : Nat} (inside : i + 1 < t.length)
    (isLeaf : t.getD (i + (decodeBool vs m (probAt (i / 2)) bd).1) 0 = -(sym : Int)) (steps : Nat) :
    treeWalk vs m probAt t (steps + 1) i bd = .ok (sym, (decodeBool vs m (probAt (i / 2)) bd).2) := by
  simp only [treeWalk, if_neg (Nat.not_le.2 inside), isLeaf]
  rw [if_pos (by omega), neg_neg, Int.toNat_natCast]

/-- A decision that leads to a node goes on from there (R121). -/
theorem treeWalk_node {j : Nat} (inside : i + 1 < t.length) (isNode : 0 < j)
    (goes : t.getD (i + (decodeBool vs m (probAt (i / 2)) bd).1) 0 = (j : Int)) (steps : Nat) :
    treeWalk vs m probAt t (steps + 1) i bd =
      treeWalk vs m probAt t steps j (decodeBool vs m (probAt (i / 2)) bd).2 := by
  simp only [treeWalk, if_neg (Nat.not_le.2 inside), goes]
  rw [if_neg (by omega), Int.toNat_natCast]

/-- An entry of a tree is a leaf or a node (R120). -/
theorem leaf_or_node (e : Int) : (∃ sym : Nat, e = -(sym : Int)) ∨ ∃ j : Nat, 0 < j ∧ e = j := by
  rcases le_or_gt e 0 with h | h
  · exact .inl (Int.exists_eq_neg_ofNat h)
  · exact .inr ⟨e.toNat, by omega, by omega⟩

/-- The walk of the pseudocode succeeds exactly as the relation says, within its limit of decisions (R121, R126). -/
theorem treeWalk_eq_ok_iff {steps sym : Nat} {bd' : BoolDecoder} :
    treeWalk vs m probAt t steps i bd = .ok (sym, bd') ↔ ∃ n ≤ steps, Walks vs m probAt t i bd n sym bd' := by
  constructor
  · intro h
    induction steps generalizing i bd with
    | zero => cases h
    | succ steps ih =>
      by_cases inside : i + 1 < t.length
      · obtain ⟨sym', isLeaf⟩ | ⟨j, isNode, goes⟩ :=
          leaf_or_node (t.getD (i + (decodeBool vs m (probAt (i / 2)) bd).1) 0)
        · rw [treeWalk_leaf inside isLeaf] at h
          cases h
          exact ⟨1, by omega, .leaf i bd sym inside isLeaf⟩
        · rw [treeWalk_node inside isNode goes] at h
          obtain ⟨n, hn, hwalk⟩ := ih h
          exact ⟨n + 1, by omega, .node i bd j n sym bd' inside isNode goes hwalk⟩
      · rw [treeWalk, if_pos (Nat.not_lt.1 inside)] at h
        cases h
  · rintro ⟨n, hn, hwalk⟩
    induction hwalk generalizing steps with
    | leaf i bd sym inside isLeaf =>
      obtain ⟨steps, rfl⟩ := Nat.exists_eq_add_of_le' hn
      exact treeWalk_leaf inside isLeaf steps
    | node i bd j n sym bd' inside isNode goes _ ih =>
      obtain ⟨steps, rfl⟩ := Nat.exists_eq_add_of_le' (le_trans (Nat.le_add_left 1 n) hn)
      rw [treeWalk_node inside isNode goes]
      exact ih (Nat.le_of_succ_le_succ hn)

/-- The negated symbol of a walk is an entry of the tree (R120). -/
theorem Walks.neg_symbol_mem {n sym : Nat} {bd' : BoolDecoder} (h : Walks vs m probAt t i bd n sym bd') :
    -(sym : Int) ∈ t := by
  induction h with
  | leaf i bd sym inside isLeaf =>
    have hin : i + (decodeBool vs m (probAt (i / 2)) bd).1 < t.length := by
      have := decodeBool_bit vs m (probAt (i / 2)) bd
      omega
    rw [List.getD_eq_getElem t 0 hin] at isLeaf
    exact isLeaf ▸ List.getElem_mem hin
  | node _ _ _ _ _ _ _ _ _ _ ih => exact ih

end

/-! ## TREE_READ once BD_READY -/

section
variable {s : State} {tree : BitVec 4} {start : BitVec 5} {t : List Int} (hready : s.bdReady = true)
  (htree : s.treeOf tree = some t) (heven : start.toNat % 2 = 0) (hinside : start.toNat + 1 < t.length)
include hready htree heven hinside

/-- A TREE_READ with a legal START ends as its walk does (R121). -/
theorem exec_treeRead_ready : exec (.treeRead tree start) s = complete s
    ((treeWalk s.params.vs s.mem s.probAt t Config.maxTreeSteps start.toNat s.bd).map fun z =>
      { s with bd := z.2, res0 := BitVec.ofNat 32 z.1 }) := by
  have hlegal : ¬ (start.toNat % 2 = 1 ∨ t.length ≤ start.toNat + 1) := by omega
  show execTreeRead tree start s = _
  simp only [execTreeRead, htree, if_neg hlegal, if_pos hready]
  cases treeWalk s.params.vs s.mem s.probAt t Config.maxTreeSteps start.toNat s.bd <;> rfl

/-- A walk of at most MAX_TREE_STEPS decisions gives TREE_READ its symbol and its decoder (R121). -/
theorem exec_treeRead_of_walks {n sym : Nat} {bd : BoolDecoder}
    (hwalk : Walks s.params.vs s.mem s.probAt t start.toNat s.bd n sym bd) (hn : n ≤ Config.maxTreeSteps) :
    exec (.treeRead tree start) s =
      .next { s with res0 := BitVec.ofNat 32 sym, bd := bd, done := true, busy := false } := by
  rw [exec_treeRead_ready hready htree heven hinside, treeWalk_eq_ok_iff.2 ⟨n, hn, hwalk⟩]
  rfl

/-- With no walk of at most MAX_TREE_STEPS decisions TREE_READ fails with BAD_TREE (R121). -/
theorem exec_treeRead_of_not_walks
    (hwalk : ∀ (n sym : Nat) (bd : BoolDecoder), Walks s.params.vs s.mem s.probAt t start.toNat s.bd n sym bd →
      Config.maxTreeSteps < n) :
    exec (.treeRead tree start) s = .next (s.fail .badTree) := by
  rw [exec_treeRead_ready hready htree heven hinside]
  cases h : treeWalk s.params.vs s.mem s.probAt t Config.maxTreeSteps start.toNat s.bd with
  | ok z =>
    obtain ⟨n, hn, hz⟩ := treeWalk_eq_ok_iff.1 h
    exact absurd (hwalk n z.1 z.2 hz) (Nat.not_lt.2 hn)
  | error e => rw [treeWalk_error h]; rfl

end

/-- Settles O39: the walk of the pseudocode is the relation's, with MAX_TREE_STEPS = 16. -/
theorem treeReadFollowsTheWalk : Obligations.TreeReadFollowsTheWalk :=
  fun _ _ _ _ hready htree heven hinside =>
    ⟨fun _ _ _ hwalk hn => exec_treeRead_of_walks hready htree heven hinside hwalk hn,
      fun hwalk => exec_treeRead_of_not_walks hready htree heven hinside hwalk⟩

/-! ## The ROM trees -/

/-- What keeps a walk over a ROM tree from BAD_TREE (R121, corner cases): every node entry is an even index inside the
table and points forward, and MAX_TREE_STEPS decisions cross the table; the symbols fit into RES0. -/
structure ForwardTree (t : List Int) : Prop where
  node : ∀ k < t.length, 0 < t.getD k 0 → (k : Int) < t.getD k 0 ∧ t.getD k 0 % 2 = 0 ∧ t.getD k 0 + 1 < t.length
  short : t.length ≤ 2 * Config.maxTreeSteps
  small : ∀ e ∈ t, -(2 ^ 32 : Int) < e

theorem forwardTree_romTree {k : Nat} {t : List Int} (h : romTree k = some t) : ForwardTree t := by
  unfold romTree at h
  split at h <;> cases h <;> exact ⟨by decide, by decide, by decide⟩

/-- Every decision moves two entries forward at least, so a walk over a forward tree ends at a leaf. -/
theorem ForwardTree.exists_walks {t : List Int} (ht : ForwardTree t) (vs : ValueSize) (m : Memory)
    (probAt : Nat → Byte) {steps i : Nat} (heven : i % 2 = 0) (inside : i + 1 < t.length)
    (hsteps : t.length ≤ i + 2 * steps) (bd : BoolDecoder) :
    ∃ n sym bd', n ≤ steps ∧ Walks vs m probAt t i bd n sym bd' := by
  induction steps generalizing i bd with
  | zero => omega
  | succ steps ih =>
    have hbit := decodeBool_bit vs m (probAt (i / 2)) bd
    obtain ⟨sym, isLeaf⟩ | ⟨j, isNode, goes⟩ :=
      leaf_or_node (t.getD (i + (decodeBool vs m (probAt (i / 2)) bd).1) 0)
    · exact ⟨1, sym, _, by omega, .leaf i bd sym inside isLeaf⟩
    · have hk : i + (decodeBool vs m (probAt (i / 2)) bd).1 < t.length := by omega
      obtain ⟨hforward, heven', hinside⟩ := ht.node _ hk (by omega)
      rw [goes] at hforward heven' hinside
      obtain ⟨n, sym, bd', hn, hwalk⟩ := ih (i := j) (by omega) (by omega) (by omega)
        (decodeBool vs m (probAt (i / 2)) bd).2
      exact ⟨n + 1, sym, bd', by omega, .node i bd j n sym bd' inside isNode goes hwalk⟩

/-- Ids other than 15 name ROM trees (R122). -/
theorem State.treeOf_of_ne (s : State) {tree : BitVec 4} (h : tree.toNat ≠ 15) :
    s.treeOf tree = romTree tree.toNat := if_neg h

/-- TREE_RAM as a tree, entry by entry (R40, R122). -/
theorem State.treeRamList_eq (s : State) :
    s.treeRamList = (List.range 32).map fun k => (s.treeRam.getD k 0#8).toInt := by
  apply List.ext_getElem
  · simp [State.treeRamList]
  · intro k hk _
    have hk' : k < 32 := by simpa [State.treeRamList] using hk
    simp [State.treeRamList, Vector.getD, hk']

theorem State.treeOf_fifteen (s : State) :
    s.treeOf 15#4 = some ((List.range 32).map fun k => (s.treeRam.getD k 0#8).toInt) :=
  congrArg some s.treeRamList_eq

/-- Settles O38: the tables are the model's, and the ROM trees are forward trees. -/
theorem romTreesAlwaysYieldASymbol : Obligations.RomTreesAlwaysYieldASymbol := by
  refine ⟨rfl, by decide, fun s => ⟨fun tree h => s.treeOf_of_ne (by omega),
    fun tree hlo hhi => s.treeOf_of_reserved ⟨hlo, hhi⟩, s.treeOf_fifteen⟩, ?_⟩
  intro tree start s t hready hrom ht heven hinside
  have hforward := forwardTree_romTree ht
  have hshort := hforward.short
  obtain ⟨n, sym, bd, hn, hwalk⟩ :=
    hforward.exists_walks s.params.vs s.mem s.probAt (steps := Config.maxTreeSteps) heven hinside (by omega) s.bd
  have htree : s.treeOf tree = some t := (s.treeOf_of_ne (by omega)).trans ht
  refine ⟨_, exec_treeRead_of_walks hready htree heven hinside hwalk hn, rfl, ?_⟩
  have hmem := hwalk.neg_symbol_mem
  have hsmall := hforward.small _ hmem
  have hsym : (BitVec.ofNat 32 sym).toNat = sym := by
    rw [BitVec.toNat_ofNat]
    exact Nat.mod_eq_of_lt (by omega)
  show -((BitVec.ofNat 32 sym).toNat : Int) ∈ t
  rwa [hsym]

/-! ## The two-leaf tree -/

/-- Settles O40: either decision of PROB[0] ends the walk at once, with the symbol of its bit. -/
theorem twoLeafTreeIsBool : Obligations.TwoLeafTreeIsBool := by
  intro s h0 h1
  cases hready : s.bdReady with
  | false => rw [exec_treeRead_notReady hready (by decide), exec_bdBool_notReady hready]
  | true =>
    have hleaf : ((List.range 32).map fun k => (s.treeRam.getD k 0#8).toInt).getD
        (0 + (decodeBool s.params.vs s.mem (s.probAt 0) s.bd).1) 0 =
          -((decodeBool s.params.vs s.mem (s.probAt 0) s.bd).1 : Int) := by
      rcases decodeBool_bit s.params.vs s.mem (s.probAt 0) s.bd with hbit | hbit <;> rw [hbit]
      · exact congrArg BitVec.toInt h0
      · exact congrArg BitVec.toInt h1
    rw [exec_bdBool_ready hready]
    exact exec_treeRead_of_walks (n := 1) hready s.treeOf_fifteen (by decide) (by simp)
      (.leaf 0 s.bd _ (by simp) hleaf) (by decide)

end Sys2Proof.Machine

namespace Sys2Proof.Machine

/-! ## Coefficients -/

theorem trunc16_toInt (h : Half) : trunc16 h.toInt = h.toInt := by
  rw [trunc16, BitVec.ofInt_toInt]

theorem trunc16_trunc16 (v : Int) : trunc16 (trunc16 v) = trunc16 v := trunc16_toInt _

theorem trunc16_of_range {v : Int} (hlo : -32768 ≤ v) (hhi : v < 32768) : trunc16 v = v := by
  rw [trunc16, BitVec.toInt_ofInt]
  exact Int.bmod_eq_of_le (by omega) (by omega)

theorem State.trunc16_coefAt (s : State) (b i : Nat) : trunc16 (s.coefAt b i) = s.coefAt b i := trunc16_toInt _

theorem State.coefAt_range (s : State) (b i : Nat) : -32768 ≤ s.coefAt b i ∧ s.coefAt b i < 32768 :=
  ⟨BitVec.le_toInt _, BitVec.toInt_lt⟩

/-- Entry 16b + i of the file is coefficient i of block b (R41). -/
theorem coefIndex_div_mod (b : Nat) {i : Nat} (hi : i < 16) : (16 * b + i) / 16 = b ∧ (16 * b + i) % 16 = i := by omega

theorem getD_tabulate_coef (f : Nat → Half) {b i : Nat} (hb : b < 25) (hi : i < 16) :
    (tabulate 400 f).getD (16 * b + i) 0#16 = f (16 * b + i) := by
  rw [tabulate_getD, if_pos (by omega)]

/-! ## DEQUANT -/

/-- s with block b multiplied by the factors of DQ, what DEQUANT computes (R142). -/
def State.dequantized (s : State) (b : Nat) : State :=
  { s with coef := tabulate 400 fun h =>
      if h / 16 = b then half (s.coefAt b (h % 16) * (if h % 16 = 0 then s.dqDc else s.dqAc))
      else s.coef.getD h 0#16 }

theorem exec_dequant {blk : BitVec 5} (h : blk.toNat ≤ 24) (s : State) :
    exec (.dequant blk) s = .next (s.dequantized blk.toNat).finish :=
  congrArg (complete s) (if_neg (Nat.not_lt.2 h))

theorem State.coefAt_dequantized_same (s : State) {b i : Nat} (hb : b < 25) (hi : i < 16) :
    (s.dequantized b).coefAt b i = trunc16 (s.coefAt b i * (if i = 0 then s.dqDc else s.dqAc)) := by
  obtain ⟨hdiv, hmod⟩ := coefIndex_div_mod b hi
  rw [State.coefAt, State.dequantized, getD_tabulate_coef _ hb hi, if_pos hdiv, hmod]
  rfl

theorem State.coefAt_dequantized_other (s : State) {b b' i : Nat} (hb : b < 25) (hi : i < 16) (hne : b ≠ b') :
    (s.dequantized b').coefAt b i = s.coefAt b i := by
  have hdiv := (coefIndex_div_mod b hi).1
  rw [State.coefAt, State.dequantized, getD_tabulate_coef _ hb hi, if_neg (by omega)]
  rfl

/-- Settles O41: the coefficients of the dequantized block and of every other. -/
theorem dequantMultiplies : Obligations.DequantMultiplies := by
  intro blk s hblk
  have hb : blk.toNat < 25 := by omega
  refine ⟨_, exec_dequant hblk s, rfl, s.coefAt_dequantized_same hb (by decide), fun i h1 hi => ?_, fun b i hb' hi hne =>
    s.coefAt_dequantized_other hb' hi hne⟩
  have hac := s.coefAt_dequantized_same hb hi
  rwa [if_neg (by omega)] at hac

/-! ## Blocks in raster order -/

theorem getD_map_range (f : Nat → Int) {n k : Nat} (h : k < n) : ((List.range n).map f).getD k 0 = f k := by
  rw [List.getD_eq_getElem _ _ (by simpa using h), List.getElem_map, List.getElem_range]

/-- The block of 4 rows and 4 columns with the value f r c in row r, column c (R13). -/
def raster (f : Nat → Nat → Int) : List Int := (List.range 16).map fun k => f (k / 4) (k % 4)

theorem getD_raster (f : Nat → Nat → Int) {r c : Nat} (hr : r < 4) (hc : c < 4) :
    (raster f).getD (4 * r + c) 0 = f r c := by
  rw [raster, getD_map_range _ (by omega), show (4 * r + c) / 4 = r by omega, show (4 * r + c) % 4 = c by omega]

theorem raster_eq_replicate {f : Nat → Nat → Int} {v : Int} (h : ∀ r c : Nat, r < 4 → c < 4 → f r c = v) :
    raster f = List.replicate 16 v :=
  List.map_eq_replicate_iff.2 fun k hk => h _ _ (by have := List.mem_range.1 hk; omega) (by omega)

/-! ## The inverse transforms as two passes -/

/-- Output j of a one-dimensional transform of four values, as `dct1` and `wht1` are. -/
abbrev Butterfly := Int → Int → Int → Int → Nat → Int

/-- The vertical pass of both inverse transforms (R141, R143). -/
def columnPass (K : Butterfly) (x : List Int) : List Int :=
  raster fun j c => trunc16 (K (x.getD c 0) (x.getD (4 + c) 0) (x.getD (8 + c) 0) (x.getD (12 + c) 0) j)

/-- The horizontal pass of both inverse transforms, with the rounding term n (R141, R143). -/
def rowPass (K : Butterfly) (n : Int) (t : List Int) : List Int :=
  raster fun r j => trunc16
    (shr (K (t.getD (4 * r) 0) (t.getD (4 * r + 1) 0) (t.getD (4 * r + 2) 0) (t.getD (4 * r + 3) 0) j + n) 3)

theorem invDct_eq_passes (x : List Int) : invDct x = rowPass dct1 4 (columnPass dct1 x) := rfl

theorem invWht_eq_passes (w : List Int) : invWht w = rowPass wht1 3 (columnPass wht1 w) := rfl

theorem getD_columnPass (K : Butterfly) (X : Nat → Int) {j c : Nat} (hj : j < 4) (hc : c < 4) :
    (columnPass K ((List.range 16).map X)).getD (4 * j + c) 0 =
      trunc16 (K (X c) (X (4 + c)) (X (8 + c)) (X (12 + c)) j) := by
  rw [columnPass, getD_raster _ hj hc]
  simp (disch := omega) only [getD_map_range]

theorem getD_rowPass (K : Butterfly) (n : Int) (t : List Int) {r j : Nat} (hr : r < 4) (hj : j < 4) :
    (rowPass K n t).getD (4 * r + j) 0 = trunc16
      (shr (K (t.getD (4 * r) 0) (t.getD (4 * r + 1) 0) (t.getD (4 * r + 2) 0) (t.getD (4 * r + 3) 0) j + n) 3) :=
  getD_raster _ hr hj

/-- What the horizontal pass leaves is in 16 bits. -/
theorem trunc16_getD_rowPass (K : Butterfly) (n : Int) (t : List Int) {k : Nat} (hk : k < 16) :
    trunc16 ((rowPass K n t).getD k 0) = (rowPass K n t).getD k 0 := by
  rw [rowPass, raster, getD_map_range _ hk, trunc16_trunc16]

/-- Y is what the two passes with butterfly K and rounding term n make of X, line by line as R141 and R143 write it. -/
def IsTwoPass (K : Butterfly) (n : Int) (X Y : Nat → Int) : Prop :=
  ∃ T : Nat → Int,
    (∀ c : Nat, c < 4 →
      let out := fun j => trunc16 (K (X c) (X (4 + c)) (X (8 + c)) (X (12 + c)) j)
      T c = out 0 ∧ T (4 + c) = out 1 ∧ T (8 + c) = out 2 ∧ T (12 + c) = out 3) ∧
    (∀ r : Nat, r < 4 →
      let out := fun j => trunc16 (shr (K (T (4 * r)) (T (4 * r + 1)) (T (4 * r + 2)) (T (4 * r + 3)) j + n) 3)
      Y (4 * r) = out 0 ∧ Y (4 * r + 1) = out 1 ∧ Y (4 * r + 2) = out 2 ∧ Y (4 * r + 3) = out 3)

theorem isTwoPass_passes (K : Butterfly) (n : Int) (X : Nat → Int) :
    IsTwoPass K n X fun k => (rowPass K n (columnPass K ((List.range 16).map X))).getD k 0 := by
  refine ⟨fun k => (columnPass K ((List.range 16).map X)).getD k 0, fun c hc => ?_, fun r hr => ?_⟩
  · have column (j : Nat) (hj : j < 4) := getD_columnPass K X hj hc
    have top := column 0 (by decide)
    rw [Nat.mul_zero, Nat.zero_add] at top
    exact ⟨top, column 1 (by decide), column 2 (by decide), column 3 (by decide)⟩
  · have row (j : Nat) (hj : j < 4) := getD_rowPass K n (columnPass K ((List.range 16).map X)) hr hj
    exact ⟨row 0 (by decide), row 1 (by decide), row 2 (by decide), row 3 (by decide)⟩

/-- InvDCT is the pseudocode of R141. -/
theorem isInvDct_invDct (X : Nat → Int) : IsInvDct X fun k => (invDct ((List.range 16).map X)).getD k 0 :=
  isTwoPass_passes dct1 4 X

/-- The inverse WHT is the pseudocode of R143. -/
theorem isInvWht_invWht (W : Nat → Int) : IsInvWht W fun k => (invWht ((List.range 16).map W)).getD k 0 :=
  isTwoPass_passes wht1 3 W

/-- On a block with its DC alone, a butterfly that passes a lone first value on gives the DC, rounded, everywhere. -/
theorem passes_dcOnly {K : Butterfly} (hK : ∀ (w : Int) (j : Nat), K w 0 0 0 j = w) (n : Int) {X : Nat → Int}
    (hdc : trunc16 (X 0) = X 0) (hX : ∀ i : Nat, 1 ≤ i → i < 16 → X i = 0) :
    rowPass K n (columnPass K ((List.range 16).map X)) = List.replicate 16 (trunc16 (shr (X 0 + n) 3)) := by
  have column {j c : Nat} (hj : j < 4) (hc : c < 4) :
      (columnPass K ((List.range 16).map X)).getD (4 * j + c) 0 = trunc16 (X c) := by
    rw [getD_columnPass K X hj hc, hX (4 + c) (by omega) (by omega), hX (8 + c) (by omega) (by omega),
      hX (12 + c) (by omega) (by omega), hK]
  have first {r : Nat} (hr : r < 4) : (columnPass K ((List.range 16).map X)).getD (4 * r) 0 = X 0 :=
    (column hr (by decide)).trans hdc
  have others {r c : Nat} (hr : r < 4) (h1 : 1 ≤ c) (hc : c < 4) :
      (columnPass K ((List.range 16).map X)).getD (4 * r + c) 0 = 0 := by
    rw [column hr hc, hX c h1 (by omega)]; rfl
  refine raster_eq_replicate fun r j hr hj => ?_
  rw [first hr, others hr (by decide) (by decide), others hr (by decide) (by decide),
    others hr (by decide) (by decide), hK]

theorem dct1_first (w : Int) (j : Nat) : dct1 w 0 0 0 j = w := by
  unfold dct1
  split <;> simp [shr]

theorem wht1_first (w : Int) (j : Nat) : wht1 w 0 0 0 j = w := by
  unfold wht1
  split <;> simp

theorem State.invDct_dcOnly (s : State) {b : Nat} (h : ∀ i : Nat, 1 ≤ i → i < 16 → s.coefAt b i = 0) :
    invDct (s.coefBlock b) = dcResidual (s.coefAt b 0) := by
  obtain ⟨hlo, hhi⟩ := s.coefAt_range b 0
  have hfits : trunc16 (shr (s.coefAt b 0 + 4) 3) = shr (s.coefAt b 0 + 4) 3 := by
    rw [shr_three]; exact trunc16_of_range (by omega) (by omega)
  rw [invDct_eq_passes, State.coefBlock, passes_dcOnly dct1_first 4 (s.trunc16_coefAt b 0) h, hfits]; rfl

theorem State.invWht_dcOnly (s : State) {b : Nat} (h : ∀ i : Nat, 1 ≤ i → i < 16 → s.coefAt b i = 0) :
    invWht (s.coefBlock b) = List.replicate 16 (invWhtDc (s.coefAt b 0)) :=
  passes_dcOnly wht1_first 3 (s.trunc16_coefAt b 0) h

/-! ## The inverse WHT commands -/

theorem State.iwht_eq (s : State) : s.iwht = s.setLumaDcs fun k => (invWht (s.coefBlock 24)).getD k 0 := rfl

theorem State.iwhtDc_eq (s : State) : s.iwhtDc = s.setLumaDcs fun _ => invWhtDc (s.coefAt 24 0) := rfl

theorem State.coefAt_setLumaDcs_dc (s : State) (o : Nat → Int) {k : Nat} (hk : k < 16) :
    (s.setLumaDcs o).coefAt k 0 = trunc16 (o k) := by
  obtain ⟨hdiv, hmod⟩ := coefIndex_div_mod k (i := 0) (by decide)
  rw [State.coefAt, State.setLumaDcs_coef, getD_tabulate_coef _ (by omega) (by decide), hdiv, hmod, if_pos ⟨rfl, hk⟩]
  rfl

theorem State.coefAt_setLumaDcs_other (s : State) (o : Nat → Int) {b i : Nat} (hb : b < 25) (hi : i < 16)
    (h : ¬ (b < 16 ∧ i = 0)) : (s.setLumaDcs o).coefAt b i = s.coefAt b i := by
  obtain ⟨hdiv, hmod⟩ := coefIndex_div_mod b hi
  rw [State.coefAt, State.setLumaDcs_coef, getD_tabulate_coef _ hb hi, hdiv, hmod, if_neg (by omega)]
  rfl

/-- Only the 16 DCs count. -/
theorem State.setLumaDcs_congr (s : State) {o o' : Nat → Int} (h : ∀ k : Nat, k < 16 → o k = o' k) :
    s.setLumaDcs o = s.setLumaDcs o' := by
  unfold State.setLumaDcs
  congr 2
  funext e
  exact ite_congr rfl (fun hdc => by rw [h _ hdc.2]) fun _ => rfl

/-- A command that sets the luma DCs completes with those 16 values, truncated, and every other coefficient as before. -/
theorem exec_setLumaDcs {i : Instr} {s : State} {o : Nat → Int} {good : (Nat → Int) → Prop}
    (hexec : exec i s = complete s (.ok (s.setLumaDcs o)))
    (hgood : ∀ dcs : Nat → Int, (∀ k : Nat, k < 16 → dcs k = trunc16 (o k)) → good dcs) :
    ∃ t : State, exec i s = .next t ∧ t = { s with coef := t.coef, done := true, busy := false } ∧
      good (fun k => t.coefAt k 0) ∧
      ∀ b i : Nat, b < 25 → i < 16 → ¬ (b < 16 ∧ i = 0) → t.coefAt b i = s.coefAt b i :=
  ⟨_, hexec, rfl, hgood _ fun _ => s.coefAt_setLumaDcs_dc o, fun _ _ => s.coefAt_setLumaDcs_other o⟩

theorem exec_iwhtAuto (s : State) :
    exec .iwhtAuto s = complete s (.ok (if 1 < s.eobAt 24 then s.iwht else s.iwhtDc)) := rfl

/-- Settles O42: each command sets the luma DCs, to the outputs of the transform or to the rounded DC. -/
theorem inverseWhtWritesTheDcs : Obligations.InverseWhtWritesTheDcs := by
  intro s writes full dcOnly
  have hfull {i : Instr} (hexec : exec i s = complete s (.ok s.iwht)) : writes i full := by
    rw [s.iwht_eq] at hexec
    refine exec_setLumaDcs hexec fun dcs hdcs => ⟨_, isInvWht_invWht (s.coefAt 24), fun k hk => ?_⟩
    exact (hdcs k hk).trans (trunc16_getD_rowPass wht1 3 _ hk)
  have hdc {i : Instr} (hexec : exec i s = complete s (.ok s.iwhtDc)) : writes i dcOnly := by
    rw [s.iwhtDc_eq] at hexec
    exact exec_setLumaDcs hexec fun dcs hdcs k hk => (hdcs k hk).trans (trunc16_trunc16 _)
  refine ⟨hfull rfl, hdc rfl, fun heob => hfull ?_, fun heob => hdc ?_⟩
  · rw [exec_iwhtAuto, if_pos heob]
  · rw [exec_iwhtAuto, if_neg (Nat.not_lt.2 heob)]

/-! ## The residual commands -/

theorem StoresBlock.congr {m m' : Memory} {base stride : Word} {w h : Nat} {f g : Nat → Nat → Int}
    (hf : StoresBlock m m' base stride w h f) (hfg : ∀ r c : Nat, r < h → c < w → f r c = g r c) :
    StoresBlock m m' base stride w h g :=
  ⟨fun r c hr hc last => by rw [← hfg r c hr hc]; exact hf.1 r c hr hc last, hf.2⟩

/-- A pixel of a 4 x 4 block as read. -/
theorem getD_blockPixels (m : Memory) (base stride : Word) {r c : Nat} (hr : r < 4) (hc : c < 4) :
    ((blockAddrs base stride 4 4).map (Memory.pixel m)).getD (4 * r + c) 0 =
      Memory.pixel m (pixAddr base stride (r : Nat) (c : Nat)) := by
  rw [blockAddrs, List.map_map]
  exact getD_raster (fun r c => Memory.pixel m (pixAddr base stride (r : Nat) (c : Nat))) hr hc

/-- AddBlock stores the clamped sums of R146. -/
theorem State.addsBlock_addBlock (s : State) {y : List Int} {Y : Nat → Int}
    (hY : ∀ k : Nat, k < 16 → y.getD k 0 = Y k) : s.AddsBlock Y (s.addBlock y).mem := by
  refine (storesBlock_storeBlock s _ _ 4 4 _).congr fun r c hr hc => ?_
  rw [hY _ (by omega), getD_blockPixels s.mem _ _ hr hc]

/-- A command that adds a residual behind the check of its footprint completes when it is admitted. -/
theorem exec_addBlock {i : Instr} {s : State} {y : List Int} {Y : Nat → Int} {residual : (Nat → Int) → Prop}
    (hexec : exec i s = complete s (s.guarded s.addBlockFootprint (s.addBlock y)))
    (hadm : ∀ a ∈ s.addBlockFootprint, s.admits a = true) (hres : residual Y)
    (hY : ∀ k : Nat, k < 16 → y.getD k 0 = Y k) :
    ∃ (t : State) (Y : Nat → Int), exec i s = .next t ∧ t = { s with mem := t.mem, done := true, busy := false } ∧
      residual Y ∧ s.AddsBlock Y t.mem := by
  rw [State.guarded_of_admits ((s.admitsAll_iff _).2 hadm)] at hexec
  exact ⟨_, Y, hexec, rfl, hres, s.addsBlock_addBlock hY⟩

theorem exec_idctAdd {blk : BitVec 5} (h : blk.toNat ≤ 23) (s : State) :
    exec (.idctAdd blk) s = complete s (s.idctAdd blk.toNat) := congrArg (complete s) (if_neg (Nat.not_lt.2 h))

theorem exec_idctDcAdd {blk : BitVec 5} (h : blk.toNat ≤ 23) (s : State) :
    exec (.idctDcAdd blk) s = complete s (s.idctDcAdd blk.toNat) := congrArg (complete s) (if_neg (Nat.not_lt.2 h))

theorem exec_idctAutoAdd {blk : BitVec 5} (h : blk.toNat ≤ 23) (s : State) :
    exec (.idctAutoAdd blk) s =
      complete s (if 1 < s.eobAt blk.toNat then s.idctAdd blk.toNat else s.idctDcAdd blk.toNat) :=
  congrArg (complete s) (if_neg (Nat.not_lt.2 h))

/-- Settles O43: each command is AddBlock with InvDCT of the block or with the rounded DC. -/
theorem idctAddsTheResidual : Obligations.IdctAddsTheResidual := by
  intro blk s hblk hadm adds full dcOnly
  have hfull {i : Instr} (hexec : exec i s = complete s (s.idctAdd blk.toNat)) : adds i full :=
    exec_addBlock hexec hadm (isInvDct_invDct (s.coefAt blk.toNat)) fun _ _ => rfl
  have hdc {i : Instr} (hexec : exec i s = complete s (s.idctDcAdd blk.toNat)) : adds i dcOnly :=
    exec_addBlock hexec hadm (Y := fun _ => (s.coefAt blk.toNat 0 + 4) / 8) (fun _ => rfl) fun k hk => by
      rw [dcResidual, List.getD_replicate _ hk, shr_three]
  refine ⟨hfull (exec_idctAdd hblk s), hdc (exec_idctDcAdd hblk s), fun heob => hfull ?_, fun heob => hdc ?_⟩
  · rw [exec_idctAutoAdd hblk, if_pos heob]
  · rw [exec_idctAutoAdd hblk, if_neg (Nat.not_lt.2 heob)]

/-- Settles O44: with its DC alone a block transforms to the rounded DC everywhere. -/
theorem dcOnlyTransformsAgree : Obligations.DcOnlyTransformsAgree := by
  intro s
  refine ⟨fun h => ?_, fun blk h => ?_⟩
  · have heq : s.iwhtDc = s.iwht := by
      rw [s.iwhtDc_eq, s.iwht_eq, s.invWht_dcOnly h]
      exact s.setLumaDcs_congr fun k hk => (List.getD_replicate _ hk).symm
    exact congrArg (fun u => complete s (.ok u)) heq
  · have heq : s.idctDcAdd blk.toNat = s.idctAdd blk.toNat := by
      rw [State.idctDcAdd, State.idctAdd, s.invDct_dcOnly h]
    exact congrArg (fun r => complete s (if 23 < blk.toNat then .error .badParam else r)) heq

/-! ## COEF_CLEAR -/

/-- s with COEF and EOB 0, what COEF_CLEAR computes (R150). -/
def State.coefCleared (s : State) : State :=
  { s with eob := Vector.replicate 25 0#8, coef := Vector.replicate 400 0#16 }

theorem exec_coefClear (s : State) : exec .coefClear s = .next s.coefCleared.finish := rfl

theorem getD_replicate_self {α : Type} (n k : Nat) (d : α) : (Vector.replicate n d).getD k d = d := by
  by_cases h : k < n <;> simp [Vector.getD, h]

theorem coefWord_zero (k : Nat) : coefWord (Vector.replicate 400 0#16) k = 0#32 := by
  rw [coefWord, getD_replicate_self, getD_replicate_self]; rfl

theorem fileWord_zero (n k : Nat) : fileWord (Vector.replicate n 0#8) k = 0#32 := by
  simp only [fileWord, getD_replicate_self]; rfl

/-- Settles O45: every word of the two files is made of entries that are 0. -/
theorem coefClearClears : Obligations.CoefClearClears := by
  intro s
  refine ⟨_, exec_coefClear s, rfl, fun b i _ _ => ⟨?_, ?_⟩, fun off h4 hlo hhi => ?_⟩
  · exact congrArg BitVec.toInt (getD_replicate_self 400 _ _)
  · exact congrArg BitVec.toNat (getD_replicate_self 25 _ _)
  · by_cases hcoef : off < 0x420
    · obtain ⟨k, rfl⟩ : ∃ k, off = 0x100 + 4 * k := ⟨(off - 0x100) / 4, by omega⟩
      exact (State.readReg_coef _ (by omega)).trans (coefWord_zero k)
    · obtain ⟨k, rfl⟩ : ∃ k, off = 0x420 + 4 * k := ⟨(off - 0x420) / 4, by omega⟩
      exact (State.readReg_eob _ (by omega)).trans (fileWord_zero 25 k)

end Sys2Proof.Machine

namespace Sys2Proof.Machine

/-! ## The modes and neighbours of intra prediction -/

/-- MODE of INTRA_B4 by its number (R171). -/
theorem subModeOf_eq : ∀ mode : BitVec 4,
    subModeOf mode = [SubMode.bDc, .bTm, .bVe, .bHe, .bLd, .bRd, .bVr, .bVl, .bHd, .bHu][mode.toNat]? := by decide

/-- MODE of INTRA_Y16 and INTRA_UV8 by its number (R171). -/
theorem blockModeOf_eq : ∀ mode : BitVec 4, blockModeOf mode = [BlockMode.dc, .v, .h, .tm][mode.toNat]? := by decide

/-- above[j] is the byte at A + j (R170). -/
theorem State.above_eq (s : State) (na : Nat) :
    s.above na = (List.range na).map fun j => Memory.pixel s.mem (pixAddr (s.arg 0) 0#32 0 (j : Nat)) := by
  simp only [State.above, rowAddrs, List.map_map, Function.comp_def, Int.zero_add]

/-- left[r] is the byte at L + r*SL (R170). -/
theorem State.left_eq (s : State) (n : Nat) :
    s.left n = (List.range n).map fun r => Memory.pixel s.mem (pixAddr (s.arg 1) (s.arg 2) (r : Nat) 0) := by
  simp only [State.left, State.leftAddrs, colAddrs, List.map_map, Function.comp_def]

/-! ## The prediction commands -/

/-- A command behind the check of its footprint ends in what it computed when the footprint is admitted (R64, R263). -/
theorem exec_of_admitted {i : Instr} {s u : State} {fp : List Addr} (hexec : exec i s = complete s (s.guarded fp u))
    (hadm : ∀ a ∈ fp, s.admits a = true) : exec i s = .next u.finish := by
  rw [hexec, State.guarded_of_admits ((s.admitsAll_iff _).2 hadm), complete_ok]

/-- A command that stores a block behind the check of its footprint completes when it is admitted, and changes the bytes
of the block alone. -/
theorem exec_storeBlock {i : Instr} {s : State} {fp : List Addr} {base stride : Word} {w h : Nat} {f : Nat → Nat → Int}
    (hexec : exec i s = complete s (s.guarded fp (s.storeBlock base stride w h f)))
    (hadm : ∀ a ∈ fp, s.admits a = true) :
    ∃ t : State, exec i s = .next t ∧ t = { s with mem := t.mem, done := true, busy := false } ∧
      StoresBlock s.mem t.mem base stride w h f :=
  ⟨_, exec_of_admitted hexec hadm, rfl, storesBlock_storeBlock s base stride w h f⟩

theorem exec_intraB4 {mode : BitVec 4} {md : SubMode} (hmd : subModeOf mode = some md) (s : State) :
    exec (.intraB4 mode) s = complete s (s.guarded (s.intraFootprint 8 4)
      (s.storeBlock (s.arg 3) (s.arg 4) 4 4 (pred4 md (s.above 8) (s.left 4) s.topLeft))) := by
  show execIntraB4 mode s = _
  rw [execIntraB4, hmd]

theorem State.intraBlock_of_mode (s : State) (n : Nat) {mode : BitVec 4} {md : BlockMode}
    (hmd : blockModeOf mode = some md) (up left : Bool) :
    s.intraBlock n mode up left = s.guarded (s.intraFootprint n n)
      (s.storeBlock (s.arg 3) (s.arg 4) n n (predN n md (s.above n) (s.left n) s.topLeft up left)) := by
  rw [State.intraBlock, hmd]

/-- INTRA_Y16 and INTRA_UV8 are the whole-block prediction of their size behind the check of their footprint. -/
theorem exec_intraWholeBlock {i : Instr} {n : Nat} {mode : BitVec 4} {md : BlockMode} {up left : Bool}
    (hi : (i = .intraY16 mode up left ∧ n = 16) ∨ (i = .intraUv8 mode up left ∧ n = 8))
    (hmd : blockModeOf mode = some md) (s : State) :
    exec i s = complete s (s.guarded (s.footprintOf i)
      (s.storeBlock (s.arg 3) (s.arg 4) n n (predN n md (s.above n) (s.left n) s.topLeft up left))) := by
  obtain ⟨rfl, rfl⟩ | ⟨rfl, rfl⟩ := hi
  · exact congrArg (complete s) (s.intraBlock_of_mode 16 hmd up left)
  · exact congrArg (complete s) (s.intraBlock_of_mode 8 hmd up left)

/-- Settles O46: the command stores Pred4 of the neighbours behind the check of its footprint. -/
theorem intraB4Predicts : Obligations.IntraB4Predicts := by
  intro mode s hmode hadm
  obtain ⟨md, hmd⟩ := Option.isSome_iff_exists.1 (subModeOf_of_legal mode (Nat.not_lt.2 hmode))
  obtain ⟨t, hexec, hframe, hstores⟩ := exec_storeBlock (exec_intraB4 hmd s) hadm
  exact ⟨t, md, _, _, _, hexec, hframe, (subModeOf_eq mode).symm.trans hmd, s.above_eq 8, s.left_eq 4, rfl, hstores⟩

/-- Settles O47: each command stores PredN of the neighbours behind the check of its footprint. -/
theorem intraWholeBlockPredicts : Obligations.IntraWholeBlockPredicts := by
  intro i n mode up left s hmode hi hadm
  obtain ⟨md, hmd⟩ := Option.isSome_iff_exists.1 (blockModeOf_of_legal mode (Nat.not_lt.2 hmode))
  obtain ⟨t, hexec, hframe, hstores⟩ := exec_storeBlock (exec_intraWholeBlock hi hmd s) hadm
  exact ⟨t, md, _, _, _, hexec, hframe, (blockModeOf_eq mode).symm.trans hmd, s.above_eq n, s.left_eq n, rfl, hstores⟩

/-! ## ABOVE_RIGHT_COPY -/

/-- s with the four bytes copied to the three rows, what ABOVE_RIGHT_COPY computes (R187). -/
def State.aboveRightCopied (s : State) : State :=
  { s with mem := Memory.writeAll s.mem (s.aboveRightWrites (s.aboveRightSource.map (Memory.read s.mem))) }

theorem exec_aboveRightCopy (s : State) :
    exec .aboveRightCopy s = complete s (s.guarded s.aboveRightFootprint s.aboveRightCopied) := rfl

/-- The row of the destination at k + 1 is row 4k + 3 of the macroblock. -/
theorem State.aboveRightDest_succ (s : State) (k j : Nat) :
    s.aboveRightDest (k + 1) j = pixAddr (s.arg 0) (s.arg 1) (4 * (k : Int) + 3) (16 + (j : Int)) := by
  rw [State.aboveRightDest, show 4 * ((k + 1 : Nat) : Int) - 1 = 4 * k + 3 by omega]

/-- Byte j of the four copied bytes, as read. -/
theorem State.getD_aboveRightSource (s : State) {j : Nat} (hj : j < 4) :
    (s.aboveRightSource.map (Memory.read s.mem)).getD j 0#8 =
      Memory.read s.mem (pixAddr (s.arg 0) (s.arg 1) (-1) (16 + (j : Int))) := by
  rw [List.getD_eq_getElem _ _ (by simpa [State.aboveRightSource] using hj)]
  simp only [State.aboveRightSource, List.getElem_map, List.getElem_range]

/-- The writes as one list by their place n = 4k + j in the order k, j. -/
theorem State.aboveRightWrites_eq (s : State) (v : List Byte) :
    s.aboveRightWrites v =
      (List.range 12).map fun n => (s.aboveRightDest (n / 4 + 1) (n % 4), v.getD (n % 4) 0#8) := by
  rw [State.aboveRightWrites, aboveRightIndices, List.map_map]; rfl

/-- A destination that no later write falls on holds its copied byte. -/
theorem State.read_aboveRightCopied_dest (s : State) {k j : Nat} (hk : k < 3) (hj : j < 4)
    (last : ∀ k' j' : Nat, k' < 3 → j' < 4 → s.aboveRightDest (k' + 1) j' = s.aboveRightDest (k + 1) j →
      4 * k' + j' ≤ 4 * k + j) :
    Memory.read s.aboveRightCopied.mem (s.aboveRightDest (k + 1) j) =
      Memory.read s.mem (pixAddr (s.arg 0) (s.arg 1) (-1) (16 + (j : Int))) := by
  obtain ⟨hdiv, hmod⟩ : (4 * k + j) / 4 = k ∧ (4 * k + j) % 4 = j := by omega
  have hread := Memory.read_writeAll_range (fun n => s.aboveRightDest (n / 4 + 1) (n % 4))
    (fun n => (s.aboveRightSource.map (Memory.read s.mem)).getD (n % 4) 0#8) s.mem 12 (4 * k + j) (by omega)
    fun n hn heq => by
      rw [hdiv, hmod] at heq
      have := last (n / 4) (n % 4) (by omega) (by omega) heq
      omega
  rw [← State.aboveRightWrites_eq, hdiv, hmod, s.getD_aboveRightSource hj] at hread
  exact hread

/-- Every byte that is no destination is as before. -/
theorem State.read_aboveRightCopied_other (s : State) {a : Addr}
    (ha : ∀ k j : Nat, k < 3 → j < 4 → s.aboveRightDest (k + 1) j ≠ a) :
    Memory.read s.aboveRightCopied.mem a = Memory.read s.mem a := by
  refine Memory.read_writeAll_of_not_mem _ _ _ fun hmem => ?_
  rw [State.aboveRightWrites_eq, List.map_map] at hmem
  obtain ⟨n, hn, rfl⟩ := List.mem_map.1 hmem
  have := List.mem_range.1 hn
  exact ha (n / 4) (n % 4) (by omega) (by omega) rfl

/-- Settles O51: the twelve writes in order behind the check of the footprint. -/
theorem aboveRightCopyCopies : Obligations.AboveRightCopyCopies := by
  intro s hadm dest
  have hdest (k j : Nat) : dest k j = s.aboveRightDest (k + 1) j := (s.aboveRightDest_succ k j).symm
  have hexec := exec_of_admitted (exec_aboveRightCopy s) hadm
  simp only [hdest]
  exact ⟨_, hexec, rfl, fun k j => s.read_aboveRightCopied_dest, fun a => s.read_aboveRightCopied_other⟩

/-! ## The pixels of the 4x4 modes -/

/-- The edge of B_RD, B_VR and B_HD: up the left column, the corner, along the row above (R173). -/
theorem getD_edge (a l : Nat → Int) (t : Int) {k : Nat} (hk : k < 9) :
    [l 3, l 2, l 1, l 0, t, a 0, a 1, a 2, a 3].getD k 0 =
      if k < 4 then l (3 - k) else if k = 4 then t else a (k - 5) := by
  interval_cases k <;> rfl

/-- A pixel of B_TM and of TM (R173, R179). -/
theorem clamp255_getD (a l : Nat → Int) (t : Int) {m n r c : Nat} (hr : r < m) (hc : c < n) :
    clamp255 (((List.range m).map l).getD r 0 + ((List.range n).map a).getD c 0 - t) =
      min (max (l r + a c - t) 0) 255 := by
  rw [getD_map_range l hr, getD_map_range a hc]; rfl

theorem pred4_bLd (a l : List Int) (t : Int) (r c : Nat) :
    pred4 .bLd a l t r c =
      if r + c < 6 then avg3 (a.getD (r + c) 0) (a.getD (r + c + 1) 0) (a.getD (r + c + 2) 0)
      else avg3 (a.getD 6 0) (a.getD 7 0) (a.getD 7 0) := rfl

/-- Settles O48: the modes that are one formula at r and c, and those whose 16 pixels are listed. -/
theorem subblockModeFormulas : Obligations.SubblockModeFormulas := by
  intro a l t P avg2 avg3 e
  refine ⟨fun r c hr hc => ⟨rfl, clamp255_getD a l t hr (by omega), ?ve, ?he, ?ld, ?rd⟩, ?vr, ?vl, ?hd, ?hu⟩
  case ve => interval_cases c <;> rfl
  case he => interval_cases r <;> rfl
  case ld =>
    by_cases hk : r + c < 6
    · refine (pred4_bLd _ _ t r c).trans ?_
      rw [if_pos hk, getD_map_range a (by omega), getD_map_range a (by omega), getD_map_range a (by omega),
        Nat.min_eq_left (by omega)]
      rfl
    · obtain ⟨rfl, rfl⟩ : r = 3 ∧ c = 3 := by omega
      rfl
  case rd =>
    exact congr (congrArg₂ Machine.avg3 (getD_edge a l t (by omega)) (getD_edge a l t (by omega)))
      (getD_edge a l t (by omega))
  case vr | vl | hd | hu =>
    and_intros
    all_goals rfl

/-! ## The pixels of the whole-block modes -/

/-- Settles O49: the shifts of DC by n, UP and LEFT, and the neighbours of the other modes. -/
theorem wholeBlockModeFormulas : Obligations.WholeBlockModeFormulas := by
  intro n a l t up left r c hn hr hc P sum k
  refine ⟨?none, ?above, ?left, ?both, getD_map_range a hc, getD_map_range l hr,
    clamp255_getD a l t hr hc⟩
  case none => rintro rfl rfl; rfl
  case above =>
    rintro rfl rfl
    obtain rfl | rfl := hn
    · exact congrArg (fun x => (x + 8) / 16) (Int.add_zero _)
    · exact congrArg (fun x => (x + 4) / 8) (Int.add_zero _)
  case left =>
    rintro rfl rfl
    obtain rfl | rfl := hn
    · exact congrArg (fun x => (x + 8) / 16) (Int.zero_add _)
    · exact congrArg (fun x => (x + 4) / 8) (Int.zero_add _)
  case both =>
    rintro rfl rfl
    obtain rfl | rfl := hn <;> rfl

/-! ## Predicted pixels are u8 -/

theorem isPixel_clamp255 (v : Int) : IsPixel (clamp255 v) := by unfold IsPixel clamp255; omega

theorem isPixel_avg2 {a b : Int} (ha : IsPixel a) (hb : IsPixel b) : IsPixel (avg2 a b) := by
  unfold IsPixel at *
  rw [show avg2 a b = (a + b + 1) / 2 from rfl]; omega

theorem isPixel_avg3 {a b c : Int} (ha : IsPixel a) (hb : IsPixel b) (hc : IsPixel c) : IsPixel (avg3 a b c) := by
  unfold IsPixel at *
  rw [show avg3 a b c = (a + 2 * b + c + 2) / 4 from rfl]; omega

/-- An entry of a list of pixels, or the 0 past its end. -/
theorem isPixel_getD {xs : List Int} (h : ∀ x ∈ xs, IsPixel x) (k : Nat) : IsPixel (xs.getD k 0) := by
  by_cases hk : k < xs.length
  · rw [List.getD_eq_getElem _ _ hk]; exact h _ (List.getElem_mem hk)
  · rw [List.getD_eq_default _ _ (Nat.not_lt.1 hk)]; exact ⟨by decide, by decide⟩

theorem isPixel_of_mem_map {a : Nat → Int} (ha : ∀ k, IsPixel (a k)) (n : Nat) :
    ∀ x ∈ (List.range n).map a, IsPixel x :=
  List.forall_mem_map.2 fun k _ => ha k

/-- Every pixel of a 4x4 mode is an average, a clamped value, or an entry of a list of those. -/
theorem isPixel_pred4 (md : SubMode) {a l : List Int} {t : Int} (ha : ∀ x ∈ a, IsPixel x) (hl : ∀ x ∈ l, IsPixel x)
    (ht : IsPixel t) (r c : Nat) : IsPixel (pred4 md a l t r c) := by
  have hA := isPixel_getD ha
  have hL := isPixel_getD hl
  have hE := isPixel_getD (xs := [l.getD 3 0, l.getD 2 0, l.getD 1 0, l.getD 0 0, t, a.getD 0 0, a.getD 1 0,
    a.getD 2 0, a.getD 3 0]) (by simp only [List.forall_mem_cons, hA, hL, ht, true_and]; exact nofun)
  cases md with
  | bDc =>
    have := hA 0; have := hA 1; have := hA 2; have := hA 3
    have := hL 0; have := hL 1; have := hL 2; have := hL 3
    unfold IsPixel at *
    simp only [pred4, shr_three]
    omega
  | bTm => exact isPixel_clamp255 _
  | bLd =>
    simp only [pred4]
    split <;> exact isPixel_avg3 (hA _) (hA _) (hA _)
  | bRd => exact isPixel_avg3 (hE _) (hE _) (hE _)
  | bVe | bHe | bVr | bVl | bHd | bHu =>
    refine isPixel_getD ?_ _
    simp only [List.forall_mem_cons, isPixel_avg2, isPixel_avg3, hA, hL, hE, ht, true_and]
    exact nofun

theorem sum_pixels_range {a : Nat → Int} (ha : ∀ k, IsPixel (a k)) (n : Nat) :
    0 ≤ ((List.range n).map a).sum ∧ ((List.range n).map a).sum ≤ 255 * n := by
  induction n with
  | zero => exact ⟨le_refl _, le_refl _⟩
  | succ n ih =>
    obtain ⟨h0, h255⟩ := ha n
    rw [List.range_succ, List.map_append, List.sum_append, List.map_singleton, List.sum_singleton]
    omega

/-- Every pixel of a whole-block mode is a mean of n or 2n pixels, 128, a neighbour or a clamped value. -/
theorem isPixel_predN {n : Nat} (md : BlockMode) {a l : Nat → Int} {t : Int} (up left : Bool) {r c : Nat}
    (hn : n = 16 ∨ n = 8) (hr : r < n) (hc : c < n) (ha : ∀ k : Nat, IsPixel (a k)) (hl : ∀ k : Nat, IsPixel (l k)) :
    IsPixel (predN n md ((List.range n).map a) ((List.range n).map l) t up left r c) := by
  obtain ⟨hnone, habove, hleft, hboth, hv, hh, -⟩ := wholeBlockModeFormulas n a l t up left r c hn hr hc
  beta_reduce at hnone habove hleft hboth hv hh
  cases md with
  | dc =>
    obtain ⟨ha0, ha255⟩ := sum_pixels_range ha n
    obtain ⟨hl0, hl255⟩ := sum_pixels_range hl n
    unfold IsPixel
    cases up <;> cases left
    · rw [hnone rfl rfl]; decide
    · rw [hleft rfl rfl]; split <;> omega
    · rw [habove rfl rfl]; split <;> omega
    · rw [hboth rfl rfl]; split <;> omega
  | v => rw [hv]; exact ha c
  | h => rw [hh]; exact hl r
  | tm => exact isPixel_clamp255 _

/-- Two pixels weighted by taps that are not negative and sum to 128, rounded (R203, R205). -/
theorem isPixel_weighted {x y : Int} (hx : IsPixel x) (hy : IsPixel y) {k : Nat} (hk : k < 8) :
    IsPixel ((x * (128 - 16 * k) + y * (16 * k) + 64) / 128) := by
  obtain ⟨hx0, hx255⟩ := hx
  obtain ⟨hy0, hy255⟩ := hy
  have hw : (0 : Int) ≤ 128 - 16 * k := by omega
  have hw' : (0 : Int) ≤ 16 * k := by omega
  have h1 := Int.mul_nonneg hx0 hw
  have h2 := Int.mul_nonneg hy0 hw'
  have h3 := Int.mul_le_mul_of_nonneg_right hx255 hw
  have h4 := Int.mul_le_mul_of_nonneg_right hy255 hw'
  unfold IsPixel
  omega

/-- Settles O50: averages, weighted means and clamped values of pixels are pixels. -/
theorem predictionsArePixels : Obligations.PredictionsArePixels := by
  refine ⟨fun md a l t r c _ _ ha hl ht => ?_, fun n md a l t up left r c hn hr hc ha hl _ => ?_,
    fun ref fx fy r c hfx hfy href => ⟨isPixel_clamp255 _, ?_⟩⟩
  · exact isPixel_pred4 md (isPixel_of_mem_map ha 8) (isPixel_of_mem_map hl 4) ht r c
  · exact isPixel_predN md up left hn hr hc ha hl
  · have hfirst (i j : Int) : IsPixel (bilinearFirst ref fx i j) := isPixel_weighted (href _ _) (href _ _) hfx
    exact isPixel_weighted (hfirst _ _) (hfirst _ _) hfy

end Sys2Proof.Machine

namespace Sys2Proof.Machine

/-! ## Chroma vectors -/

theorem chromaMv_fullPixel (v : Int) : chromaMv true v = chromaMv false v - chromaMv false v % 8 := rfl

theorem chromaMv_of_nonneg {v : Int} (h : 0 ≤ v) : chromaMv false v = (v + 1) / 2 := by
  simp only [chromaMv, if_pos h]
  exact Int.tdiv_eq_ediv_of_nonneg (by omega)

theorem chromaMv_of_neg {v : Int} (h : v < 0) : chromaMv false v = -((1 - v) / 2) := by
  simp only [chromaMv, if_neg (Int.not_le.2 h)]
  rw [show v + -1 = -(1 - v) by omega, Int.neg_tdiv, Int.tdiv_eq_ediv_of_nonneg (by omega)]
  rfl

/-- Settles O54: by the sign of the vector, and the division with remainder by 8. -/
theorem chromaVectorRule : Obligations.ChromaVectorRule := by
  refine ⟨fun v => ⟨chromaMv_of_nonneg, chromaMv_of_neg⟩, fun v => ?_, by decide, by decide⟩
  rw [chromaMv_fullPixel]
  omega

/-! ## A phase of 0 -/

theorem clamp255_of_isPixel {v : Int} (h : IsPixel v) : clamp255 v = v := by
  obtain ⟨h0, h255⟩ := h
  unfold clamp255
  omega

/-- The taps of phase 0 are 128 at the pixel itself (R202). -/
theorem sixTapSum_zero {x : Int → Int} {v : Int} (hx : x 0 = v) (hv : IsPixel v) : sixTapSum 0 x = v := by
  have hsum : x (-2) * 0 + x (-1) * 0 + x 0 * 128 + x 1 * 0 + x 2 * 0 + x 3 * 0 + 64 = v * 128 + 64 := by omega
  calc sixTapSum 0 x
      = clamp255 ((x (-2) * 0 + x (-1) * 0 + x 0 * 128 + x 1 * 0 + x 2 * 0 + x 3 * 0 + 64) / 128) := rfl
    _ = clamp255 v := by rw [hsum, show (v * 128 + 64) / 128 = v by omega]
    _ = v := clamp255_of_isPixel hv

theorem bilinearFirst_zero (ref : Int → Int → Int) (r c : Int) : bilinearFirst ref 0 r c = ref r c := by
  unfold bilinearFirst
  omega

theorem bilinearAt_vertical_zero (ref : Int → Int → Int) (f : Nat) (r c : Int) :
    bilinearAt ref f 0 r c = bilinearFirst ref f r c := by
  unfold bilinearAt
  omega

theorem sixTapAt_vertical_zero (ref : Int → Int → Int) (f : Nat) (r c : Int) :
    sixTapAt ref f 0 r c = sixTapSum f fun j => ref r (c + j) :=
  sixTapSum_zero (by rw [Int.add_zero]) (isPixel_clamp255 _)

theorem sixTapAt_horizontal_zero {ref : Int → Int → Int} (href : ∀ i j : Int, IsPixel (ref i j)) (f : Nat) (r c : Int) :
    sixTapAt ref 0 f r c = sixTapSum f fun i => ref (r + i) c :=
  congrArg (sixTapSum f) (funext fun _ => sixTapSum_zero (by rw [Int.add_zero]) (href _ _))

/-- Settles O53: the tables, and each direction by its phase 0. -/
theorem phaseZeroIsIdentity : Obligations.PhaseZeroIsIdentity := by
  refine ⟨by decide, by decide, fun ref f r c href _ => ⟨?_, sixTapAt_vertical_zero ref f r c,
    sixTapAt_horizontal_zero href f r c, ?_, bilinearAt_vertical_zero ref f r c, ?_⟩⟩
  · rw [sixTapAt_vertical_zero, sixTapSum_zero (by rw [Int.add_zero]) (href r c)]
  · rw [bilinearAt_vertical_zero, bilinearFirst_zero]
  · rw [bilinearAt, bilinearFirst_zero, bilinearFirst_zero]

/-! ## The passes of the two filters -/

theorem at2_map_range (f : Nat → Nat → Int) {rows cols r c : Nat} (hr : r < rows) (hc : c < cols) :
    at2 ((List.range rows).map fun r => (List.range cols).map fun c => f r c) r c = f r c := by
  have hrow : ((List.range rows).map fun r => (List.range cols).map fun c => f r c).getD r [] =
      (List.range cols).map (f r) := by
    rw [List.getD_eq_getElem _ _ (by simpa using hr), List.getElem_map, List.getElem_range]
  rw [at2, hrow, getD_map_range _ hc]

/-- A pixel of the window that begins at row r0, column c0 is the reference at that offset (R204). -/
theorem at2_window (m : Memory) (base stride : Word) (r0 c0 : Int) {rows cols r c : Nat} (hr : r < rows)
    (hc : c < cols) :
    at2 (Memory.window m base stride r0 c0 rows cols) r c = refPixel m base stride (r0 + (r : Nat)) (c0 + (c : Nat)) :=
  at2_map_range _ hr hc

/-- The sum over a list of six taps is the sum of R204, offset k - 2 for tap k. -/
theorem sixTap1_eq_sixTapSum (phase : Nat) {x : Nat → Int} {y : Int → Int} (h : ∀ k : Nat, k < 6 → x k = y (-2 + k)) :
    sixTap1 (sixTapTaps phase) x = sixTapSum phase y := by
  have hx : (List.range 6).map (fun k => x k * (sixTapTaps phase).getD k 0) =
      (List.range 6).map fun k => y (-2 + (k : Nat)) * (sixTapTaps phase).getD k 0 :=
    List.map_congr_left fun k hk => by rw [h k (List.mem_range.1 hk)]
  rw [sixTap1, hx, sixTapSum]
  simp [List.range_succ, shr, add_assoc]

/-- SixTap of a window is the two nested sums of R204. -/
theorem sixTapPixel_sixTapRows (m : Memory) (base stride : Word) (fx fy : Nat) {w h r c : Nat} (hr : r < h) (hc : c < w) :
    sixTapPixel (sixTapRows (Memory.window m base stride (-2) (-2) (h + 5) (w + 5)) w h fx) fy r c =
      sixTapAt (refPixel m base stride) fx fy r c := by
  refine sixTap1_eq_sixTapSum fy fun i hi => ?_
  rw [sixTapRows, at2_map_range _ (by omega) hc]
  refine sixTap1_eq_sixTapSum fx fun j hj => ?_
  rw [at2_window m base stride _ _ (by omega) (by omega), show (-2 : Int) + ((r + i : Nat) : Int) = r + (-2 + i) by omega,
    show (-2 : Int) + ((c + j : Nat) : Int) = c + (-2 + j) by omega]

theorem at2_bilinearRows (m : Memory) (base stride : Word) (fx : Nat) {w h r c : Nat} (hr : r < h + 1) (hc : c < w) :
    at2 (bilinearRows (Memory.window m base stride 0 0 (h + 1) (w + 1)) w h fx) r c =
      bilinearFirst (refPixel m base stride) fx r c := by
  rw [bilinearRows, at2_map_range _ hr hc, at2_window m base stride _ _ hr (by omega),
    at2_window m base stride _ _ hr (by omega), Int.zero_add, Int.zero_add, Int.zero_add]
  rfl

/-- Bilinear of a window is the two passes of R205. -/
theorem bilinearPixel_bilinearRows (m : Memory) (base stride : Word) (fx fy : Nat) {w h r c : Nat} (hr : r < h)
    (hc : c < w) :
    bilinearPixel (bilinearRows (Memory.window m base stride 0 0 (h + 1) (w + 1)) w h fx) fy r c =
      bilinearAt (refPixel m base stride) fx fy r c := by
  rw [bilinearPixel, at2_bilinearRows m base stride fx (by omega) hc, at2_bilinearRows m base stride fx (by omega) hc]
  rfl

/-! ## MC_PRED -/

section
variable {o : McOperands} (m : Memory) (stride : Word) {r c : Nat} (hr : r < o.height) (hc : c < o.width)
include hr hc

theorem McOperands.predict_copy (hpath : o.path = .copy) : o.predict m stride r c = refPixel m o.base stride r c := by
  simp only [McOperands.predict, hpath]
  rw [at2_window m o.base stride 0 0 hr hc, Int.zero_add, Int.zero_add]

theorem McOperands.predict_sixTap (hpath : o.path = .sixTap) :
    o.predict m stride r c = sixTapAt (refPixel m o.base stride) o.fx o.fy r c := by
  simp only [McOperands.predict, hpath]
  exact sixTapPixel_sixTapRows m o.base stride o.fx o.fy hr hc

theorem McOperands.predict_bilinear (hpath : o.path = .bilinear) :
    o.predict m stride r c = bilinearAt (refPixel m o.base stride) o.fx o.fy r c := by
  simp only [McOperands.predict, hpath]
  exact bilinearPixel_bilinearRows m o.base stride o.fx o.fy hr hc

end

/-- The size of the block of MC_PRED by its number (R200). -/
theorem getElem_mcSizes : ∀ size : BitVec 2, [(4, 4), (8, 4), (8, 8), (16, 16)][size.toNat]? = some (mcSize size) := by
  decide

theorem exec_mcPred (size : BitVec 2) (chroma : Bool) (s : State) :
    exec (.mcPred size chroma) s = complete s (s.guarded (s.mcFootprint size chroma)
      (s.storeBlock (s.arg 3) (s.arg 4) (s.mcOperands size chroma).width (s.mcOperands size chroma).height
        ((s.mcOperands size chroma).predict s.mem (s.arg 1)))) := rfl

/-- Settles O52: the command stores Q of its path behind the check of its footprint. -/
theorem mcPredPredicts : Obligations.McPredPredicts := by
  intro size chroma s hadm
  obtain ⟨t, hexec, hframe, hstores⟩ := exec_storeBlock (exec_mcPred size chroma s) hadm
  have hvector := s.mcVector_eq chroma
  refine ⟨t, (mcSize size).1, (mcSize size).2, (s.mcVector chroma).1, (s.mcVector chroma).2, getElem_mcSizes size,
    congrArg Prod.fst hvector, congrArg Prod.snd hvector, hexec, hframe, ?copy, ?sixTap, ?bilinear⟩
  case copy =>
    intro hfx hfy
    exact hstores.congr fun r c hr hc => McOperands.predict_copy _ _ hr hc (if_pos ⟨hfx, hfy⟩)
  case sixTap =>
    intro hfrac hinterp
    have hpath : (s.mcOperands size chroma).path = .sixTap :=
      (if_neg hfrac).trans (if_neg (by rw [State.interp, hinterp]; decide))
    exact hstores.congr fun r c hr hc => McOperands.predict_sixTap _ _ hr hc hpath
  case bilinear =>
    intro hfrac hinterp
    exact hstores.congr fun r c hr hc => McOperands.predict_bilinear _ _ hr hc ((if_neg hfrac).trans (if_pos hinterp))

end Sys2Proof.Machine

namespace Sys2Proof.Machine

/-! ## Edges, position after position -/

/-- A position writes the new pixels of its write range in ascending order of the offsets (R227). -/
theorem EdgeJob.positionWrites_eq (e : EdgeJob) (m : Memory) (i : Nat) :
    e.positionWrites m i = (List.range (writeOffsets e.kind).length).map fun j =>
      (e.addr i ((writeOffsets e.kind).getD j 0), (e.filter fun k => Memory.read m (e.addr i k)).getD j 0#8) := by
  obtain ⟨dir, kind, start, pitch, count, limit, blimit, thresh⟩ := e
  cases kind <;> rfl

/-- The writes of a position filter it: the last of those at a byte counts, and no other byte changes. -/
theorem EdgeJob.filters_positionWrites (e : EdgeJob) (m : Memory) (i : Nat) :
    e.Filters i m (Memory.writeAll m (e.positionWrites m i)) := by
  refine ⟨fun j hj last => ?_, fun a ha => Memory.read_writeAll_of_not_mem _ _ _ fun hmem => ?_⟩
  · rw [e.positionWrites_eq]
    exact Memory.read_writeAll_range (fun j => e.addr i ((writeOffsets e.kind).getD j 0))
      (fun j => (e.filter fun k => Memory.read m (e.addr i k)).getD j 0#8) m _ j hj
      fun j' hj' heq => Nat.not_lt.1 fun hlt => last j' hlt hj' heq
  · obtain ⟨w, hw, rfl⟩ := List.mem_map.1 hmem
    obtain ⟨k, hk, haddr⟩ := List.mem_map.1 (List.of_mem_zip hw).1
    exact ha k hk haddr

/-- Memory after the first n positions of the edge (R227). -/
def EdgeJob.afterPositions (e : EdgeJob) (m : Memory) (n : Nat) : Memory :=
  (List.range n).foldl (fun m i => Memory.writeAll m (e.positionWrites m i)) m

theorem EdgeJob.afterPositions_succ (e : EdgeJob) (m : Memory) (n : Nat) :
    e.afterPositions m (n + 1) =
      Memory.writeAll (e.afterPositions m n) (e.positionWrites (e.afterPositions m n) n) := by
  rw [afterPositions, List.range_succ, List.foldl_append]; rfl

/-- An edge that is run is filtered position after position (R227). -/
theorem EdgeJob.done_run (e : EdgeJob) (m : Memory) : e.Done m (e.run m) :=
  ⟨e.afterPositions m, rfl, rfl, fun i _ => by rw [e.afterPositions_succ]; exact e.filters_positionWrites _ i⟩

/-- The bytes an edge writes, by position and offset (R225, R226). -/
theorem EdgeJob.mem_written {e : EdgeJob} {a : Addr} :
    a ∈ e.written ↔ ∃ (i : Nat) (k : Int), i < e.count ∧ k ∈ writeOffsets e.kind ∧ e.addr i k = a := by
  simp only [EdgeJob.written, List.mem_flatMap, List.mem_map, List.mem_range]
  exact ⟨fun ⟨i, hi, k, hk, h⟩ => ⟨i, k, hi, hk, h⟩, fun ⟨i, k, hi, hk, h⟩ => ⟨i, hi, k, hk, h⟩⟩

/-- A byte that no step of a run of memories changes is at its end as at its start. -/
theorem Memory.read_eq_of_steps {run : Nat → Memory} {a : Addr} {n : Nat}
    (h : ∀ i : Nat, i < n → Memory.read (run (i + 1)) a = Memory.read (run i) a) :
    Memory.read (run n) a = Memory.read (run 0) a := by
  induction n with
  | zero => rfl
  | succ n ih => exact (h n (Nat.lt_succ_self n)).trans (ih fun i hi => h i (Nat.lt_succ_of_lt hi))

/-- The frame of an edge: every byte outside its write range is unchanged (R226). -/
theorem EdgeJob.Done.read_of_not_mem_written {e : EdgeJob} {m m' : Memory} (h : e.Done m m') {a : Addr}
    (ha : a ∉ e.written) : Memory.read m' a = Memory.read m a := by
  obtain ⟨run, rfl, rfl, hrun⟩ := h
  exact Memory.read_eq_of_steps fun i hi =>
    (hrun i hi).2 a fun k hk haddr => ha (EdgeJob.mem_written.2 ⟨i, k, hi, hk, haddr⟩)

theorem runEdges_take_succ {es : List EdgeJob} {i : Nat} {e : EdgeJob} (he : es[i]? = some e) (m : Memory) :
    runEdges (es.take (i + 1)) m = e.run (runEdges (es.take i) m) := by
  rw [runEdges, List.take_add_one, he, List.foldl_append]; rfl

/-- Edges that are run are filtered one after another (R230). -/
theorem edgesDone_runEdges (es : List EdgeJob) (m : Memory) : EdgesDone es m (runEdges es m) := by
  refine ⟨fun i => runEdges (es.take i) m, rfl, congrArg (runEdges · m) es.take_length, fun i e he => ?_⟩
  beta_reduce
  rw [runEdges_take_succ he]
  exact e.done_run _

/-- The frame of a list of edges: every byte outside their write ranges is unchanged. -/
theorem EdgesDone.read_of_not_mem_written {es : List EdgeJob} {m m' : Memory} (h : EdgesDone es m m') {a : Addr}
    (ha : ∀ e ∈ es, a ∉ e.written) : Memory.read m' a = Memory.read m a := by
  obtain ⟨run, rfl, rfl, hrun⟩ := h
  exact Memory.read_eq_of_steps fun i hi =>
    (hrun i es[i] (List.getElem?_eq_getElem hi)).read_of_not_mem_written (ha _ (List.getElem_mem hi))

/-! ## LF_EDGE -/

/-- KIND of LF_EDGE by its number (R228). -/
theorem edgeKindOf_eq : ∀ kind : BitVec 2, edgeKindOf kind = [EdgeKind.mb, .inner, .simple][kind.toNat]? := by decide

/-- LF_EDGE runs its edge behind the check of its footprint (R228). -/
theorem exec_lfEdge {s : State} {dir : Bool} {kind : BitVec 2} {cnt : Bool} {e : EdgeJob}
    (he : s.lfEdgeJob dir kind cnt = some e) :
    exec (.lfEdge dir kind cnt) s = complete s (s.guarded (s.footprintOf (.lfEdge dir kind cnt))
      { s with mem := e.run s.mem }) := by
  show execLfEdge dir kind cnt s = _
  simp only [execLfEdge, State.footprintOf, he, Option.map_some, Option.getD_some]

/-- LF_EDGE of a legal kind with an admitted footprint filters its edge and changes nothing else. -/
theorem exec_lfEdge_of_admitted {s : State} {dir : Bool} {kind : BitVec 2} {cnt : Bool} {e : EdgeJob}
    (he : s.lfEdgeJob dir kind cnt = some e)
    (hadm : ∀ a ∈ s.footprintOf (.lfEdge dir kind cnt), s.admits a = true) :
    ∃ t : State, exec (.lfEdge dir kind cnt) s = .next t ∧
      t = { s with mem := t.mem, done := true, busy := false } ∧ e.Done s.mem t.mem :=
  ⟨_, exec_of_admitted (exec_lfEdge he) hadm, rfl, e.done_run s.mem⟩

/-- Settles O58: the edge is run behind the check of its footprint; addresses, ranges and filters by direction and kind. -/
theorem lfEdgeFiltersTheEdge : Obligations.LfEdgeFiltersTheEdge := by
  refine ⟨fun dir kind cnt s hkind hadm => ?_, ⟨rfl, rfl, rfl, rfl, rfl, rfl⟩, fun e => ⟨fun i k => ⟨?h, ?v⟩,
    fun a => EdgeJob.mem_written, fun x => ⟨?mb, ?inner, ?simple⟩⟩⟩
  · obtain ⟨k, hk⟩ := Option.isSome_iff_exists.1 (edgeKindOf_of_legal kind (by omega))
    obtain ⟨t, hexec, hframe, hdone⟩ := exec_lfEdge_of_admitted (congrArg (Option.map _) hk) hadm
    exact ⟨t, _, k, hexec, hframe, (edgeKindOf_eq kind).symm.trans hk, rfl, hdone,
      fun a => hdone.read_of_not_mem_written⟩
  case h => intro hdir; rw [e.addr_eq, hdir]; rfl
  case v => intro hdir; rw [e.addr_eq, hdir]; rfl
  case mb => intro hkind; exact ⟨_, _, _, _, _, _, by rw [EdgeJob.filter, hkind]; rfl, rfl⟩
  case inner => intro hkind; exact ⟨_, _, _, _, by rw [EdgeJob.filter, hkind]; rfl, rfl⟩
  case simple => intro hkind; exact ⟨_, _, by rw [EdgeJob.filter, hkind]; rfl, rfl⟩

/-! ## LF_MB -/

/-- A mode of LF_MB by its number: its class (R232), and whether its interior edges are filtered (R230). -/
theorem mbModeOf_class_inner : ∀ (mode : BitVec 4) (skip : Bool), mode.toNat ≤ 9 →
    (mbModeOf mode).map (fun md => (modeClass md, innerFiltered md skip)) =
      some ([1, 1, 1, 1, 0, 2, 2, 1, 2, 3].getD mode.toNat 0,
        !skip || decide (mode = 4#4) || decide (mode = 9#4)) := by decide

/-- An inter mode exactly with an inter reference passes both checks of LF_MB (R230). -/
theorem lfMb_fieldError_of_legal {seg ref : BitVec 2} {mode : BitVec 4} {skip top leftMb : Bool} :
    mode.toNat ≤ 9 → (ref = 0#2 ↔ mode.toNat ≤ 4) → (Instr.lfMb seg ref mode skip top leftMb).fieldError = none := by
  revert ref mode; simp only [Instr.fieldError]; decide

section
variable {s : State} {seg ref : BitVec 2} {mode : BitVec 4} {skip top leftMb : Bool}

/-- No edges at level 0, else those of the filter CTRL.LF_TYPE selects (R230). -/
theorem State.edgesOfMb_eq (hmode : mode.toNat ≤ 9) {lvl : Nat} {inner : Bool}
    (hlvl : s.lvlAt seg.toNat ref.toNat ([1, 1, 1, 1, 0, 2, 2, 1, 2, 3].getD mode.toNat 0) = lvl)
    (hinner : (!skip || decide (mode = 4#4) || decide (mode = 9#4)) = inner) :
    s.edgesOfMb seg ref mode skip top leftMb =
      if lvl = 0 then []
      else if s.ctrl.getLsbD 4 then s.simpleEdges lvl inner top leftMb else s.normalEdges lvl inner top leftMb := by
  obtain ⟨md, hmd, hpair⟩ := Option.map_eq_some_iff.1 (mbModeOf_class_inner mode skip hmode)
  obtain ⟨hclass, hin⟩ := Prod.mk.inj hpair
  rw [State.edgesOfMb, hmd, ← hlvl, ← hinner, ← hclass, ← hin]
  rfl

/-- LF_MB runs its edges behind the check of their footprints (R230). -/
theorem exec_lfMb (hfields : (Instr.lfMb seg ref mode skip top leftMb).fieldError = none) :
    exec (.lfMb seg ref mode skip top leftMb) s = complete s (s.guarded
      (s.footprintOf (.lfMb seg ref mode skip top leftMb))
      { s with mem := runEdges (s.edgesOfMb seg ref mode skip top leftMb) s.mem }) := by
  obtain ⟨md, hmd, hintra⟩ := Option.map_eq_some_iff.1 (mbModeOf_of_legal ref mode hfields)
  show execLfMb seg ref mode skip top leftMb s = _
  simp only [execLfMb, State.footprintOf, State.edgesOfMb, hmd, hintra, Bool.false_eq_true, if_false]

end

/-- Settles O59: the edges are run behind the check of their footprints; at level 0 there are none. -/
theorem lfMbFiltersItsEdges : Obligations.LfMbFiltersItsEdges := by
  intro seg ref mode skip top leftMb s hmode href es hadm
  have hfp : ∀ a ∈ es.flatMap EdgeJob.footprint, s.admits a = true := fun a ha => by
    obtain ⟨e, he, hae⟩ := List.mem_flatMap.1 ha
    exact hadm e he a hae
  have hdone := edgesDone_runEdges es s.mem
  refine ⟨_, exec_of_admitted (exec_lfMb (lfMb_fieldError_of_legal hmode href)) hfp, rfl, hdone,
    fun a => hdone.read_of_not_mem_written, fun hlvl => ?_⟩
  have hnil : es = [] := (State.edgesOfMb_eq hmode hlvl rfl).trans (if_pos rfl)
  exact ⟨hnil, congrArg (fun es => runEdges es s.mem) hnil⟩

/-! ## The edges of LF_MB -/

/-- A pixel address is computed in 32 bits (R12). -/
theorem pixAddr_eq (base stride : Word) (r c : Int) :
    pixAddr base stride r c = base + BitVec.ofInt 32 r * stride + BitVec.ofInt 32 c := by
  simp only [pixAddr, toAddr, BitVec.ofInt_add, BitVec.ofInt_mul, BitVec.ofInt_natCast, BitVec.ofNat_toNat,
    BitVec.setWidth_eq]

theorem pixAddr_first_row (base stride : Word) (c : Int) : pixAddr base stride 0 c = base + BitVec.ofInt 32 c := by
  rw [pixAddr_eq, show BitVec.ofInt 32 0 = 0#32 from rfl, BitVec.zero_mul, BitVec.add_zero]

theorem pixAddr_first_col (base stride : Word) (r : Int) :
    pixAddr base stride r 0 = base + BitVec.ofInt 32 r * stride := by
  rw [pixAddr_eq, show BitVec.ofInt 32 0 = 0#32 from rfl, BitVec.add_zero]

/-- Settles O60: no edges at level 0, and the lists of the two filters with their addresses in 32 bits. -/
theorem lfMbEdgeList : Obligations.LfMbEdgeList := by
  intro seg ref mode skip top leftMb s hmode lvl inner es Y U V YS CS t only M B S
  have hes : es = _ := State.edgesOfMb_eq hmode rfl rfl
  refine ⟨fun h0 => ?none, fun hne hnormal => ?normal, fun hne hsimple => ?simple⟩
  case none => rw [hes, if_pos h0]
  case normal =>
    rw [hes, if_neg hne, if_neg (by rw [hnormal]; decide)]
    simp only [State.normalEdges, pixAddr_first_row, pixAddr_first_col]
    rfl
  case simple =>
    rw [hes, if_neg hne, if_pos hsimple]
    simp only [State.simpleEdges, pixAddr_first_row, pixAddr_first_col]
    rfl

/-! ## The limit tables -/

/-- The shifts of R231 as divisions. -/
theorem limOf_eq (sh l : Nat) :
    limOf sh l =
      let b0 := if sh = 0 then l else if sh ≤ 4 then l / 2 else l / 4
      max (if 0 < sh ∧ 9 - sh < b0 then 9 - sh else b0) 1 := by
  have hshift : l >>> (if sh > 0 then 1 else 0) >>> (if sh > 4 then 1 else 0) =
      if sh = 0 then l else if sh ≤ 4 then l / 2 else l / 4 := by
    split_ifs <;> simp only [Nat.shiftRight_eq_div_pow] <;> omega
  simp only [limOf, hshift]
  generalize (if sh = 0 then l else if sh ≤ 4 then l / 2 else l / 4) = b0
  split_ifs <;> omega

theorem limOf_le {l : Nat} (hl : l ≤ 63) (sh : Nat) : limOf sh l ≤ 63 := by
  rw [limOf_eq]
  simp only
  split_ifs <;> omega

/-- An entry of a table of limits, each of which fits in a u8. -/
theorem toNat_getD_tabulate_limit {f : Nat → Nat} {l : Nat} (hl : l < 64) (hf : f l ≤ 255) :
    ((tabulate 64 fun l => BitVec.ofNat 8 (f l)).getD l 0#8).toNat = f l := by
  rw [tabulate_getD, if_pos hl, BitVec.toNat_ofNat, Nat.mod_eq_of_lt (by omega)]

/-- The three limits of a level (R231). -/
theorem limTables_getD (sh : Nat) {l : Nat} (hl : l < 64) :
    ((limTable sh).getD l 0#8).toNat = limOf sh l ∧ ((blimTable sh).getD l 0#8).toNat = 2 * l + limOf sh l ∧
      ((mblimTable sh).getD l 0#8).toNat = 2 * (l + 2) + limOf sh l := by
  have hle := limOf_le (Nat.le_of_lt_succ hl) sh
  exact ⟨toNat_getD_tabulate_limit hl (by omega),
    toNat_getD_tabulate_limit (f := blimOf sh) hl (by rw [blimOf]; omega),
    toNat_getD_tabulate_limit (f := mblimOf sh) hl (by rw [mblimOf]; omega)⟩

/-- Settles O55: the entries of the tables, and the bound of their common term. -/
theorem limitTables : Obligations.LimitTables := by
  intro sh l hsh hl b0 b1 b
  have hb : limOf sh l = b := limOf_eq sh l
  obtain ⟨hlim, hblim, hmblim⟩ := limTables_getD sh (Nat.lt_succ_of_le hl)
  have hle := limOf_le hl sh
  rw [hb] at hlim hblim hmblim hle
  exact ⟨hlim, hblim, hmblim, by omega⟩

/-! ## LF_FRAME_INIT -/

/-- s with the filter tables of its configuration, what LF_FRAME_INIT computes (R240). -/
def State.withFilterTables (s : State) : State :=
  { (if s.sharpness ≠ s.lastSharp then s.rebuildLimits else s) with
    lvl := tabulate 64 fun n => byte (s.levelOf (n / 16) (n / 4 % 4) (n % 4)) }

theorem exec_lfFrameInit (s : State) : exec .lfFrameInit s = .next s.withFilterTables.finish := rfl

theorem State.withFilterTables_same {s : State} (h : s.sharpness = s.lastSharp) :
    s.withFilterTables = { s with lvl := s.withFilterTables.lvl } := by
  rw [State.withFilterTables, if_neg (not_not_intro h)]

theorem State.withFilterTables_changed {s : State} (h : s.sharpness ≠ s.lastSharp) :
    s.withFilterTables = { s.rebuildLimits with lvl := s.withFilterTables.lvl } := by
  rw [State.withFilterTables, if_pos h]

/-- LVL holds the level of R241 at every segment, reference and class. -/
theorem State.lvlAt_withFilterTables (s : State) {g f m : Nat} (hg : g < 4) (hf : f < 4) (hm : m < 4) :
    (s.withFilterTables.lvlAt g f m : Int) = s.levelOf g f m := by
  obtain ⟨h0, h63⟩ := s.levelOf_range g f m
  obtain ⟨hdiv, hmid, hmod⟩ : (16 * g + 4 * f + m) / 16 = g ∧ (16 * g + 4 * f + m) / 4 % 4 = f ∧
      (16 * g + 4 * f + m) % 4 = m := by omega
  rw [State.lvlAt, State.withFilterTables, tabulate_getD, if_pos (by omega), hdiv, hmid, hmod,
    byte_toNat_of_range h0 (by omega)]

section
variable {s : State} (g : Nat)

theorem State.levelOf_without_deltas (h : s.deltaEn = false) (f m : Nat) : s.levelOf g f m = s.segLevel g := by
  rw [State.levelOf, h]; rfl

variable (h : s.deltaEn = true)
include h

/-- The intra levels by class (R241). -/
theorem State.levelOf_intra :
    s.levelOf g 0 0 = c63 (s.segLevel g + s.refDelta 0 + s.modeDelta 0) ∧
      s.levelOf g 0 1 = c63 (s.segLevel g + s.refDelta 0) ∧ s.levelOf g 0 2 = 0 ∧ s.levelOf g 0 3 = 0 := by
  simp [State.levelOf, h]

theorem State.levelOf_inter_zero {f : Nat} (hf : 1 ≤ f) : s.levelOf g f 0 = 0 := by
  simp [State.levelOf, h, Nat.ne_of_gt hf]

theorem State.levelOf_inter {f m : Nat} (hf : 1 ≤ f) (hm : 1 ≤ m) :
    s.levelOf g f m = c63 (s.segLevel g + s.refDelta f + s.modeDelta m) := by
  simp [State.levelOf, h, Nat.ne_of_gt hf, Nat.ne_of_gt hm]

end

/-- Settles O56: the tables by whether the sharpness changed, the levels by DELTA_EN, reference and class. -/
theorem lfFrameInitBuildsTables : Obligations.LfFrameInitBuildsTables := by
  intro s
  refine ⟨_, exec_lfFrameInit s, ?frame, ?sharp, fun hsame => ?same, fun hchanged l hl => ?changed,
    fun g hg => ⟨fun hoff f m hf hm => ?off, fun hon => ?on⟩⟩
  case frame =>
    by_cases h : s.sharpness = s.lastSharp
    · rw [State.withFilterTables_same h]; rfl
    · rw [State.withFilterTables_changed h]; rfl
  case sharp =>
    by_cases h : s.sharpness = s.lastSharp
    · rw [State.withFilterTables_same h]; exact h.symm
    · rw [State.withFilterTables_changed h]; rfl
  case same => rw [State.withFilterTables_same hsame]; exact ⟨rfl, rfl, rfl⟩
  case changed => rw [State.withFilterTables_changed hchanged]; exact limTables_getD s.sharpness.toNat hl
  case off => exact (s.lvlAt_withFilterTables hg hf hm).trans (State.levelOf_without_deltas g hoff f m)
  case on =>
    have hlvl {f m : Nat} (hf : f < 4) (hm : m < 4) := s.lvlAt_withFilterTables hg hf hm
    obtain ⟨h00, h01, h02, h03⟩ := State.levelOf_intra g hon
    refine ⟨(hlvl (by decide) (by decide)).trans h00, (hlvl (by decide) (by decide)).trans h01,
      Int.ofNat.inj ((hlvl (by decide) (by decide)).trans h02),
      Int.ofNat.inj ((hlvl (by decide) (by decide)).trans h03), fun f hf1 hf => ⟨?_, fun m hm1 hm => ?_⟩⟩
    · exact Int.ofNat.inj ((hlvl hf (by decide)).trans (State.levelOf_inter_zero g hon hf1))
    · exact (hlvl hf hm).trans (State.levelOf_inter g hon hf1 hm1)

/-! ## The pixel filters on integers -/

@[simp] theorem sclamp_toSigned (x : Byte) : sclamp (toSigned x) = toSigned x := by
  have := x.isLt
  rw [toSigned_eq, sclamp]
  omega

/-- A saturated value that is stored reads back as itself (R220). -/
theorem toSigned_toUnsigned_sclamp (v : Int) : toSigned (toUnsigned (sclamp v)) = sclamp v := by
  rw [toSigned_eq, toUnsigned_sclamp]
  omega

/-- A pixel that is stored again is unchanged (R220). -/
@[simp] theorem toUnsigned_toSigned (x : Byte) : toUnsigned (toSigned x) = x := by
  have hstored := toUnsigned_sclamp (toSigned x)
  rw [sclamp_toSigned] at hstored
  have hx := toSigned_eq x
  exact BitVec.eq_of_toNat_eq (by omega)

@[simp] theorem masked_false (v : Int) : masked false v = 0 := rfl

@[simp] theorem masked_zero (mask : Bool) : masked mask 0 = 0 := ite_self 0

/-- The roundings of R222 to R224 leave a filter value of 0 at 0. -/
@[simp] theorem rounded_zero :
    shr (sclamp 4) 3 = 0 ∧ shr (sclamp 3) 3 = 0 ∧ shr 1 1 = 0 ∧ sclamp (shr 63 7) = 0 := by decide

section
variable (hev : Bool) (p2 p1 p0 q0 q1 q2 : Byte)

/-- With mask 0 every output of the filter of inner edges equals its input (R222). -/
theorem innerFilter_unmasked : innerFilter false hev p1 p0 q0 q1 = (p1, p0, q0, q1) := by
  simp [innerFilter]

/-- With mask 0 every output of the filter of macroblock edges equals its input (R223). -/
theorem mbFilter_unmasked : mbFilter false hev p2 p1 p0 q0 q1 q2 = (p2, p1, p0, q0, q1, q2) := by
  simp [mbFilter]

/-- Past the edge limit the simple filter changes nothing (R224). -/
theorem simpleFilter_unmasked {blimit : Nat} (h : edgeTest blimit p1 p0 q0 q1 = false) :
    simpleFilter blimit p1 p0 q0 q1 = (p0, q0) := by
  simp [simpleFilter, h]

/-- With hev set only p0 and q0 move across an inner edge (R222). -/
theorem innerFilter_hev (mask : Bool) : ∃ b x : Byte, innerFilter mask true p1 p0 q0 q1 = (p1, b, x, q1) := by
  simp [innerFilter]

/-- With hev set only p0 and q0 move across a macroblock edge (R223). -/
theorem mbFilter_hev (mask : Bool) :
    ∃ b x : Byte, mbFilter mask true p2 p1 p0 q0 q1 q2 = (p2, p1, b, x, q1, q2) := by
  simp [mbFilter]

end

/-- FilterMask is the conjunction of its seven comparisons (R221). -/
theorem filterMask_iff (limit blimit : Nat) (p3 p2 p1 p0 q0 q1 q2 q3 : Byte) :
    filterMask limit blimit p3 p2 p1 p0 q0 q1 q2 q3 = true ↔
      absDiff p3 p2 ≤ limit ∧ absDiff p2 p1 ≤ limit ∧ absDiff p1 p0 ≤ limit ∧ absDiff q1 q0 ≤ limit ∧
        absDiff q2 q1 ≤ limit ∧ absDiff q3 q2 ≤ limit ∧ absDiff p0 q0 * 2 + absDiff p1 q1 / 2 ≤ blimit := by
  simp only [filterMask, Bool.and_eq_true, decide_eq_true_eq, edgeTest_iff, and_assoc]

theorem hevMask_iff (thresh : Nat) (p1 p0 q0 q1 : Byte) :
    hevMask thresh p1 p0 q0 q1 = true ↔ thresh < absDiff p1 p0 ∨ thresh < absDiff q1 q0 := by
  simp only [hevMask, Bool.or_eq_true, decide_eq_true_eq]

/-- Settles O57: what each filter stores is a saturated value; a mask of 0 makes every adjustment 0. -/
theorem pixelFiltersFollowTheRules : Obligations.PixelFiltersFollowTheRules := by
  intro p3 p2 p1 p0 q0 q1 q2 q3 mask hev limit blimit thresh d sg sc only
  have hsg (x : Byte) : sg x = toSigned x := (toSigned_eq x).symm
  have stored := toSigned_toUnsigned_sclamp
  simp only [hsg]
  refine ⟨filterMask_iff limit blimit p3 p2 p1 p0 q0 q1 q2 q3, hevMask_iff thresh p1 p0 q0 q1,
    ⟨_, _, _, _, rfl, ⟨stored _, stored _, stored _, stored _⟩, fun hmask => ?innerMask, fun hhev => ?innerHev⟩,
    ⟨_, _, _, _, _, _, rfl, ⟨stored _, stored _, stored _, stored _, stored _, stored _⟩, fun hmask => ?mbMask,
      fun hhev => ?mbHev⟩,
    ⟨_, _, rfl, ⟨stored _, stored _⟩, fun hfar => ?simpleMask⟩⟩
  case innerMask =>
    subst hmask
    simpa only [innerFilter, Prod.mk.injEq] using innerFilter_unmasked hev p1 p0 q0 q1
  case innerHev =>
    subst hhev
    obtain ⟨b, x, h⟩ := innerFilter_hev p1 p0 q0 q1 mask
    exact ⟨congrArg (·.1) h, congrArg (·.2.2.2) h⟩
  case mbMask =>
    subst hmask
    simpa only [mbFilter, Prod.mk.injEq] using mbFilter_unmasked hev p2 p1 p0 q0 q1 q2
  case mbHev =>
    subst hhev
    obtain ⟨b, x, h⟩ := mbFilter_hev p2 p1 p0 q0 q1 q2 mask
    exact ⟨congrArg (·.1) h, congrArg (·.2.1) h, congrArg (·.2.2.2.2.1) h, congrArg (·.2.2.2.2.2) h⟩
  case simpleMask =>
    have htest : edgeTest blimit p1 p0 q0 q1 = false := decide_eq_false (Nat.not_le.2 hfar)
    exact Prod.mk.inj (simpleFilter_unmasked p1 p0 q0 q1 htest)

end Sys2Proof.Machine

namespace Sys2Proof.Machine

/-! ## A command is blind to DONE, CMD_ERR and ERR_CODE -/

/-- s with other values of DONE, CMD_ERR and ERR_CODE. -/
def State.withStatus (s : State) (d c : Bool) (e : BitVec 4) : State := { s with done := d, cmdErr := c, errCode := e }

/-- What f computes from s is blind to DONE, CMD_ERR and ERR_CODE: it fails with the same error, or hands the three
values on (R263). -/
def StatusBlind (f : State → Except CmdError State) : Prop :=
  ∀ (s : State) (d c : Bool) (e : BitVec 4), f (s.withStatus d c e) = (f s).map (·.withStatus d c e)

theorem statusBlind_error (err : CmdError) : StatusBlind fun _ => .error err := fun _ _ _ _ => rfl

theorem statusBlind_ok {u : State → State}
    (hu : ∀ s d c e, u (State.withStatus s d c e) = (u s).withStatus d c e := by exact fun _ _ _ _ => rfl) :
    StatusBlind fun s => .ok (u s) :=
  fun s d c e => congrArg Except.ok (hu s d c e)

/-- A choice by a condition the three values do not reach. -/
theorem StatusBlind.ite {p : State → Prop} [∀ s, Decidable (p s)] {f g : State → Except CmdError State}
    (hf : StatusBlind f) (hg : StatusBlind g)
    (hp : ∀ s d c e, p (State.withStatus s d c e) ↔ p s := by exact fun _ _ _ _ => Iff.rfl) :
    StatusBlind fun s => if p s then f s else g s := by
  intro s d c e
  by_cases h : p s
  · simpa only [if_pos h, if_pos ((hp s d c e).2 h)] using hf s d c e
  · simpa only [if_neg h, if_neg (mt (hp s d c e).1 h)] using hg s d c e

/-- The check of a footprint reads ADMIT alone. -/
theorem statusBlind_guarded {fp : State → List Addr} {u : State → State}
    (hfp : ∀ s d c e, fp (State.withStatus s d c e) = fp s := by exact fun _ _ _ _ => rfl)
    (hu : ∀ s d c e, u (State.withStatus s d c e) = (u s).withStatus d c e := by exact fun _ _ _ _ => rfl) :
    StatusBlind fun s => s.guarded (fp s) (u s) :=
  StatusBlind.ite (statusBlind_ok hu) (statusBlind_error _) fun s d c e => by rw [hfp]; rfl

theorem State.storeBlock_withStatus (s : State) (base stride : Word) (w h : Nat) (f : Nat → Nat → Int) (d c : Bool)
    (e : BitVec 4) :
    (s.withStatus d c e).storeBlock base stride w h f = (s.storeBlock base stride w h f).withStatus d c e := rfl

theorem State.addBlock_withStatus (s : State) (y : List Int) (d c : Bool) (e : BitVec 4) :
    (s.withStatus d c e).addBlock y = (s.addBlock y).withStatus d c e :=
  s.storeBlock_withStatus (s.arg 2) (s.arg 3) 4 4 _ d c e

theorem statusBlind_idctAdd (b : Nat) : StatusBlind fun s => s.idctAdd b :=
  statusBlind_guarded (hu := fun s => s.addBlock_withStatus (invDct (s.coefBlock b)))

theorem statusBlind_idctDcAdd (b : Nat) : StatusBlind fun s => s.idctDcAdd b :=
  statusBlind_guarded (hu := fun s => s.addBlock_withStatus (dcResidual (s.coefAt b 0)))

theorem statusBlind_intraBlock (n : Nat) (mode : BitVec 4) (up left : Bool) :
    StatusBlind fun s => s.intraBlock n mode up left := by
  unfold State.intraBlock
  cases blockModeOf mode with
  | none => exact statusBlind_error _
  | some md => exact statusBlind_guarded

/-- The walk of TREE_READ reads the tree, PROB, frame memory and the decoder's registers (R121). -/
theorem statusBlind_treeWalk (t : List Int) (start : Nat) :
    StatusBlind fun s =>
      match treeWalk s.params.vs s.mem s.probAt t Config.maxTreeSteps start s.bd with
      | .ok (sym, bd) => .ok { s with bd := bd, res0 := BitVec.ofNat 32 sym }
      | .error e => .error e := by
  intro s d c e
  have hwalk : treeWalk (s.withStatus d c e).params.vs (s.withStatus d c e).mem (s.withStatus d c e).probAt t
      Config.maxTreeSteps start (s.withStatus d c e).bd =
        treeWalk s.params.vs s.mem s.probAt t Config.maxTreeSteps start s.bd := rfl
  simp only [hwalk]
  cases treeWalk s.params.vs s.mem s.probAt t Config.maxTreeSteps start s.bd <;> rfl

theorem State.withFilterTables_withStatus (s : State) (d c : Bool) (e : BitVec 4) :
    (s.withStatus d c e).withFilterTables = s.withFilterTables.withStatus d c e := by
  by_cases h : s.sharpness = s.lastSharp
  · rw [State.withFilterTables_same h, State.withFilterTables_same (s := s.withStatus d c e) h]; rfl
  · rw [State.withFilterTables_changed h, State.withFilterTables_changed (s := s.withStatus d c e) h]; rfl

/-- Every command is a computation blind to DONE, CMD_ERR and ERR_CODE, and its end. -/
theorem exec_statusBlind (i : Instr) : ∃ f, (∀ s, exec i s = complete s (f s)) ∧ StatusBlind f := by
  cases i with
  | nop | iwht | iwhtDc | coefClear => exact ⟨_, fun _ => rfl, statusBlind_ok⟩
  | iwhtAuto =>
    exact ⟨fun s => if 1 < s.eobAt 24 then .ok s.iwht else .ok s.iwhtDc,
      fun s => congrArg (complete s) (apply_ite Except.ok _ _ _), StatusBlind.ite statusBlind_ok statusBlind_ok⟩
  | lfFrameInit => exact ⟨_, fun _ => rfl, statusBlind_ok State.withFilterTables_withStatus⟩
  | bdInit => exact ⟨_, fun _ => rfl, (statusBlind_error _).ite statusBlind_guarded⟩
  | bdBool | bdLiteral => exact ⟨_, fun _ => rfl, StatusBlind.ite statusBlind_ok (statusBlind_error _)⟩
  | treeRead tree start =>
    refine ⟨_, fun _ => rfl, fun s d c e => ?_⟩
    have htree : (s.withStatus d c e).treeOf tree = s.treeOf tree := rfl
    simp only [htree]
    cases s.treeOf tree with
    | none => rfl
    | some t =>
      have hready : StatusBlind fun u => if u.bdReady = true then _ else _ :=
        (statusBlind_treeWalk t start.toNat).ite (statusBlind_error .bdNotReady)
      exact StatusBlind.ite (p := fun _ => start.toNat % 2 = 1 ∨ t.length ≤ start.toNat + 1)
        (statusBlind_error .badParam) hready (fun _ _ _ _ => Iff.rfl) s d c e
  | dequant => exact ⟨_, fun _ => rfl, (statusBlind_error _).ite statusBlind_ok⟩
  | idctAdd blk => exact ⟨_, fun _ => rfl, (statusBlind_error _).ite (statusBlind_idctAdd blk.toNat)⟩
  | idctDcAdd blk => exact ⟨_, fun _ => rfl, (statusBlind_error _).ite (statusBlind_idctDcAdd blk.toNat)⟩
  | idctAutoAdd blk =>
    exact ⟨_, fun _ => rfl,
      (statusBlind_error _).ite ((statusBlind_idctAdd blk.toNat).ite (statusBlind_idctDcAdd blk.toNat))⟩
  | intraB4 mode =>
    refine ⟨_, fun _ => rfl, ?_⟩
    cases subModeOf mode with
    | none => exact statusBlind_error _
    | some md => exact statusBlind_guarded
  | intraY16 mode up left | intraUv8 mode up left =>
    exact ⟨_, fun _ => rfl, statusBlind_intraBlock _ mode up left⟩
  | aboveRightCopy | mcPred => exact ⟨_, fun _ => rfl, statusBlind_guarded⟩
  | lfMb seg ref mode skip top leftMb =>
    refine ⟨_, fun _ => rfl, ?_⟩
    cases mbModeOf mode with
    | none => exact statusBlind_error _
    | some md => exact (statusBlind_error _).ite statusBlind_guarded
  | lfEdge dir kind cnt =>
    refine ⟨_, fun _ => rfl, ?_⟩
    unfold State.lfEdgeJob
    cases edgeKindOf kind with
    | none => exact statusBlind_error _
    | some k => exact statusBlind_guarded

/-- A command ends whatever DONE, CMD_ERR and ERR_CODE held: completed with the same changes of the rest of the state,
or failed with the same error (R263). -/
theorem exec_withStatus (i : Instr) (s : State) :
    (∃ u : State, ∀ d c e, exec i (s.withStatus d c e) = .next (u.withStatus d c e).finish) ∨
      ∃ err, ∀ d c e, exec i (s.withStatus d c e) = .next ((s.withStatus d c e).fail err) := by
  obtain ⟨f, hexec, hblind⟩ := exec_statusBlind i
  cases hf : f s with
  | ok u => exact .inl ⟨u, fun d c e => by rw [hexec, hblind, hf]; rfl⟩
  | error err => exact .inr ⟨err, fun d c e => by rw [hexec, hblind, hf]; rfl⟩

/-! ## DONE and CMD_ERR are sticky -/

/-- DONE and CMD_ERR are 1 in t where they are 1 in s. -/
def FlagsStick (s t : State) : Prop := (s.done = true → t.done = true) ∧ (s.cmdErr = true → t.cmdErr = true)

theorem flagsStick_of_eq {s t : State} (hdone : t.done = s.done) (herr : t.cmdErr = s.cmdErr) : FlagsStick s t :=
  ⟨hdone.trans, herr.trans⟩

theorem flagsStick_fail (s : State) (e : CmdError) : FlagsStick s (s.fail e) := ⟨fun _ => rfl, fun _ => rfl⟩

/-- A command keeps CMD_ERR when it completes, and sets both flags when it fails. -/
theorem flagsStick_exec {i : Instr} {s t : State} (ht : exec i s = .next t) : FlagsStick s t := by
  obtain ⟨u, hu⟩ | ⟨err, herr⟩ := exec_withStatus i s
  · cases (hu s.done s.cmdErr s.errCode).symm.trans ht
    exact ⟨fun _ => rfl, id⟩
  · cases (herr s.done s.cmdErr s.errCode).symm.trans ht
    exact flagsStick_fail s err

theorem flagsStick_runCommand {w : Word} {s t : State} (ht : runCommand w s = .next t) : FlagsStick s t := by
  cases hd : decode w with
  | ok i => rw [runCommand, hd] at ht; exact flagsStick_exec ht
  | error e => cases (runCommand_of_decode_error hd s).symm.trans ht; exact flagsStick_fail s e

/-- A register write that is neither a soft reset nor a write to STATUS clears no flag. -/
theorem flagsStick_hostRegWrite {s t : State} {off : Nat} {v : Word} (hstatus : off ≠ 0x008)
    (hreset : ¬ (off = 0x00C ∧ v.getLsbD 0 = true)) (ht : s.hostRegWrite off v = .next t) : FlagsStick s t := by
  unfold State.hostRegWrite at ht
  rw [if_neg hreset] at ht
  split at ht
  · cases ht; exact flagsStick_of_eq rfl rfl
  · split at ht
    · exact flagsStick_runCommand ht
    · cases ht
      obtain ⟨hdone, herr, -⟩ := (s.writeReg_frame hreset).status hstatus
      exact flagsStick_of_eq hdone herr

/-- A write to STATUS is ignored while BUSY = 1 and clears the flags it names while BUSY = 0 (R26, R301). -/
theorem State.hostRegWrite_status {s t : State} {v : Word} (ht : s.hostRegWrite 0x008 v = .next t) :
    t = s ∨ t = s.writeStatus v := by
  cases hb : s.busy with
  | true => unfold State.hostRegWrite at ht; rw [if_pos hb] at ht; cases ht; exact .inl rfl
  | false => rw [State.hostRegWrite_of_idle hb (by decide)] at ht; cases ht; exact .inr rfl

/-- An access that does not reset clears no flag, unless it is a write to STATUS. -/
theorem hostStep_flags {h : HostAction} {s t : State} (ht : hostStep h s = .next t)
    (hno : ¬ h.resets s.params.mmioBase) :
    FlagsStick s t ∨ ∃ v, h = .regWrite 32 (s.params.mmioBase + 0x008) v ∧ t = s.writeStatus v := by
  cases h with
  | regRead width address =>
    obtain ⟨off, -, -, -, -, hk⟩ := State.regAccess_next ((hostStep_regRead s width address).symm.trans ht)
    cases hk
    have hframe := s.hostRegRead_frame off
    exact .inl (flagsStick_of_eq (congrArg State.done hframe :) (congrArg State.cmdErr hframe :))
  | regWrite width address v =>
    obtain ⟨off, rfl, rfl, -, -, hk⟩ := State.regAccess_next ((hostStep_regWrite s width address v).symm.trans ht)
    by_cases hstatus : off = 0x008
    · subst hstatus
      obtain rfl | hwrite := State.hostRegWrite_status hk
      · exact .inl (flagsStick_of_eq rfl rfl)
      · exact .inr ⟨v, rfl, hwrite⟩
    · exact .inl (flagsStick_hostRegWrite hstatus (fun ⟨hctrl, hv⟩ => hno ⟨rfl, by rw [hctrl], hv⟩) hk)
  | memRead a => cases ht; exact .inl (flagsStick_of_eq rfl rfl)
  | memWrite a b => cases ht; exact .inl (flagsStick_of_eq rfl rfl)
  | resetInput => exact absurd trivial hno

theorem eq_true_of_and_not_eq_false {a b : Bool} (ha : a = true) (h : (a && !b) = false) : b = true := by
  subst ha; simpa using h

/-- BD_ERR stands in bit 2 of STATUS, computed from the current BD_COUNT (R26, R49). -/
theorem State.readReg_status_bdErr (s : State) : (s.readReg 0x008).getLsbD 2 = bdErrOf s.params.vs s.bd := by
  obtain ⟨-, -, hbit, -⟩ := s.statusWord_fields
  exact hbit

/-- Settles O21: a command is a computation blind to the flags, and its end; and of the accesses that do not reset, a
write to STATUS alone clears a flag. -/
theorem commandsEnd : Obligations.CommandsEnd := by
  refine ⟨fun i s => ?_, fun s t h rest hhost hstep hno => ?_, State.readReg_status_bdErr⟩
  · obtain ⟨u, hu⟩ | ⟨err, herr⟩ := exec_withStatus i s
    · exact .inl ⟨u.finish, rfl, rfl, hu⟩
    · obtain ⟨hlo, hhi⟩ := errCodeOf_range err
      exact .inr ⟨errCodeOf err, hlo, hhi, herr⟩
  · rw [step_of_host hhost] at hstep
    obtain ⟨hdone, herr⟩ | ⟨v, rfl, rfl⟩ := hostStep_flags hstep hno
    · exact ⟨fun hs ht => absurd (hdone hs) (by simp [ht]), fun hs ht => absurd (herr hs) (by simp [ht])⟩
    · exact ⟨fun hs ht => ⟨v, rfl, eq_true_of_and_not_eq_false hs ht⟩,
        fun hs ht => ⟨v, rfl, eq_true_of_and_not_eq_false hs ht⟩⟩

/-! ## The interrupt output and NOP -/

theorem State.irq_iff (s : State) : s.irq = true ↔ s.ctrl.getLsbD 1 = true ∧ (s.done = true ∨ s.cmdErr = true) := by
  simp only [State.irq, State.irqEn, Bool.and_eq_true, Bool.or_eq_true]

/-- Settles O15: a write to STATUS clears both causes, and a configuration write reaches CTRL alone. -/
theorem interruptRule : Obligations.InterruptRule := by
  refine fun s => ⟨s.irq_iff, fun v h1 h3 => ?_, fun v h0 h1 => ?_⟩
  · rw [s.writeReg_status, State.irq, State.writeStatus_done, State.writeStatus_cmdErr, h1, h3]
    simp only [Bool.not_true, Bool.and_false, Bool.or_false]
  · rw [s.writeReg_ctrl, s.writeCtrl_configures h0]
    have hmasked : (v &&& ctrlMask).getLsbD 1 = false := (getLsbD_and_of_set rfl v).trans h1
    refine ⟨Bool.eq_false_iff.2 fun hirq => ?_, rfl, rfl⟩
    obtain ⟨hen, -⟩ := (State.irq_iff _).1 hirq
    cases hmasked.symm.trans hen

/-- Settles O26: the end of NOP, and the decoder's error for its reserved bits. -/
theorem nopOnlySetsDone : Obligations.NopOnlySetsDone := by
  refine fun s => ⟨fun hb => ?_, rfl, fun w hop hres => ?_⟩
  · have hend : exec .nop s = .next s.finish := rfl
    rw [hend, State.finish, ← hb]
  · have hbyte : w.extractLsb' 0 8 = Opcode.nop.byte := opcodeByte_iff.2 hop
    exact runCommand_of_decode_error (decode_of_reserved hbyte (mt (ushiftRight_eq_zero_iff w 8).1 hres)) s

end Sys2Proof.Machine

namespace Sys2Proof.Machine

/-! ## The state of the registers after a reset -/

/-- The power-on state is what a reset leaves of itself, so the facts about resetRegisters speak of it too. -/
theorem State.reset_eq_resetRegisters : State.reset = State.reset.resetRegisters := rfl

/-- No word of the window shows frame memory or the model's own fields (R20, R290). -/
theorem State.readReg_resetRegisters (s : State) (off : Nat) :
    s.resetRegisters.readReg off = (State.resetWith s.params).readReg off := rfl

theorem State.readReg_id (s : State) : s.readReg 0x000 = Config.idValue := rfl

theorem State.bdErr_resetRegisters (s : State) : s.resetRegisters.bdErr = false := State.resetWith_bdErr s.params

/-- STATUS reads 0 after a reset: its flags are 0, and BD_ERR is so for either VS. -/
theorem State.statusWord_resetRegisters (s : State) : s.resetRegisters.statusWord = 0#32 := by
  simp only [State.statusWord, s.bdErr_resetRegisters, State.resetRegisters_errCode, State.resetRegisters_bdReady,
    State.resetRegisters_cmdErr, State.resetRegisters_done, State.resetRegisters_busy]
  decide

theorem State.irq_resetRegisters (s : State) : s.resetRegisters.irq = false := Bool.and_false _

theorem getD_replicate_of_lt {α : Type} {n k : Nat} (hk : k < n) (a d : α) : (Vector.replicate n a).getD k d = a := by
  simp [Vector.getD, hk]

/-- R231 at sharpness 0. -/
theorem limOf_zero (l : Nat) : limOf 0 l = max l 1 := limOf_eq 0 l

/-- The limits after a reset are those of sharpness 0 (R44, R290). -/
theorem State.limits_resetRegisters (s : State) {l : Nat} (hl : l < 64) :
    s.resetRegisters.limAt l = max l 1 ∧ s.resetRegisters.blimAt l = 2 * l + max l 1 ∧
      s.resetRegisters.mblimAt l = 2 * (l + 2) + max l 1 := by
  rw [← limOf_zero]
  exact limTables_getD 0 hl

/-- Settles O19: the base case of the invariant. -/
theorem resetMeetsInvariant : Obligations.ResetMeetsInvariant := resetWith_inv

/-- Settles O16: either reset, and power-on, leave resetRegisters of some state. -/
theorem resetRegisterValues : Obligations.ResetRegisterValues := by
  intro s h rest hhost hr
  have hstep : step s = .next (State.resetRegisters { s with host := rest }) :=
    (step_of_host hhost).trans (hostStep_of_resets hr)
  refine ⟨_, hstep, rfl, rfl, fun u hu => ?_⟩
  obtain ⟨v, rfl⟩ : ∃ v, u = State.resetRegisters v :=
    hu.elim (⟨_, ·⟩) fun hu => ⟨_, hu.trans State.reset_eq_resetRegisters⟩
  exact ⟨v.irq_resetRegisters, rfl, v.statusWord_resetRegisters, rfl, rfl, rfl, rfl, rfl, rfl, rfl, rfl, rfl, rfl, rfl,
    rfl, rfl, v.bdErr_resetRegisters, fun k _ => getD_replicate_self 8 k _, rfl, rfl, rfl, rfl, rfl,
    fun k hk => getD_replicate_of_lt hk _ _, fun k _ => getD_replicate_self 32 k _,
    fun b i _ _ => congrArg BitVec.toInt (getD_replicate_self 400 _ _),
    fun b _ => congrArg BitVec.toNat (getD_replicate_self 25 _ _),
    fun g f m _ _ _ => congrArg BitVec.toNat (getD_replicate_self 64 _ _), fun l => v.limits_resetRegisters⟩

/-- Settles O17: with SOFT_RESET the write is the reset that the reset input is, without it a write of CTRL. -/
theorem softResetRule : Obligations.SoftResetRule := by
  intro s rest v hb hhost
  have hwrite : step s = State.hostRegWrite { s with host := rest } 0x00C v := step_regWrite hhost (by decide) rfl
  refine ⟨fun hv => ?_, fun hv => ?_⟩
  · have hreset : step s = .next (State.resetRegisters { s with host := rest }) :=
      hwrite.trans (State.hostRegWrite_softReset _ hv)
    exact ⟨hreset, _, hreset, BitVec.zero_and, State.readReg_resetRegisters _⟩
  · rw [hwrite, State.hostRegWrite_of_idle (s := { s with host := rest }) hb (by decide), State.writeReg_ctrl,
      State.writeCtrl_configures _ hv]
    rfl

/-! ## BD_READY and LAST_SHARP -/

/-- What a command computes leaves BD_READY 1: BD_INIT sets it, the others leave it (R38). -/
theorem Effect.bdReady {i : Instr} {s u : State} (he : Effect i s u) (hs : s.bdReady = true) : u.bdReady = true := by
  by_cases hi : i = .bdInit
  · subst hi
    obtain ⟨-, -, rfl⟩ := he
    rfl
  · exact (he.frame.bdReady hi).trans hs

theorem runCommand_bdReady {w : Word} {s t : State} (ht : runCommand w s = .next t) (hs : s.bdReady = true) :
    t.bdReady = true := by
  obtain ⟨i, u, hu, heff⟩ | ⟨e, he⟩ := runCommand_cases w s
  · cases hu.symm.trans ht; exact heff.bdReady hs
  · cases he.symm.trans ht; exact hs

/-- 0x50 is the one word of LF_FRAME_INIT, and no other command writes LAST_SHARP (R33, R84). -/
theorem runCommand_lastSharp {w : Word} {s t : State} (hw : w ≠ 0x00000050#32) (ht : runCommand w s = .next t) :
    t.lastSharp = s.lastSharp := by
  cases hd : decode w with
  | ok i =>
    have hi : i ≠ .lfFrameInit := by
      rintro rfl
      exact hw (encodeDecodeRoundTrip w _ hd).symm
    rw [runCommand, hd] at ht
    obtain ⟨u, hu, heff⟩ | ⟨e, he⟩ := exec_cases i s
    · cases hu.symm.trans ht; exact (heff.frame.tables hi).1
    · cases he.symm.trans ht; rfl
  | error e => cases (runCommand_of_decode_error hd s).symm.trans ht; rfl

/-- A register write that is no soft reset runs a command or keeps BD_READY and LAST_SHARP. -/
theorem State.hostRegWrite_cases {s t : State} {off : Nat} {v : Word} (hreset : ¬ (off = 0x00C ∧ v.getLsbD 0 = true))
    (ht : s.hostRegWrite off v = .next t) :
    (t.bdReady = s.bdReady ∧ t.lastSharp = s.lastSharp) ∨ (off = 0x004 ∧ runCommand v s = .next t) := by
  unfold State.hostRegWrite at ht
  rw [if_neg hreset] at ht
  split at ht
  · cases ht; exact .inl ⟨rfl, rfl⟩
  · split at ht
    · next hcmd => exact .inr ⟨hcmd, ht⟩
    · cases ht
      have hothers := (s.writeReg_frame hreset).others
      exact .inl ⟨(congrArg State.bdReady hothers :), (congrArg State.lastSharp hothers :)⟩

/-- An access that does not reset runs a command or keeps BD_READY and LAST_SHARP. -/
theorem hostStep_command_or_keeps {h : HostAction} {s t : State} (ht : hostStep h s = .next t)
    (hno : ¬ h.resets s.params.mmioBase) :
    (t.bdReady = s.bdReady ∧ t.lastSharp = s.lastSharp) ∨
      ∃ w, h = .regWrite 32 (s.params.mmioBase + 0x004) w ∧ runCommand w s = .next t := by
  cases h with
  | regRead width address =>
    obtain ⟨off, -, -, -, -, hk⟩ := State.regAccess_next ((hostStep_regRead s width address).symm.trans ht)
    cases hk
    have hframe := s.hostRegRead_frame off
    exact .inl ⟨(congrArg State.bdReady hframe :), (congrArg State.lastSharp hframe :)⟩
  | regWrite width address v =>
    obtain ⟨off, rfl, rfl, -, -, hk⟩ := State.regAccess_next ((hostStep_regWrite s width address v).symm.trans ht)
    obtain hkeeps | ⟨rfl, hrun⟩ := State.hostRegWrite_cases (fun ⟨hctrl, hv⟩ => hno ⟨rfl, by rw [hctrl], hv⟩) hk
    · exact .inl hkeeps
    · exact .inr ⟨v, rfl, hrun⟩
  | memRead a => cases ht; exact .inl ⟨rfl, rfl⟩
  | memWrite a b => cases ht; exact .inl ⟨rfl, rfl⟩
  | resetInput => exact absurd trivial hno

/-- An access that does not reset leaves BD_READY 1 where it is 1. -/
theorem hostStep_bdReady {h : HostAction} {s t : State} (ht : hostStep h s = .next t)
    (hno : ¬ h.resets s.params.mmioBase) (hs : s.bdReady = true) : t.bdReady = true := by
  obtain ⟨hready, -⟩ | ⟨w, -, hrun⟩ := hostStep_command_or_keeps ht hno
  · exact hready.trans hs
  · exact runCommand_bdReady hrun hs

/-- An access that neither resets nor issues LF_FRAME_INIT keeps LAST_SHARP. -/
theorem hostStep_lastSharp {h : HostAction} {s t : State} (ht : hostStep h s = .next t)
    (hno : ¬ h.resets s.params.mmioBase) (hinit : ¬ h.issues s.params.mmioBase 0x00000050#32) :
    t.lastSharp = s.lastSharp := by
  obtain ⟨-, hsharp⟩ | ⟨w, rfl, hrun⟩ := hostStep_command_or_keeps ht hno
  · exact hsharp
  · exact runCommand_lastSharp (fun hw => hinit ⟨rfl, rfl, hw⟩) hrun

/-- Settles O18: an access that is no reset keeps BD_READY and LAST_SHARP or runs a command; no command clears BD_READY,
and LF_FRAME_INIT alone writes LAST_SHARP. -/
theorem readyClearedOnlyByReset : Obligations.ReadyClearedOnlyByReset := by
  refine ⟨fun s t h rest hhost hstep => ?_, fun s t hhost hstep => ?_⟩
  · rw [step_of_host hhost] at hstep
    refine ⟨fun hs ht => by_contra fun hno => ?_,
      fun hs ht => or_iff_not_imp_left.2 fun hno => by_contra fun hinit => ?_, fun hr => ?_⟩
    · cases ht.symm.trans (hostStep_bdReady hstep hno hs)
    · exact hs ((hostStep_lastSharp hstep hno hinit).symm.trans ht)
    · have ht := Host.Outcome.next.inj (hstep.symm.trans (hostStep_of_resets hr))
      exact ⟨(congrArg State.mem ht :), t.readReg_id.trans s.readReg_id.symm⟩
  · exact (Host.Outcome.next.inj ((step_of_idle hhost).symm.trans hstep)).symm

end Sys2Proof.Machine
